-- ==== Sys2Proof/Word.lean ====
section
/-! DEFINITION. The words, the numeric domain and the parameters of the block (spec/00_scope.md R4, R7, R9, R12). -/

namespace Sys2Proof

/-- A 32-bit data word of the register space (R300, R302). -/
abbrev Word := BitVec 32

/-- A 40-bit transaction word (R400). -/
abbrev Txn := BitVec 40

/-- A 7-bit register word address (R400). -/
abbrev Addr := BitVec 7

/-- The numeric semantics, parameter ARITH (R4, R9). -/
inductive Arith where
  /-- The reference semantics: a `Num` is a real number and every operation is exact. -/
  | exact
  /-- The implementation semantics: a `Num` is a binary32 value, one rounding for each operation. -/
  | f32
deriving DecidableEq, Repr

/-- The peak-ranking reading, parameter PEAK_RANK (R4, R706). -/
inductive PeakRank where
  | raw
  | compensated
  | compensatedPeak
deriving DecidableEq, Repr

/-- A value of the numeric domain `Num` (R9, R12), as plain data.
Under ARITH = f32 every stored value is a `bits`. Under ARITH = exact a value is an exact real: a
rational in one canonical form (`bits` where a binary32 pattern holds it, else `rat`), a rational
multiple of pi, or the expression that denotes it (log 4). -/
inductive Num where
  /-- The binary32 pattern `w`. Under ARITH = exact it denotes the real `dec32 w` (R12). -/
  | bits (w : Word)
  /-- The rational `q`. -/
  | rat (q : Rat)
  /-- The real `q` times pi. -/
  | piTimes (q : Rat)
  /-- `a + b`. -/
  | sum (a b : Num)
  /-- `a * b`. -/
  | prod (a b : Num)
  /-- `a / b`. -/
  | quot (a b : Num)
  /-- `COS(a)`. -/
  | cosOf (a : Num)
  /-- `LOG2(a)`. -/
  | log2Of (a : Num)
  /-- `EXP2(a)`. -/
  | exp2Of (a : Num)
  /-- `POW(a, b)`. -/
  | powOf (a b : Num)
deriving DecidableEq, Repr

/-- The block's open parameters that its rules read (R4), as plain data. State carries them (log 3). -/
structure Params where
  /-- ARITH (R9). -/
  arith : Arith
  /-- PEAK_RANK (R706). -/
  peakRank : PeakRank
  /-- SCALE_ROM: 13 rows of 12 bits (R804). -/
  scaleRom : Vector (BitVec 12) 13
deriving DecidableEq, Repr

/-- The byte order of a byte-addressed platform mapping, parameter BUS_BYTE_ORDER (R302, D49). -/
inductive ByteOrder where
  | little
  | big
deriving DecidableEq, Repr, Inhabited

/-- The discrete decisions made from values that rounding touched (R10, I3), with the index of each. -/
inductive Decision where
  /-- The guard of ACWINV[m] for buffers of N samples (R603). -/
  | window (n m : Nat)
  /-- The zero-energy guard (R702). -/
  | zeroEnergy
  /-- Whether the values rise from the left neighbour of a lag to the lag, which is the right side of the one and the left
  side of the other (R705). -/
  | rise (lag : Nat)
  /-- The key of a lag against the best so far (R706). -/
  | rank (lag : Nat)
  /-- The voicing test (R900). -/
  | voicing
  /-- The floor of the wrapped distance from a class (R800). -/
  | distance (c : Nat)
  /-- The score of a class against the best so far (R806). -/
  | score (c : Nat)
  /-- The floor of the glide's wrapped signed distance (R903). -/
  | glide
  /-- The floor of the wrap of SMOOTH (R905). -/
  | smoothWrap
  /-- The floor of the correction's wrapped signed distance (R907). -/
  | correction
  /-- The floor of the grain length (R1005). -/
  | grainLength
  /-- The floor of the taper index of a position (R1006). -/
  | taper (t : Int)
  /-- The floor of the fragment index of a position (R1007). -/
  | fragment (t : Int)
  /-- The normalisation test (R1009). -/
  | normalise
deriving DecidableEq, Repr

/-- One making of a discrete decision: which one, and at which accepted PUSH (log 7, log 24). -/
structure Site where
  epoch : Nat
  decision : Decision
deriving DecidableEq, Repr

end Sys2Proof
end

