-- ==== Sys2Proof/Machine/Binary32.lean ====
section
/-! DEFINITION. The binary32 format: `dec32` and `enc32` of a rational (spec/00_scope.md R11, spec/20_memory.md R302),
and the classes of patterns (spec/30_encoding.md R401). -/

namespace Sys2Proof

/-- The biased exponent, bits 30:23 (R302). -/
def expField (w : Word) : Nat := (w.extractLsb' 23 8).toNat

/-- The fraction, bits 22:0 (R302). -/
def fracField (w : Word) : Nat := (w.extractLsb' 0 23).toNat

/-- A finite pattern: bits 30:23 are not all 1 (R401). -/
def isFinite32 (w : Word) : Bool := expField w != 0xFF

/-- A NaN pattern: bits 30:23 all 1 and a non-zero fraction. -/
def isNaN32 (w : Word) : Bool := expField w == 0xFF && fracField w != 0

/-- An infinity pattern: bits 30:23 all 1 and a zero fraction. -/
def isInf32 (w : Word) : Bool := expField w == 0xFF && fracField w == 0

/-- The magnitude of a pattern in units of 2^-150. -/
def unitsOf (w : Word) : Nat :=
  if expField w = 0 then 2 * fracField w else (2 ^ 23 + fracField w) * 2 ^ expField w

/-- `dec32(w)`: the real value of a finite pattern (R11). For an infinity the same formula gives plus or minus 2^128,
which only orders it beyond every finite value. -/
def dec32 (w : Word) : Rat :=
  let q := mkRat (unitsOf w) (2 ^ 150)
  if w.msb then -q else q

/-- The 31-bit magnitude pattern of a magnitude of `m` units of 2^-150 and, when `sticky`, a part of a unit more:
round to nearest, ties to even, subnormals and overflow to infinity included (R9, R11). -/
def roundUnits (m : Nat) (sticky : Bool) : Nat :=
  let shift := max 1 (Nat.log2 m - 23)
  let kept := m / 2 ^ shift
  let rest := m % 2 ^ shift
  let half := 2 ^ (shift - 1)
  let up := half < rest || (rest == half && (sticky || kept % 2 == 1))
  min ((shift - 1) * 2 ^ 23 + kept + (if up then 1 else 0)) 0x7F800000

/-- The magnitude pattern of |q|. -/
def magnitude32 (q : Rat) : Word :=
  let n := q.num.natAbs * 2 ^ 150
  BitVec.ofNat 32 (roundUnits (n / q.den) (n % q.den != 0))

/-- The sign bit set on a magnitude pattern. -/
def withSign (neg : Bool) (mag : Word) : Word := if neg then 0x80000000#32 ||| mag else mag

/-- `enc32(q)` of a rational: round to nearest, ties to even (R11). Zero encodes as +0.0 (log 5). -/
def encRat (q : Rat) : Word := withSign (decide (q < 0)) (magnitude32 q)

end Sys2Proof
end

