-- ==== Sys2Proof/Machine/Reals.lean ====
section
/-! DEFINITION. The reals that values denote under ARITH = exact (spec/00_scope.md R9, R11). They stand in types and in
statements only: no step computes one. -/

namespace Sys2Proof

/-- The value of a pattern, as a real. -/
abbrev real32 (w : Word) : ℝ := ((dec32 w : ℚ) : ℝ)

/-- The real that a `Num` denotes under ARITH = exact (R9). -/
noncomputable def Num.val : Num → ℝ
  | .bits w => real32 w
  | .rat q => (q : ℝ)
  | .piTimes q => (q : ℝ) * Real.pi
  | .sum a b => a.val + b.val
  | .prod a b => a.val * b.val
  | .quot a b => a.val / b.val
  | .cosOf a => Real.cos a.val
  | .log2Of a => Real.logb 2 a.val
  | .exp2Of a => (2 : ℝ) ^ a.val
  | .powOf a b => a.val ^ b.val

/-- The real exists: no quotient by 0, no logarithm and no power of a real that is not above 0 occurs in it (log 23). -/
def Num.Defined : Num → Prop
  | .bits _ | .rat _ | .piTimes _ => True
  | .sum a b | .prod a b => a.Defined ∧ b.Defined
  | .quot a b => a.Defined ∧ b.Defined ∧ b.val ≠ 0
  | .cosOf a | .exp2Of a => a.Defined
  | .log2Of a => a.Defined ∧ 0 < a.val
  | .powOf a b => a.Defined ∧ b.Defined ∧ 0 < a.val

open Classical in
/-- `enc32(x)` of a real (R11): the rounding of `encRat`, on the real's own units. -/
noncomputable def encReal (x : ℝ) : Word :=
  withSign (decide (x < 0))
    (BitVec.ofNat 32 (roundUnits ⌊|x| * 2 ^ 150⌋₊ (decide ((⌊|x| * 2 ^ 150⌋₊ : ℝ) ≠ |x| * 2 ^ 150))))

/-- What an order test of two reals answers: where both exist, whether the first is below the second (R9). -/
abbrev Num.Order (a b : Num) : Type := { r : Bool // a.Defined → b.Defined → (r = true ↔ a.val < b.val) }

/-- What a floor of a real answers (R7). -/
abbrev Num.Floor (a : Num) : Type := { n : Int // a.Defined → n = ⌊a.val⌋ }

/-- What an encoding of a real answers (R11). -/
abbrev Num.Pattern (a : Num) : Type := { w : Word // a.Defined → w = encReal a.val }

open Classical in
theorem Num.order_exists (a b : Num) : Nonempty (Num.Order a b) := ⟨⟨decide (a.val < b.val), fun _ _ => by simp⟩⟩

theorem Num.floor_exists (a : Num) : Nonempty (Num.Floor a) := ⟨⟨⌊a.val⌋, fun _ => rfl⟩⟩

theorem Num.pattern_exists (a : Num) : Nonempty (Num.Pattern a) := ⟨⟨encReal a.val, fun _ => rfl⟩⟩

/-- A member of a type that has one. Which one it is cannot be told: its equation says nothing, and running it does not
end. It only shows that an opaque constant of Config can have its type. -/
def someMember (α : Type) [Nonempty α] : α := someMember α
partial_fixpoint

end Sys2Proof
end

