-- ==== Sys2Proof/Config.lean ====
section
/-! DEFINITION. What the spec leaves to an implementation or to the model (spec/00_scope.md R4, R9, R10,
spec/93_implementation_defined.md part 1): constants with no body, of which nothing can be proved but what their type
says. -/

namespace Sys2Proof

/-- `got` lies within the tolerance `t` of `exact`, relative to the larger of 1 and |exact| (R10, log 6). -/
def Within (t : Rat) (got exact : ℝ) : Prop := |got - exact| ≤ (t : ℝ) * max 1 |exact|

/-- `got` lies within the tolerance `t` of `exact`, up to the positive factor `c` and relative to the energy of the
transform's input (R10, R700, log 6). No place of an autocorrelation exceeds the energy. -/
def WithinScaled (t got c exact energy : Rat) : Prop := |got - c * exact| ≤ t * (c * max energy |exact|)

/-- The energy of the sequence `y`, the sum of its squares. -/
def energyOf (y : List Rat) : Rat := (y.map fun q => q * q).sum

/-- A sequence of zeros, or one whose energy leaves room in binary32 for a transform's intermediate values (log 6). -/
def InRange (y : List Rat) : Prop := energyOf y = 0 ∨ 1 / 2 ^ 90 ≤ energyOf y ∧ energyOf y ≤ 2 ^ 90

/-- The list `y` turned left by `m` places: `y[fmod(k + m, N)]` at place `k`. -/
def rotate {α : Type} (y : List α) (m : Nat) : List α := y.drop m ++ y.take m

/-- `sum over k of y[k] * y[fmod(k + m, N)]` over the rationals (R700, R602). -/
def circularProduct (y : List Rat) (m : Nat) : Rat := (List.zipWith (· * ·) y (rotate y m)).sum

/-- Z[m] of R700 over the rationals: the circular autocorrelation with the mean's contribution removed. -/
def autocorrRat (y : List Rat) (m : Nat) : Rat := circularProduct y m - y.sum * y.sum / y.length

/-- EPS: the tolerance record (R4, D5). -/
structure Eps where
  transform : Rat
  cos : Rat
  log2 : Rat
  exp2 : Rat
  pow : Rat
deriving DecidableEq, Repr

/-- The widest tolerance of the record. -/
def Eps.widest (e : Eps) : Rat := max e.transform (max (max e.cos e.log2) (max e.exp2 e.pow))

/-- The configuration functions of ARITH = f32 (R9, R10, R602, R700, I2, I25), each with the bound EPS puts on it where
its operands are finite, in the function's domain, and its exact result stays clear of binary32's overflow. The bound on
EXP2 and POW stops at an exact result of 2^127, DESIGN CHOICE (log 6): the spec does not say where a bound ends near the
overflow, and from there up a result is free. A transform's factor c is one for each N, not one for each input; its bound is
relative to the energy of its input. -/
structure F32Lib where
  /-- EPS. -/
  eps : Eps
  /-- COS. -/
  cos : Word → Word
  /-- LOG2. -/
  log2 : Word → Word
  /-- EXP2. -/
  exp2 : Word → Word
  /-- POW. -/
  pow : Word → Word → Word
  /-- The autocorrelation transform: from y of R700 to c * Z, for a constant c > 0 of each N. -/
  transform : List Word → List Word
  /-- The window autocorrelation: from CBW to c * AW of R602, for a constant c > 0 of each N. -/
  windowAutocorr : List Word → List Word
  cos_within : ∀ w, isFinite32 w →
    isFinite32 (cos w) ∧ Within eps.cos (real32 (cos w)) (Real.cos (real32 w))
  log2_within : ∀ w, isFinite32 w → 0 < dec32 w →
    isFinite32 (log2 w) ∧ Within eps.log2 (real32 (log2 w)) (Real.logb 2 (real32 w))
  exp2_within : ∀ w, isFinite32 w → (2 : ℝ) ^ real32 w < 2 ^ (127 : ℕ) →
    isFinite32 (exp2 w) ∧ Within eps.exp2 (real32 (exp2 w)) ((2 : ℝ) ^ real32 w)
  pow_within : ∀ b e, isFinite32 b → isFinite32 e → 0 < dec32 b → real32 b ^ real32 e < 2 ^ (127 : ℕ) →
    isFinite32 (pow b e) ∧ Within eps.pow (real32 (pow b e)) (real32 b ^ real32 e)
  transform_within : ∀ n : Nat, ∃ c : ℚ, 0 < c ∧ ∀ y : List Word, y.length = n → (∀ w ∈ y, isFinite32 w) →
    InRange (y.map dec32) → ∀ m < n, isFinite32 ((transform y).getD m 0) ∧
      WithinScaled eps.transform (dec32 ((transform y).getD m 0)) c (autocorrRat (y.map dec32) m)
        (energyOf (y.map dec32))
  windowAutocorr_within : ∀ n : Nat, ∃ c : ℚ, 0 < c ∧ ∀ y : List Word, y.length = n → (∀ w ∈ y, isFinite32 w) →
    InRange (y.map dec32) → ∀ m < n, isFinite32 ((windowAutocorr y).getD m 0) ∧
      WithinScaled eps.transform (dec32 ((windowAutocorr y).getD m 0)) c (circularProduct (y.map dec32) m)
        (energyOf (y.map dec32))

theorem isFinite32_zero : isFinite32 0 = true := by decide

theorem dec32_zero : dec32 0 = 0 := by decide +kernel

theorem real32_zero : real32 0 = 0 := by
  rw [real32, dec32_zero, Rat.cast_zero]

theorem within_one_zero (x : ℝ) : Within 1 (real32 0) x := by
  rw [real32_zero]
  simp [Within]

theorem withinScaled_one_zero (exact energy : Rat) : WithinScaled 1 (dec32 0) 1 exact energy := by
  rw [WithinScaled, dec32_zero]
  simp

/-- Some library meets its bounds: the one that answers 0 everywhere, under a tolerance of 1. It only shows that the
constant below can have its type. -/
def F32Lib.allZero : F32Lib where
  eps := ⟨1, 1, 1, 1, 1⟩
  cos _ := 0
  log2 _ := 0
  exp2 _ := 0
  pow _ _ := 0
  transform _ := []
  windowAutocorr _ := []
  cos_within _ _ := ⟨isFinite32_zero, within_one_zero _⟩
  log2_within _ _ _ := ⟨isFinite32_zero, within_one_zero _⟩
  exp2_within _ _ _ := ⟨isFinite32_zero, within_one_zero _⟩
  pow_within _ _ _ _ _ _ := ⟨isFinite32_zero, within_one_zero _⟩
  transform_within _ := ⟨1, one_pos, fun _ _ _ _ _ _ => ⟨isFinite32_zero, withinScaled_one_zero _ _⟩⟩
  windowAutocorr_within _ := ⟨1, one_pos, fun _ _ _ _ _ _ => ⟨isFinite32_zero, withinScaled_one_zero _ _⟩⟩

namespace Config

/-- FREE VALUE (log 6): the configuration functions of ARITH = f32 and EPS. The bracketed argument only says that the
type has a member; it is no part of the value. -/
opaque f32Functions [Inhabited F32Lib] : F32Lib

/-- The configuration functions of this machine. -/
def lib : F32Lib := @f32Functions ⟨F32Lib.allZero⟩

/-- FREE VALUE (R804, log 3): SCALE_ROM of this machine. No row of it may be assumed. -/
opaque scaleRom : Vector (BitVec 12) 13

/-- FREE VALUE (R1405, I8, log 8): the fraction and sign bits of a NaN that a binary32 operation on `a` and `b` gives. -/
opaque nanBits (a b : Word) : Word

/-- FREE VALUE (log 11): the integer that a floor gives of an infinity or a NaN under ARITH = f32. -/
opaque floorOfNonFinite (w : Word) : Int

/-- FREE VALUE (log 7): whether `a` counts as below `b` in the discrete decision `site` under ARITH = f32, where its
operands lie within EPS of each other (R10, I3). -/
opaque withinEpsLt (site : Site) (a b : Word) : Bool

/-- FREE VALUE (log 7): the floor of `a` in the discrete decision `site` under ARITH = f32, where an integer lies within
EPS of `a` (R10, I3). Only its place among the floors within EPS counts. -/
opaque withinEpsFloor (site : Site) (a : Word) : Int

/-- FREE VALUE (log 7): how far the value `a` of a rounded operand lies from the operand's exact value, under ARITH = f32
(R10: no source bounds the difference). Only its magnitude counts. -/
opaque f32Drift (a : Word) : Rat

/-- ARITH = exact: the order of two reals, which its type fixes wherever both exist (R9, log 4); FREE VALUE elsewhere
(log 23). The bracketed argument only says that the type has a member; it is no part of the value. -/
opaque realOrder [∀ a b, Inhabited (Num.Order a b)] (a b : Num) : Num.Order a b

/-- ARITH = exact: the floor of a real, which its type fixes wherever it exists (R7, log 4); FREE VALUE elsewhere
(log 23). -/
opaque realFloor [∀ a, Inhabited (Num.Floor a)] (a : Num) : Num.Floor a

/-- ARITH = exact: `enc32` of a real, which its type fixes wherever it exists (R11, log 4); FREE VALUE elsewhere
(log 23). -/
opaque realPattern [∀ a, Inhabited (Num.Pattern a)] (a : Num) : Num.Pattern a

/-- The order of two reals. -/
def orderOf (a b : Num) : Num.Order a b :=
  @realOrder (fun a b => ⟨@someMember (Num.Order a b) (Num.order_exists a b)⟩) a b

/-- The floor of a real. -/
def floorOf (a : Num) : Num.Floor a := @realFloor (fun a => ⟨@someMember (Num.Floor a) (Num.floor_exists a)⟩) a

/-- `enc32` of a real. -/
def patternOf (a : Num) : Num.Pattern a :=
  @realPattern (fun a => ⟨@someMember (Num.Pattern a) (Num.pattern_exists a)⟩) a

/-- FREE VALUE (log 19): BUS_BYTE_ORDER. It belongs to the platform and no rule of the block reads it (R302, I19). -/
opaque busByteOrder : ByteOrder

/-- FREE VALUE (log 19): REG_BASE. It belongs to the platform and no rule of the block reads it (R305, I19). -/
opaque regBase : Nat

end Config

end Sys2Proof
end

