-- ==== Sys2Proof/Machine/Interval.lean ====
section
/-! DEFINITION. Enclosures of exact reals, for the comparisons, floors and roundings of ARITH = exact (spec/00_scope.md R9,
log 4). An enclosure is a pair of integers in units of 2^-(2h), for a precision h, with the real between them; every
operation rounds outward. That each one encloses what it names is proved in Sys2Proof/Laws/Interval.lean. -/

namespace Sys2Proof

/-- A closed interval, its ends in units of 2^-(2h) for a precision `h` that the operations are given. -/
structure Ival where
  lo : Int
  hi : Int
deriving DecidableEq, Repr

/-- One, in units. -/
def unitsPerOne (h : Nat) : Int := 2 ^ (2 * h)

/-- The largest integer at or below `a / b`, for `b > 0`. -/
def divDown (a b : Int) : Int := a / b

/-- The least integer at or above `a / b`, for `b > 0`. -/
def divUp (a b : Int) : Int := -((-a) / b)

/-- Newton steps from `r` toward the integer square root of `n`. -/
def newtonSqrt (n : Nat) : Nat → Nat → Nat
  | 0, r => r
  | k + 1, r =>
    let t := (r + n / r) / 2
    if t < r then newtonSqrt n k t else r

/-- A candidate for the integer square root of `n`; its users check it. -/
def sqrtGuess (n : Nat) : Nat := newtonSqrt n (Nat.log2 (Nat.log2 n + 1) + 4) (2 ^ (Nat.log2 n / 2 + 1))

/-- A number whose square is at most `n`. -/
def sqrtDown (n : Nat) : Nat := if sqrtGuess n * sqrtGuess n ≤ n then sqrtGuess n else 0

/-- A number whose square is at least `n`. -/
def sqrtUp (n : Nat) : Nat :=
  if n ≤ sqrtGuess n * sqrtGuess n then sqrtGuess n
  else if n ≤ (sqrtGuess n + 1) * (sqrtGuess n + 1) then sqrtGuess n + 1 else n

/-- `2^k` times the binary logarithm of `y` units, from below: `k` squarings, one bit each (`1 <= y`). -/
def logDown (h : Nat) : Nat → Nat → Nat
  | 0, _ => 0
  | k + 1, y =>
    let z := y * y / 2 ^ (2 * h)
    if 2 ^ (2 * h + 1) ≤ z then 2 ^ k + logDown h k (z / 2) else logDown h k z

/-- `2^k` times the binary logarithm of `y` units, from above (`1 <= y <= 2`). -/
def logUp (h : Nat) : Nat → Nat → Nat
  | 0, _ => 1
  | k + 1, y =>
    let z := (y * y + (2 ^ (2 * h) - 1)) / 2 ^ (2 * h)
    if 2 ^ (2 * h + 1) ≤ z then 2 ^ k + logUp h k ((z + 1) / 2) else logUp h k z

/-- `2^(f / 2^k)` in units, from below, for `f <= 2^k`: a square root for each bit. -/
def expDown (h : Nat) : Nat → Nat → Nat
  | 0, f => 2 ^ f * 2 ^ (2 * h)
  | k + 1, f => sqrtDown (2 ^ (f / 2 ^ k) * expDown h k (f % 2 ^ k) * 2 ^ (2 * h))

/-- `2^(f / 2^k)` in units, from above. -/
def expUp (h : Nat) : Nat → Nat → Nat
  | 0, f => 2 ^ f * 2 ^ (2 * h)
  | k + 1, f => sqrtUp (2 ^ (f / 2 ^ k) * expUp h k (f % 2 ^ k) * 2 ^ (2 * h))

/-- The nested root `sqrt(2 + sqrt(2 + ...))` of `n` roots in units, from below. -/
def rootsDown (h : Nat) : Nat → Nat
  | 0 => 0
  | n + 1 => sqrtDown ((2 * 2 ^ (2 * h) + rootsDown h n) * 2 ^ (2 * h))

/-- The nested root of `n` roots in units, from above. -/
def rootsUp (h : Nat) : Nat → Nat
  | 0 => 0
  | n + 1 => sqrtUp ((2 * 2 ^ (2 * h) + rootsUp h n) * 2 ^ (2 * h))

namespace Ival

/-- Encloses the rational `q`. -/
def ofRat (h : Nat) (q : Rat) : Ival := ⟨divDown (q.num * unitsPerOne h) q.den, divUp (q.num * unitsPerOne h) q.den⟩

/-- Encloses pi: by twenty decimals for the coarse precisions, else by the perimeter of a regular polygon of 2^(n+2)
sides, `n = h / 2`, which falls short of a circle's by at most 4^-n. -/
def pi (h : Nat) : Ival :=
  if h ≤ 80 then
    ⟨(ofRat h (314159265358979323846 / 10 ^ 20)).lo, (ofRat h (314159265358979323847 / 10 ^ 20)).hi⟩
  else
    let n := h / 2
    ⟨2 ^ (n + 1) * sqrtDown ((2 * 2 ^ (2 * h) - rootsUp h n) * 2 ^ (2 * h)),
      2 ^ (n + 1) * sqrtUp ((2 * 2 ^ (2 * h) - rootsDown h n) * 2 ^ (2 * h)) + divUp (unitsPerOne h) (4 ^ n)⟩

/-- Encloses `x + y`. -/
def add (x y : Ival) : Ival := ⟨x.lo + y.lo, x.hi + y.hi⟩

/-- Encloses `x * y`. -/
def mul (h : Nat) (x y : Ival) : Ival :=
  let p := x.lo * y.lo
  let q := x.lo * y.hi
  let r := x.hi * y.lo
  let s := x.hi * y.hi
  ⟨divDown (min (min p q) (min r s)) (unitsPerOne h), divUp (max (max p q) (max r s)) (unitsPerOne h)⟩

/-- Encloses `1 / y`, where `y` does not reach 0. -/
def inv (h : Nat) (y : Ival) : Option Ival :=
  if 0 < y.lo then
    some ⟨divDown (unitsPerOne h * unitsPerOne h) y.hi, divUp (unitsPerOne h * unitsPerOne h) y.lo⟩
  else if y.hi < 0 then
    some ⟨-divUp (unitsPerOne h * unitsPerOne h) (-y.hi), -divDown (unitsPerOne h * unitsPerOne h) (-y.lo)⟩
  else none

/-- Encloses `x / y`, where `y` does not reach 0. -/
def div (h : Nat) (x y : Ival) : Option Ival := (inv h y).map (mul h x)

/-- Encloses `2 x^2 - 1`, the cosine of a doubled angle. -/
def doubleAngle (h : Nat) (c : Ival) : Ival :=
  let s := mul h c c
  ⟨2 * (if s.lo < 0 then 0 else s.lo) - unitsPerOne h, 2 * s.hi - unitsPerOne h⟩

/-- `k` angle doublings. -/
def doubleAngles (h : Nat) : Nat → Ival → Ival
  | 0, c => c
  | k + 1, c => doubleAngles h k (doubleAngle h c)

/-- Encloses `cos x` for |x| at most 8: the angle is divided by 2^d, its cosine bounded by
1 - t/2 and 5 t^2 / 96 around it with t its square, and the angle doubled `d = h / 2 + 3` times. -/
def cos (h : Nat) (x : Ival) : Option Ival :=
  let bound := max x.lo.natAbs x.hi.natAbs
  let near := if 0 < x.lo then x.lo else if x.hi < 0 then -x.hi else 0
  if (bound : Int) ≤ 8 * unitsPerOne h then
    let d := h / 2 + 3
    let tHi := divUp ((bound : Int) * bound) (unitsPerOne h * 4 ^ d)
    let tLo := divDown (near * near) (unitsPerOne h * 4 ^ d)
    let e := divUp (5 * (tHi * tHi)) (96 * unitsPerOne h)
    some (doubleAngles h d ⟨unitsPerOne h - divUp tHi 2 - e, unitsPerOne h - divDown tLo 2 + e⟩)
  else none

/-- The binary logarithm of `n > 0` units, in units, from below. -/
def log2Down (h n : Nat) : Int :=
  ((Nat.log2 n : Int) - (2 * h : Nat)) * unitsPerOne h
    + (logDown h h (n * 2 ^ (2 * h) / 2 ^ Nat.log2 n) : Int) * 2 ^ h

/-- The binary logarithm of `n > 0` units, in units, from above. -/
def log2Up (h n : Nat) : Int :=
  ((Nat.log2 n : Int) - (2 * h : Nat)) * unitsPerOne h
    + (logUp h h ((n * 2 ^ (2 * h) + (2 ^ Nat.log2 n - 1)) / 2 ^ Nat.log2 n) : Int) * 2 ^ h

/-- Encloses `log2 x`, where `x` is above 0. -/
def log2 (h : Nat) (x : Ival) : Option Ival :=
  if 0 < x.lo then some ⟨log2Down h x.lo.toNat, log2Up h x.hi.toNat⟩ else none

/-- `2^x` of `x` units, in units, from below. -/
def exp2Down (h : Nat) (x : Int) : Int :=
  let n := x / unitsPerOne h
  let f := (x % unitsPerOne h).toNat / 2 ^ h
  let r := expDown h h f
  if 0 ≤ n then (r : Int) * 2 ^ n.toNat else divDown r (2 ^ (-n).toNat)

/-- `2^x` of `x` units, in units, from above. -/
def exp2Up (h : Nat) (x : Int) : Int :=
  let n := x / unitsPerOne h
  let f := (x % unitsPerOne h).toNat / 2 ^ h + 1
  let r := expUp h h f
  if 0 ≤ n then (r : Int) * 2 ^ n.toNat else divUp r (2 ^ (-n).toNat)

/-- Encloses `2^x`; where x is below -2h, only by 0 and one unit. -/
def exp2 (h : Nat) (x : Ival) : Ival :=
  ⟨if -(2 * h : Nat) * unitsPerOne h ≤ x.lo then exp2Down h x.lo else 0,
    if -(2 * h : Nat) * unitsPerOne h ≤ x.hi then exp2Up h x.hi else 1⟩

end Ival

/-- Encloses at precision `h` the real that a `Num` denotes, where the operations above reach it. -/
def enclose (h : Nat) : Num → Option Ival
  | .bits w => some (Ival.ofRat h (dec32 w))
  | .rat q => some (Ival.ofRat h q)
  | .piTimes q => some (Ival.mul h (Ival.ofRat h q) (Ival.pi h))
  | .sum a b => do return Ival.add (← enclose h a) (← enclose h b)
  | .prod a b => do return Ival.mul h (← enclose h a) (← enclose h b)
  | .quot a b => do Ival.div h (← enclose h a) (← enclose h b)
  | .cosOf a => do Ival.cos h (← enclose h a)
  | .log2Of a => do Ival.log2 h (← enclose h a)
  | .exp2Of a => do return Ival.exp2 h (← enclose h a)
  | .powOf a b => do return Ival.exp2 h (Ival.mul h (← enclose h b) (← Ival.log2 h (← enclose h a)))

end Sys2Proof
end

