-- ==== Sys2Proof/Machine/Numeric.lean ====
section
/-! DEFINITION. The operations of the numeric domain under both values of ARITH (spec/00_scope.md R8, R9, R10, R11). Under
exact they denote the operations of the reals (Sys2Proof/Laws/Numeric.lean proves it); under f32 each is one binary32
operation, round to nearest, ties to even (log 16). -/

namespace Sys2Proof

/-! ### One binary32 operation (R9, R1405) -/

/-- A NaN result: its sign and fraction are free, its fraction is not zero (log 8). -/
def nan32 (a b : Word) : Word :=
  let w := Config.nanBits a b &&& 0x807FFFFF#32
  0x7F800000#32 ||| (if w.extractLsb' 0 23 = 0 then w ||| 0x400000#32 else w)

/-- An infinity. -/
def inf32 (neg : Bool) : Word := withSign neg 0x7F800000#32

/-- Addition in binary32. -/
def add32 (a b : Word) : Word :=
  if isNaN32 a || isNaN32 b then nan32 a b
  else if isInf32 a then (if isInf32 b && a.msb != b.msb then nan32 a b else a)
  else if isInf32 b then b
  else
    let q := dec32 a + dec32 b
    if q = 0 then withSign (a.msb && b.msb) 0 else encRat q

/-- The opposite sign. -/
def neg32 (a : Word) : Word := a ^^^ 0x80000000#32

/-- Subtraction in binary32. -/
def sub32 (a b : Word) : Word := if isNaN32 b then nan32 a b else add32 a (neg32 b)

/-- Multiplication in binary32. -/
def mul32 (a b : Word) : Word :=
  let neg := a.msb != b.msb
  if isNaN32 a || isNaN32 b then nan32 a b
  else if isInf32 a || isInf32 b then
    (if dec32 a = 0 || dec32 b = 0 then nan32 a b else inf32 neg)
  else withSign neg (magnitude32 (dec32 a * dec32 b))

/-- Division in binary32. -/
def div32 (a b : Word) : Word :=
  let neg := a.msb != b.msb
  if isNaN32 a || isNaN32 b then nan32 a b
  else if isInf32 a then (if isInf32 b then nan32 a b else inf32 neg)
  else if isInf32 b then withSign neg 0
  else if dec32 b = 0 then (if dec32 a = 0 then nan32 a b else inf32 neg)
  else withSign neg (magnitude32 (dec32 a / dec32 b))

/-- `a < b` in binary32: false when either is a NaN. -/
def lt32 (a b : Word) : Bool := !isNaN32 a && !isNaN32 b && decide (dec32 a < dec32 b)

/-- `a <= b` in binary32: false when either is a NaN. -/
def le32 (a b : Word) : Bool := !isNaN32 a && !isNaN32 b && decide (dec32 a ≤ dec32 b)

/-- `floor` with a binary32 result. An infinity is its own floor and a NaN gives a NaN; the sign of a zero is kept. -/
def floor32 (a : Word) : Word :=
  if isNaN32 a then nan32 a a
  else if isInf32 a then a
  else if dec32 a = 0 then a
  else encRat (dec32 a).floor

/-! ### Discrete decisions within EPS of their boundary (R10, I3, log 7) -/

/-- How far from the rounded values of `a` and `b` an exact operand within EPS of the boundary can lie: EPS, relative to the
largest of 1, |a| and |b|, and what rounding moved each of the two, of which nothing is known. -/
def reach32 (a b : Word) : Rat :=
  Config.lib.eps.widest * max 1 (max |dec32 a| |dec32 b|) + |Config.f32Drift a| + |Config.f32Drift b|

/-- Two finite values whose exact operands may lie within EPS of each other. -/
def near32 (a b : Word) : Bool :=
  isFinite32 a && isFinite32 b && decide (|dec32 a - dec32 b| ≤ reach32 a b)

/-- The least and the greatest floor of a value within reach of `a`. -/
def floorRange32 (a : Word) : Int × Int := ((dec32 a - reach32 a a).floor, (dec32 a + reach32 a a).floor)

/-- A floor of a value within reach of the finite `a`: the free value, brought into the range; the floor of `a` itself where
the range is a point. -/
def floorWithin32 (site : Site) (a : Word) : Int :=
  if (floorRange32 a).1 < (floorRange32 a).2 then
    max (floorRange32 a).1 (min (Config.withinEpsFloor site a) (floorRange32 a).2)
  else (dec32 a).floor

namespace Num

/-! ### Exact reals -/

/-- `+0.0`, the real 0 (R1200). -/
def zero : Num := .bits 0

/-- `1.0`, the real 1. -/
def one : Num := .bits 0x3F800000

/-- The exact real `q` in its canonical form: the pattern that holds it, where one does (log 4). -/
def ofRatExact (q : Rat) : Num :=
  if isFinite32 (encRat q) && decide (dec32 (encRat q) = q) then .bits (encRat q) else .rat q

/-- The rational that a `Num` is, where it is a numeral. -/
def asRat : Num → Option Rat
  | .bits w => some (dec32 w)
  | .rat q => some q
  | _ => none

/-- `r` times `u`, as one term of a sum. -/
def term (r : Rat) (u : Num) : Num :=
  if r = 0 then zero
  else if r = 1 then u
  else match u with
    | .piTimes q => .piTimes (r * q)
    | _ => .prod (ofRatExact r) u

/-- A term as its rational coefficient and the rest. -/
def coeff : Num → Rat × Num
  | .piTimes q => (q, .piTimes 1)
  | .prod k u =>
    match asRat k with
    | some r => (r, u)
    | none => (1, .prod k u)
  | a => (1, a)

/-- `s + t`, where either may be 0. -/
def join (s t : Num) : Num := if t = zero then s else if s = zero then t else .sum s t

/-- `r` times `a`, for a rational `r`: term by term. -/
def scale (r : Rat) : Num → Num
  | .bits w => ofRatExact (r * dec32 w)
  | .rat q => ofRatExact (r * q)
  | .sum s t => if r = 0 then zero else if r = 1 then .sum s t else .sum (scale r s) (scale r t)
  | a => term (r * (coeff a).1) (coeff a).2

/-- `a + r * u`: the term is gathered with the one of `a` that has the same rest. -/
def addTerm (r : Rat) (u : Num) : Num → Num
  | .sum s t =>
    if (coeff t).2 = u then join s (term ((coeff t).1 + r) u) else join (addTerm r u s) t
  | a =>
    if (asRat a).isSome then join (term r u) a
    else if (coeff a).2 = u then term ((coeff a).1 + r) u
    else join a (term r u)

/-- `a + p` for a rational `p`, which is gathered with the numeral of `a`, its last term. -/
def addRat (p : Rat) (a : Num) : Num :=
  match a with
  | .sum s t =>
    match asRat t with
    | some q => join s (ofRatExact (q + p))
    | none => join (.sum s t) (ofRatExact p)
  | a =>
    match asRat a with
    | some q => ofRatExact (q + p)
    | none => join a (ofRatExact p)

/-- `a + b` of reals: the terms of `b` are gathered with those of `a`, one after the other. -/
def addExact (a : Num) : Num → Num
  | .sum s t =>
    match asRat t with
    | some q => addRat q (addExact a s)
    | none => addTerm (coeff t).1 (coeff t).2 (addExact a s)
  | b =>
    match asRat b with
    | some q => addRat q a
    | none => addTerm (coeff b).1 (coeff b).2 a

/-- `a + b` of reals, its terms left as they stand but for numerals: a long sum. -/
def sumExact (a b : Num) : Num :=
  match asRat a, asRat b with
  | some p, some q => ofRatExact (p + q)
  | _, _ => join a b

/-- `a - b` of reals. -/
def subExact (a b : Num) : Num := if a = b then zero else addExact a (scale (-1) b)

/-- `POW(b, x)` of reals. -/
def powExact (b x : Num) : Num := .powOf b x

/-- `v * u` of reals that are no sums: two powers of one numeral above 0 make one. -/
def mulPowers (v u : Num) : Num :=
  match v, u with
  | .powOf b x, .powOf c y =>
    match asRat b, asRat x, asRat y with
    | some q, some m, some n => if b = c ∧ 0 < q then .powOf b (ofRatExact (m + n)) else .prod v u
    | _, _, _ => .prod v u
  | _, _ => .prod v u

/-- `a * (r * u)`: term by term of `a`. -/
def mulTerm (r : Rat) (u : Num) : Num → Num
  | .sum s t => addExact (mulTerm r u s) (mulTerm r u t)
  | a =>
    match asRat a with
    | some q => term (q * r) u
    | none => term ((coeff a).1 * r) (mulPowers (coeff a).2 u)

/-- A sum of numerals and of multiples of powers, over which a product is taken term by term. -/
def isPowerSum : Num → Bool
  | .sum s t => isPowerSum s && isPowerSum t
  | .bits _ | .rat _ | .powOf _ _ => true
  | .prod k (.powOf _ _) => (asRat k).isSome
  | _ => false

/-- `a * b`, term by term of `b`. -/
def mulTerms (a : Num) : Num → Num
  | .sum s t => addExact (mulTerms a s) (mulTerms a t)
  | b =>
    match asRat b with
    | some q => scale q a
    | none => mulTerm (coeff b).1 (coeff b).2 a

/-- `a * b` of reals. -/
def mulExact (a b : Num) : Num :=
  match asRat a, asRat b with
  | some p, some q => ofRatExact (p * q)
  | some p, none => scale p b
  | none, some q => scale q a
  | none, none =>
    if isPowerSum b then mulTerms a b
    else if isPowerSum a then mulTerms b a
    else .prod a b

/-- `a / b` of reals. -/
def divExact (a b : Num) : Num :=
  match asRat a, asRat b with
  | some p, some q => if q = 0 then .quot a b else ofRatExact (p / q)
  | some p, none => if p = 0 then zero else .quot a b
  | none, some q => if q = 0 then .quot a b else scale (1 / q) a
  | none, none => .quot a b

/-- `COS` of a rational multiple `q` of pi with q in [0, 1/2]: a rational where Niven's theorem has one. -/
def cosAcute (q : Rat) : Num :=
  if q = 0 then one
  else if q = 1 / 3 then ofRatExact (1 / 2)
  else if q = 1 / 2 then zero
  else .cosOf (.piTimes q)

/-- `COS` of a rational multiple `q` of pi with q in [0, 1]. -/
def cosPi (q : Rat) : Num := if 1 / 2 < q then scale (-1) (cosAcute (1 - q)) else cosAcute q

/-- `COS(a)` of a real. A multiple of pi is first brought into [0, 1] by the period and the evenness of the cosine. -/
def cosExact (a : Num) : Num :=
  match a with
  | .piTimes q =>
    let f := q - 2 * (q / 2).floor
    cosPi (if 1 < f then 2 - f else f)
  | _ => if asRat a = some 0 then one else .cosOf a

/-- The power of two that a positive rational is, if it is one. -/
def exponentOf (q : Rat) : Option Int :=
  if q.num = 2 ^ Nat.log2 q.num.natAbs ∧ q.den = 1 then some (Nat.log2 q.num.natAbs)
  else if q.num = 1 ∧ q.den = 2 ^ Nat.log2 q.den then some (-(Nat.log2 q.den : Int))
  else none

/-- `LOG2(q)` of a rational. -/
def log2Rat (q : Rat) : Num :=
  match exponentOf q with
  | some k => ofRatExact k
  | none => .log2Of (ofRatExact q)

/-- `LOG2(a)` of a real: of r * EXP2(x) with r above 0 it is x + LOG2(r). -/
def log2Exact (a : Num) : Num :=
  match asRat a with
  | some q => log2Rat q
  | none =>
    match coeff a with
    | (r, .exp2Of x) => if 0 < r then addExact x (log2Rat r) else .log2Of a
    | _ => .log2Of a

/-- The rational that EXP2 makes of one term, where the term is an integer or an integer multiple of a logarithm. -/
def exp2Term (a : Num) : Option Rat :=
  match asRat a with
  | some q => if q.den = 1 ∧ q.num.natAbs ≤ 1024 then some ((2 : Rat) ^ q.num) else none
  | none =>
    match coeff a with
    | (k, .log2Of v) =>
      match asRat v with
      | some r => if 0 < r ∧ k.den = 1 ∧ k.num.natAbs ≤ 64 then some (r ^ k.num) else none
      | none => none
    | _ => none

/-- A sum as the rational that EXP2 makes of some of its terms, and the rest. -/
def exp2Split : Num → Rat × Num
  | .sum s t =>
    match exp2Term t with
    | some r => ((exp2Split s).1 * r, (exp2Split s).2)
    | none => ((exp2Split s).1, join (exp2Split s).2 t)
  | a =>
    match exp2Term a with
    | some r => (r, zero)
    | none => (1, a)

/-- `EXP2(a)` of a real. -/
def exp2Exact (a : Num) : Num :=
  if (exp2Split a).2 = zero then ofRatExact (exp2Split a).1 else term (exp2Split a).1 (.exp2Of (exp2Split a).2)

/-! ### Exact decisions (R7, R9, R11, log 4) -/

/-- The precisions at which a value is enclosed in turn. -/
def precisions : List Nat := [80, 320, 1280]

/-- The answer that `read` gives of the first enclosure it can decide by. -/
def settle {α : Type} (read : Nat → Ival → Option α) (a : Num) : List Nat → Option α
  | [] => none
  | h :: rest =>
    match (enclose h a).bind (read h) with
    | some x => some x
    | none => settle read a rest

/-- The sign test an enclosure decides: it does not hold 0, or holds nothing below 0. -/
def readNegative (_h : Nat) (x : Ival) : Option Bool :=
  if x.hi < 0 then some true else if 0 ≤ x.lo then some false else none

/-- `a < b` of reals: where no enclosure of the difference tells, the order is that of the reals themselves, which
nothing computes. -/
def ltExact (a b : Num) : Bool :=
  match asRat a, asRat b with
  | some p, some q => decide (p < q)
  | _, _ => (settle readNegative (subExact a b) precisions).getD (Config.orderOf a b)

/-- The floor an enclosure decides: both ends have it. -/
def readFloor (h : Nat) (x : Ival) : Option Int :=
  if divDown x.lo (unitsPerOne h) = divDown x.hi (unitsPerOne h) then some (divDown x.lo (unitsPerOne h)) else none

/-- `floor(a)` of a real (R7): where no enclosure tells it, that of the real itself. -/
def floorExact (a : Num) : Int :=
  match asRat a with
  | some q => q.floor
  | none => (settle readFloor a precisions).getD (Config.floorOf a)

/-- The rational that `n` units are. -/
def ratOfUnits (h : Nat) (n : Int) : Rat := mkRat n (2 ^ (2 * h))

/-- The pattern an enclosure decides: both ends have it. -/
def readEnc (h : Nat) (x : Ival) : Option Word :=
  if encRat (ratOfUnits h x.lo) = encRat (ratOfUnits h x.hi) then some (encRat (ratOfUnits h x.lo)) else none

/-- `enc32(a)` of a real (R11): where no enclosure tells it, that of the real itself. -/
def enc32Exact (a : Num) : Word :=
  match asRat a with
  | some q => encRat q
  | none => (settle readEnc a precisions).getD (Config.patternOf a)

/-! ### The operations the rules write, under either ARITH -/

/-- The binary32 pattern of a value: the pattern itself under f32; `enc32` of the real under exact (R12). -/
def toBits (ar : Arith) (a : Num) : Word :=
  match ar, a with
  | .f32, .bits w => w
  | _, a => enc32Exact a

/-- A rational constant or an integer as a `Num`: itself under exact, its nearest binary32 value under f32 (log 9). -/
def ofRat (ar : Arith) (q : Rat) : Num :=
  match ar with
  | .exact => ofRatExact q
  | .f32 => .bits (encRat q)

/-- An integer as a `Num` (log 9). -/
def ofInt (ar : Arith) (k : Int) : Num := ofRat ar k

/-- pi: the real under exact, its nearest binary32 value 0x40490FDB under f32 (log 9). -/
def pi (ar : Arith) : Num :=
  match ar with
  | .exact => .piTimes 1
  | .f32 => .bits 0x40490FDB

/-- `a + b`. -/
def add (ar : Arith) (a b : Num) : Num :=
  match ar with
  | .exact => addExact a b
  | .f32 => .bits (add32 (toBits ar a) (toBits ar b))

/-- `a - b`. -/
def sub (ar : Arith) (a b : Num) : Num :=
  match ar with
  | .exact => subExact a b
  | .f32 => .bits (sub32 (toBits ar a) (toBits ar b))

/-- `a * b`. -/
def mul (ar : Arith) (a b : Num) : Num :=
  match ar with
  | .exact => mulExact a b
  | .f32 => .bits (mul32 (toBits ar a) (toBits ar b))

/-- `a / b`. -/
def div (ar : Arith) (a b : Num) : Num :=
  match ar with
  | .exact => divExact a b
  | .f32 => .bits (div32 (toBits ar a) (toBits ar b))

/-- `COS(a)`. -/
def cos (ar : Arith) (a : Num) : Num :=
  match ar with
  | .exact => cosExact a
  | .f32 => .bits (Config.lib.cos (toBits ar a))

/-- `LOG2(a)`. -/
def log2 (ar : Arith) (a : Num) : Num :=
  match ar with
  | .exact => log2Exact a
  | .f32 => .bits (Config.lib.log2 (toBits ar a))

/-- `EXP2(a)`. -/
def exp2 (ar : Arith) (a : Num) : Num :=
  match ar with
  | .exact => exp2Exact a
  | .f32 => .bits (Config.lib.exp2 (toBits ar a))

/-- `POW(a, b)`. -/
def pow (ar : Arith) (a b : Num) : Num :=
  match ar with
  | .exact => powExact a b
  | .f32 => .bits (Config.lib.pow (toBits ar a) (toBits ar b))

/-- `a < b`. Under f32 it is false when either is a NaN. -/
def lt (ar : Arith) (a b : Num) : Bool :=
  match ar with
  | .exact => ltExact a b
  | .f32 => lt32 (toBits ar a) (toBits ar b)

/-- `a <= b`. Under f32 it is false when either is a NaN. -/
def le (ar : Arith) (a b : Num) : Bool :=
  match ar with
  | .exact => !ltExact b a
  | .f32 => le32 (toBits ar a) (toBits ar b)

/-- `a < b` as a discrete decision: under f32 free where the operands lie within EPS of each other (R10, I3, log 7). -/
def decideLt (ar : Arith) (site : Site) (a b : Num) : Bool :=
  match ar with
  | .exact => ltExact a b
  | .f32 =>
    if near32 (toBits ar a) (toBits ar b) then Config.withinEpsLt site (toBits ar a) (toBits ar b)
    else lt32 (toBits ar a) (toBits ar b)

/-- `a <= b` as a discrete decision: under f32 free where the operands lie within EPS of each other (R10, I3, log 7). -/
def decideLe (ar : Arith) (site : Site) (a b : Num) : Bool :=
  match ar with
  | .exact => !ltExact b a
  | .f32 =>
    if near32 (toBits ar a) (toBits ar b) then !Config.withinEpsLt site (toBits ar b) (toBits ar a)
    else le32 (toBits ar a) (toBits ar b)

/-- `floor(a)` (R7), as a discrete decision, for a count or an index (R10, I3, log 7). Of an infinity or a NaN, under f32,
it is free (log 11). -/
def decideFloorInt (ar : Arith) (site : Site) (a : Num) : Int :=
  match ar with
  | .exact => floorExact a
  | .f32 => if isFinite32 (toBits ar a) then floorWithin32 site (toBits ar a) else Config.floorOfNonFinite (toBits ar a)

/-- `floor(a)` (R7), as a discrete decision, as a value of the domain (R9, R10, I3, log 7). -/
def decideFloor (ar : Arith) (site : Site) (a : Num) : Num :=
  match ar with
  | .exact => ofRatExact (floorExact a)
  | .f32 =>
    if isFinite32 (toBits ar a) && floorWithin32 site (toBits ar a) != (dec32 (toBits ar a)).floor then
      .bits (encRat (floorWithin32 site (toBits ar a)))
    else .bits (floor32 (toBits ar a))

/-- `|a|`. -/
def abs (ar : Arith) (a : Num) : Num :=
  match ar with
  | .exact => if ltExact a zero then scale (-1) a else a
  | .f32 => .bits (toBits ar a &&& 0x7FFFFFFF#32)

/-- The value is a finite number (R702). A real always is. -/
def isFinite (ar : Arith) (a : Num) : Bool :=
  match ar with
  | .exact => true
  | .f32 => isFinite32 (toBits ar a)

/-- The sum of a list, from its first member on. Under exact its terms are not gathered. -/
def total (ar : Arith) (l : List Num) : Num :=
  match ar with
  | .exact => l.foldl sumExact zero
  | .f32 => l.foldl (add .f32) zero

end Num

/-- Floor-mod of integers (R8): for `n > 0` the result is in [0, n), also for a negative `a`. -/
def fmod (a : Int) (n : Nat) : Nat := (a % (n : Int)).toNat

/-- `wrapTo(x, p) = x - p * floor(x / p)` (R8). -/
def wrapTo (ar : Arith) (site : Site) (x p : Num) : Num :=
  Num.sub ar x (Num.mul ar p (Num.decideFloor ar site (Num.div ar x p)))

end Sys2Proof
end

