-- ==== Sys2Proof/Machine/State.lean ====
section
/-! DEFINITION. The state of the block (spec/10_state.md), as plain data, its power-on reset value (spec/10_state.md R18,
spec/70_reset_and_hazards.md R1400), and the reasons a step can stop. -/

namespace Sys2Proof.Machine

/-- One internal array (R20): (index, value) pairs, indices strictly rising, no value equal to `Num.bits 0`, which is what
a cell that is not listed reads as (log 13). -/
abbrev Store := List (Nat × Num)

/-- The internal memory: the seven arrays of R21 to R27. -/
@[ext]
structure Memory where
  /-- IN, the input ring buffer (R21). -/
  input : Store
  /-- OB, the output overlap-add ring buffer (R22). -/
  ob : Store
  /-- NB, the normalisation ring buffer (R23). -/
  nb : Store
  /-- FRAG, the grain buffer (R24). -/
  frag : Store
  /-- HANN, the synthesis window (R25). -/
  hann : Store
  /-- CBW, the analysis window (R26). -/
  cbw : Store
  /-- ACWINV, the inverse autocorrelation of the analysis window (R27). -/
  acwinv : Store
deriving DecidableEq, Repr

/-- The canonical form of an array whose indices are all at least `lo`. -/
def Store.wfFrom (lo : Nat) : Store → Bool
  | [] => true
  | (k, v) :: rest => decide (lo ≤ k) && decide (v ≠ .bits 0) && Store.wfFrom (k + 1) rest

/-- The canonical form of an array: indices strictly rising, no entry equal to what an unlisted cell reads as. -/
def Store.wf (m : Store) : Bool := Store.wfFrom 0 m

/-- Every array of the memory is in canonical form. -/
def Memory.wf (m : Memory) : Bool :=
  m.input.wf && m.ob.wf && m.nb.wf && m.frag.wf && m.hann.wf && m.cbw.wf && m.acwinv.wf

/-- The state of the block. `par`, `port` and `readData` are the model's own fields; every other field is the spec's. -/
@[ext]
structure State where
  /-- The open parameters (R4). No transaction changes them (log 3). -/
  par : Params
  /-- The transactions the host has delivered and the block has not taken, oldest first (R307, log 1). -/
  port : List Txn
  /-- What the last transaction returned to the host: a read's word, nothing for a write (R400, log 2). -/
  readData : Option Word
  /-- CTRL.NORM_EN (R19). -/
  normEn : Bool
  /-- STATUS.READY: the mode, UNINIT or READY (R14). -/
  ready : Bool
  /-- WAS_VOICED, which STATUS.VOICED shows (R17, R53, log 15). -/
  wasVoiced : Bool
  /-- ERR: CFG, NRDY, VAL, ADDR in bits 0 to 3 (R30). -/
  err : BitVec 4
  /-- FS (R38). -/
  fs : Word
  /-- FS_ACT (R38). -/
  fsAct : Word
  /-- NSIZE, the buffer length N (R2, R39). -/
  nsize : Word
  /-- HOPSIZE, the hop size H (R2, R39). -/
  hopsize : Word
  /-- NMIN (R5, R39). -/
  nmin : Word
  /-- NMAX (R5, R39). -/
  nmax : Word
  /-- MIX (R42). -/
  mix : Num
  /-- SHIFT (R43). -/
  shift : Num
  /-- TUNE (R44). -/
  tune : Num
  /-- AMOUNT (R45). -/
  amount : Num
  /-- GLIDE (R46). -/
  glide : Num
  /-- PERSIST (R47). -/
  persist : Num
  /-- ROOT (R48). -/
  root : BitVec 4
  /-- SCALE (R49). -/
  scale : BitVec 4
  /-- MASK (R40). -/
  mask : BitVec 12
  /-- OUT_L (R56). -/
  outL : Num
  /-- OUT_R (R56). -/
  outR : Num
  /-- EST_LAG (R51). -/
  estLag : Word
  /-- EST_PERIOD (R51). -/
  estPeriod : Num
  /-- EST_PITCH (R51). -/
  estPitch : Num
  /-- EST_CONF (R51). -/
  estConf : Num
  /-- QTARGET, q (R52). -/
  qtarget : BitVec 4
  /-- SMOOTH, s (R52). -/
  smooth : Num
  /-- PERSIST_AMT, p (R52). -/
  persistAmt : Num
  /-- CORRECTION (R54). -/
  correction : Num
  /-- RATIO (R54). -/
  ratio : Num
  /-- PERIOD_NOM (R55). -/
  periodNom : Num
  /-- PHASE_INC (R55). -/
  phaseInc : Num
  /-- PHASE_IN (R55). -/
  phaseIn : Num
  /-- PHASE_OUT (R55). -/
  phaseOut : Num
  /-- FRAG_SIZE (R55). -/
  fragSize : Word
  /-- IN_WR, the input write cursor w (R50). -/
  inWr : Nat
  /-- OUT_RD, the output read cursor r (R50). -/
  outRd : Nat
  /-- SAMPLE_COUNT (R31). -/
  sampleCount : Word
  /-- HOP_COUNT (R31). -/
  hopCount : Word
  /-- The internal arrays (R20). -/
  mem : Memory
  /-- The MODEL's own: how many PUSH transactions were accepted since power-on. It tells the discrete decisions of one PUSH
  from those of another (log 24). -/
  epoch : Nat
deriving DecidableEq, Repr

/-- The reasons the machine stops with a fault: none. No transaction of the block is fatal and no trap exists (R1304,
R1306; part 1 of spec/93_implementation_defined.md). A transaction that cannot be performed is refused with an ERR bit,
and that is a next state (R1301). Safe: nothing stops. -/
inductive Fault where
deriving DecidableEq, Repr

/-- The reasons the model has no meaning for a transaction. -/
inductive Refusal where
  /-- Raised by an arm of `exec` that has no meaning yet. No arm raises it. Safe: the machine stops where the hardware
  goes on. -/
  | notModelled (mnemonic : String)
deriving DecidableEq, Repr

/-- The internal memory with nothing listed: every cell reads +0.0 (R1400, log 13). -/
def Memory.empty : Memory := ⟨[], [], [], [], [], [], []⟩

/-- The parameters of this machine: the reference semantics and the spec's own ranking (R9, R706, D15), and a scale
table of which nothing is known (R804, log 3). -/
def Params.chosen : Params := ⟨.exact, .raw, Config.scaleRom⟩

/-- Power-on reset (R18, R1400): UNINIT, every integer register 0, every `Num` register +0.0, MASK = SCALE_ROM[0]. -/
def State.reset : State where
  par := Params.chosen
  port := []
  readData := none
  normEn := false
  ready := false
  wasVoiced := false
  err := 0
  fs := 0
  fsAct := 0
  nsize := 0
  hopsize := 0
  nmin := 0
  nmax := 0
  mix := .bits 0
  shift := .bits 0
  tune := .bits 0
  amount := .bits 0
  glide := .bits 0
  persist := .bits 0
  root := 0
  scale := 0
  mask := Params.chosen.scaleRom[0]
  outL := .bits 0
  outR := .bits 0
  estLag := 0
  estPeriod := .bits 0
  estPitch := .bits 0
  estConf := .bits 0
  qtarget := 0
  smooth := .bits 0
  persistAmt := .bits 0
  correction := .bits 0
  ratio := .bits 0
  periodNom := .bits 0
  phaseInc := .bits 0
  phaseIn := .bits 0
  phaseOut := .bits 0
  fragSize := 0
  inWr := 0
  outRd := 0
  sampleCount := 0
  hopCount := 0
  mem := Memory.empty
  epoch := 0

end Sys2Proof.Machine
end

