-- ==== Sys2Proof/Machine/Ops.lean ====
section
/-! DEFINITION. The shared operations: raising an error (spec/60_exceptions.md R1301, R1302), the internal arrays
(spec/10_state.md R20 to R27) and the ring buffers over them (spec/40_ring_buffers.md R500 to R506). The block has no
trap entry and no trap return (R1306), so raising an error is its whole exception mechanism. -/

namespace Sys2Proof.Machine

/-- The four error flags of ERR (R30, R1302). -/
inductive ErrBit where
  /-- Bit 0: INIT with FS below 1400. -/
  | cfg
  /-- Bit 1: PUSH in UNINIT. -/
  | nrdy
  /-- Bit 2: a bad data value. -/
  | val
  /-- Bit 3: a write to a read-only or unmapped address, or a read of an unmapped address. -/
  | addr
deriving DecidableEq, Repr

/-- The flag's place in ERR (R1302). -/
def errMask : ErrBit → BitVec 4
  | .cfg => 0b0001
  | .nrdy => 0b0010
  | .val => 0b0100
  | .addr => 0b1000

/-- `raise Error(BIT)` (R11, R1301): the flag is set, or stays set, and nothing else changes. -/
def raiseError (b : ErrBit) (s : State) : State := { s with err := s.err ||| errMask b }

/-! ### The internal arrays -/

/-- The value of cell `i`: what is listed for it, else +0.0 (log 13). -/
def Store.read : Store → Nat → Num
  | [], _ => Num.zero
  | (k, v) :: rest, i => if k = i then v else Store.read rest i

/-- Cell `i` takes the value `v`; the canonical form is kept. -/
def Store.write : Store → Nat → Num → Store
  | [], i, v => if v = Num.zero then [] else [(i, v)]
  | (k, w) :: rest, i, v =>
    if k < i then (k, w) :: Store.write rest i v
    else if k = i then (if v = Num.zero then rest else (i, v) :: rest)
    else (if v = Num.zero then (k, w) :: rest else (i, v) :: (k, w) :: rest)

/-- The array whose cells from `i` on hold the values of the list. -/
def Store.fromList : Nat → List Num → Store
  | _, [] => []
  | i, v :: rest => if v = Num.zero then Store.fromList (i + 1) rest else (i, v) :: Store.fromList (i + 1) rest

/-- The array whose cells 0 to n - 1 hold `f 0` to `f (n - 1)`. -/
def Store.ofFn (n : Nat) (f : Nat → Num) : Store := Store.fromList 0 ((List.range n).map f)

/-- `RingRead(B, k) = B[fmod(k, N)]` (R11, R500). -/
def ringRead (b : Store) (n : Nat) (k : Int) : Num := b.read (fmod k n)

/-- `RingWrite(B, k, v)`: `B[fmod(k, N)] <- v` (R11, R500). -/
def ringWrite (b : Store) (n : Nat) (k : Int) (v : Num) : Store := b.write (fmod k n) v

/-- N, the buffer length in use (R2, R39). -/
def State.bufLen (s : State) : Nat := s.nsize.toNat

/-- H, the hop size in use (R2, R39). -/
def State.hopLen (s : State) : Nat := s.hopsize.toNat

/-- Where this state makes the discrete decision `d` (log 24). -/
def State.site (s : State) (d : Decision) : Site := ⟨s.epoch, d⟩

/-- `RingPush(x)` (R501). -/
def ringPush (x : Num) (s : State) : State :=
  { s with
    mem := { s.mem with input := s.mem.input.write s.inWr x }
    inWr := fmod (s.inWr + 1) s.bufLen }

/-- `Snapshot(k)`, the newest-first analysis read (R502). -/
def snapshot (s : State) (k : Nat) : Num := ringRead s.mem.input s.bufLen ((s.inWr : Int) - 1 - k)

/-- `GrainRead(j)`, the centred grain read (R503). -/
def grainRead (s : State) (j : Nat) : Num :=
  ringRead s.mem.input s.bufLen ((s.inWr : Int) - (s.bufLen / 2 : Nat) + j)

/-- `DryTap`, the oldest sample (R504). -/
def dryTap (s : State) : Num := s.mem.input.read s.inWr

/-- The cell `p` that an overlap-add at offset `t` adds to: `fmod(r + N/2 + t, N)` (R505). -/
def placeCell (s : State) (t : Int) : Nat := fmod ((s.outRd : Int) + (s.bufLen / 2 : Nat) + t) s.bufLen

/-- `RingAccumulate(t, v, g)`, the overlap-add write (R505). -/
def ringAccumulate (t : Int) (v g : Num) (s : State) : State :=
  { s with
    mem := { s.mem with
      ob := s.mem.ob.write (placeCell s t) (Num.add s.par.arith (s.mem.ob.read (placeCell s t)) v)
      nb := s.mem.nb.write (placeCell s t) (Num.add s.par.arith (s.mem.nb.read (placeCell s t)) g) } }

/-- What `RingReadBack()` leaves (R506). -/
def ringClear (s : State) : State :=
  { s with
    mem := { s.mem with
      ob := s.mem.ob.write s.outRd Num.zero
      nb := s.mem.nb.write s.outRd Num.zero }
    outRd := fmod (s.outRd + 1) s.bufLen }

/-- `RingReadBack()`: the pair (acc, nrm) it returns, and the state it leaves (R506). -/
def ringReadBack (s : State) : (Num × Num) × State :=
  ((s.mem.ob.read s.outRd, s.mem.nb.read s.outRd), ringClear s)

end Sys2Proof.Machine
end

