-- ==== Sys2Proof/Machine/Operands.lean ====
section
/-! DEFINITION. How the data field D of a write is read, by the register it addresses (spec/30_encoding.md R401). -/

namespace Sys2Proof.Machine

/-- The f32 operand: `dec32(D)` of a finite pattern; a non-finite one is refused (R401, R1404). -/
def operandF32 (d : Word) : Option Num := if isFinite32 d then some (.bits d) else none

/-- An enumerated operand with largest legal value `top`: all 32 bits take part in the test (R401, R48, R49). -/
def operandEnum (top : Nat) (d : Word) : Option (BitVec 4) :=
  if d.toNat ≤ top then some (d.extractLsb' 0 4) else none

/-- The CTRL operand: D[0]; D[31:1] are ignored (R401, R1202). -/
def operandNormEn (d : Word) : Bool := d.getLsbD 0

/-- The ERR operand: the clear bits D[3:0]; D[31:4] are ignored (R401, R1203). -/
def operandClear (d : Word) : BitVec 4 := d.extractLsb' 0 4

/-- A write of an f32 register: VAL and no change for a non-finite word, else `store` of the operand (R1205). -/
def writeF32 (d : Word) (store : Num → State → State) (s : State) : State :=
  match operandF32 d with
  | some x => store x s
  | none => raiseError .val s

/-- A write of an enumerated register: VAL and no change for an illegal value, else `store` of the operand (R1211). -/
def writeEnum (top : Nat) (d : Word) (store : BitVec 4 → State → State) (s : State) : State :=
  match operandEnum top d with
  | some v => store v s
  | none => raiseError .val s

end Sys2Proof.Machine
end

