-- ==== Sys2Proof/Machine/Flags.lean ====
section
/-! DEFINITION. The bit-field registers STATUS, ERR, CTRL and MASK (spec/10_state.md R17, R19, R29, R30, R40;
spec/43_quantizer.md R803). -/

namespace Sys2Proof.Machine

/-- STATUS: bit 0 READY, bit 1 VOICED, bits 31:2 zero (R29). -/
def statusWord (s : State) : Word := (BitVec.ofBool s.wasVoiced ++ BitVec.ofBool s.ready).setWidth 32

/-- CTRL: bit 0 NORM_EN, bits 31:1 zero (R19). -/
def ctrlWord (s : State) : Word := (BitVec.ofBool s.normEn).setWidth 32

/-- ERR: bits 3:0, bits 31:4 zero (R30). -/
def errWord (s : State) : Word := s.err.setWidth 32

/-- A write of ERR: every flag whose data bit is 1 is cleared (R30, R1203). -/
def clearErr (flags clear : BitVec 4) : BitVec 4 := flags &&& ~~~clear

/-- The row of SCALE_ROM that SCALE selects (R803, R804). Only the values 0 to 12 are ever stored (R49). -/
def scaleRow (p : Params) (scale : BitVec 4) : BitVec 12 := p.scaleRom.toList.getD scale.toNat 0

/-- MASK from a row and a root: bit c is row bit `fmod(c - ROOT, 12)` (R803). -/
def rotatedMask (row : BitVec 12) (root : BitVec 4) : BitVec 12 :=
  BitVec.ofFnLE fun c : Fin 12 => row.getLsbD (fmod ((c.val : Int) - (root.toNat : Int)) 12)

/-- MASK recomputation (R803). -/
def recomputeMask (s : State) : State := { s with mask := rotatedMask (scaleRow s.par s.scale) s.root }

end Sys2Proof.Machine
end

