-- ==== Sys2Proof/Machine/Registers.lean ====
section
/-! DEFINITION. The register map (spec/10_state.md R18) and what a read of a register returns
(spec/47_host_commands.md R1214). -/

namespace Sys2Proof.Machine

/-- The registers of R18, by name. -/
inductive Reg where
  | ctrl | cmd | status | err | fs | nsize | hopsize | nmin | nmax
  | mix | shift | tune | amount | glide | persist | root | scale | mask
  | sampleIn | outL | outR
  | estLag | estPeriod | estPitch | estConf | qtarget | smooth | persistAmt | correction | ratio
  | periodNom | phaseInc | phaseIn | phaseOut | fragSize | inWr | outRd | sampleCount | hopCount | fsAct
deriving DecidableEq, Repr

/-- The access types of R18. -/
inductive Access where
  | rw
  | ro
  | wo
  | rw1c
deriving DecidableEq, Repr

/-- One line of the register map: address, register, access (R18). -/
structure RegEntry where
  addr : Addr
  reg : Reg
  access : Access
deriving DecidableEq, Repr

/-- The register map of R18. -/
def regMap : List RegEntry :=
  [ ⟨0x00, .ctrl, .rw⟩, ⟨0x01, .cmd, .wo⟩, ⟨0x02, .status, .ro⟩, ⟨0x03, .err, .rw1c⟩, ⟨0x04, .fs, .rw⟩,
    ⟨0x05, .nsize, .ro⟩, ⟨0x06, .hopsize, .ro⟩, ⟨0x07, .nmin, .ro⟩, ⟨0x08, .nmax, .ro⟩, ⟨0x10, .mix, .rw⟩,
    ⟨0x11, .shift, .rw⟩, ⟨0x12, .tune, .rw⟩, ⟨0x13, .amount, .rw⟩, ⟨0x14, .glide, .rw⟩, ⟨0x15, .persist, .rw⟩,
    ⟨0x16, .root, .rw⟩, ⟨0x17, .scale, .rw⟩, ⟨0x18, .mask, .ro⟩, ⟨0x20, .sampleIn, .wo⟩, ⟨0x21, .outL, .ro⟩,
    ⟨0x22, .outR, .ro⟩, ⟨0x28, .estLag, .ro⟩, ⟨0x29, .estPeriod, .ro⟩, ⟨0x2A, .estPitch, .ro⟩,
    ⟨0x2B, .estConf, .ro⟩, ⟨0x2C, .qtarget, .ro⟩, ⟨0x2D, .smooth, .ro⟩, ⟨0x2E, .persistAmt, .ro⟩,
    ⟨0x2F, .correction, .ro⟩, ⟨0x30, .ratio, .ro⟩, ⟨0x31, .periodNom, .ro⟩, ⟨0x32, .phaseInc, .ro⟩,
    ⟨0x33, .phaseIn, .ro⟩, ⟨0x34, .phaseOut, .ro⟩, ⟨0x35, .fragSize, .ro⟩, ⟨0x36, .inWr, .ro⟩,
    ⟨0x37, .outRd, .ro⟩, ⟨0x38, .sampleCount, .ro⟩, ⟨0x39, .hopCount, .ro⟩, ⟨0x3A, .fsAct, .ro⟩ ]

/-- The register at an address; none where the address is unmapped (R18). -/
def regAt (a : Addr) : Option Reg := (regMap.find? (·.addr == a)).map (·.reg)

/-- The access type of an address; none where it is unmapped (R18). -/
def accessAt (a : Addr) : Option Access := (regMap.find? (·.addr == a)).map (·.access)

/-- The word a `Num` register reads as: its binary32 pattern (R12, R1214). -/
def numWord (s : State) (x : Num) : Word := Num.toBits s.par.arith x

/-- The word a mapped register reads as (R1214): integers as they are, `Num` registers as their binary32 pattern,
bit fields with their reserved bits 0, and 0 for the write-only registers. -/
def regWord (s : State) : Reg → Word
  | .ctrl => ctrlWord s
  | .cmd => 0
  | .status => statusWord s
  | .err => errWord s
  | .fs => s.fs
  | .nsize => s.nsize
  | .hopsize => s.hopsize
  | .nmin => s.nmin
  | .nmax => s.nmax
  | .mix => numWord s s.mix
  | .shift => numWord s s.shift
  | .tune => numWord s s.tune
  | .amount => numWord s s.amount
  | .glide => numWord s s.glide
  | .persist => numWord s s.persist
  | .root => s.root.setWidth 32
  | .scale => s.scale.setWidth 32
  | .mask => s.mask.setWidth 32
  | .sampleIn => 0
  | .outL => numWord s s.outL
  | .outR => numWord s s.outR
  | .estLag => s.estLag
  | .estPeriod => numWord s s.estPeriod
  | .estPitch => numWord s s.estPitch
  | .estConf => numWord s s.estConf
  | .qtarget => s.qtarget.setWidth 32
  | .smooth => numWord s s.smooth
  | .persistAmt => numWord s s.persistAmt
  | .correction => numWord s s.correction
  | .ratio => numWord s s.ratio
  | .periodNom => numWord s s.periodNom
  | .phaseInc => numWord s s.phaseInc
  | .phaseIn => numWord s s.phaseIn
  | .phaseOut => numWord s s.phaseOut
  | .fragSize => s.fragSize
  | .inWr => BitVec.ofNat 32 s.inWr
  | .outRd => BitVec.ofNat 32 s.outRd
  | .sampleCount => s.sampleCount
  | .hopCount => s.hopCount
  | .fsAct => s.fsAct

end Sys2Proof.Machine
end

