-- ==== Sys2Proof/Machine/Windows.lean ====
section
/-! DEFINITION. The window arrays that INIT computes (spec/41_windows.md R600 to R604). -/

namespace Sys2Proof.Machine

/-- `0.5 - 0.5 * COS(2 * pi * i / m)`, the periodic Hann window of length `m` at `i` (R600, R601). -/
def hannOf (ar : Arith) (i : Int) (m : Nat) : Num :=
  let angle := Num.div ar (Num.mul ar (Num.mul ar (Num.ofInt ar 2) (Num.pi ar)) (Num.ofInt ar i)) (Num.ofInt ar m)
  Num.sub ar (Num.ofRat ar (1 / 2)) (Num.mul ar (Num.ofRat ar (1 / 2)) (Num.cos ar angle))

/-- `HANN[i]` (R600). -/
def hannAt (ar : Arith) (n i : Nat) : Num := hannOf ar i n

/-- `CBW[i]`: a periodic Hann window of length N/2 over the middle half, 0 outside it (R601). -/
def cbwAt (ar : Arith) (n i : Nat) : Num :=
  if n / 4 ≤ i ∧ i < 3 * n / 4 then hannOf ar ((i : Int) - (n / 4 : Nat)) (n / 2) else Num.zero

/-- The sum over k of `y[k] * y[fmod(k + m, N)]`, `N` the length of the list (R602, R700). -/
def circularSum (ar : Arith) (y : List Num) (m : Nat) : Num :=
  Num.total ar (List.zipWith (Num.mul ar) y (rotate y m))

/-- AW of R602, for m in [0, N). Under f32 a transform computes it, up to a positive factor (log 14). -/
def windowAutocorr (ar : Arith) (cbw : List Num) : List Num :=
  match ar with
  | .exact => (List.range cbw.length).map (circularSum .exact cbw)
  | .f32 => (Config.lib.windowAutocorr (cbw.map (Num.toBits .f32))).map .bits

/-- `ACWINV[m]` from AW (R602, R603). The guard is one decision for each N and m, whenever INIT makes it (R604). Where it is
free under f32 it may invert any rounded A[m] within reach, one that is 0 or negative too: DESIGN CHOICE (log 7). -/
def acwinvAt (ar : Arith) (aw : List Num) (m : Nat) : Num :=
  let a := Num.div ar (aw.getD m Num.zero) (aw.getD 0 Num.zero)
  if m = 0 then Num.one
  else if Num.decideLe ar ⟨0, .window aw.length m⟩ (Num.ofRat ar (1 / 10 ^ 6)) a then Num.div ar Num.one a
  else Num.zero

/-- The cells 0 to N - 1 of CBW (R601). -/
def cbwList (ar : Arith) (n : Nat) : List Num := (List.range n).map (cbwAt ar n)

/-- The array HANN (R600). -/
def hannStore (ar : Arith) (n : Nat) : Store := Store.ofFn n (hannAt ar n)

/-- The array CBW (R601). -/
def cbwStore (ar : Arith) (n : Nat) : Store := Store.fromList 0 (cbwList ar n)

/-- The array ACWINV (R603). -/
def acwinvStore (ar : Arith) (n : Nat) : Store :=
  let aw := windowAutocorr ar (cbwList ar n)
  Store.ofFn n (acwinvAt ar aw)

end Sys2Proof.Machine
end

