-- ==== Sys2Proof/Machine/HostCommands.lean ====
section
/-! DEFINITION. The host commands and register transactions (spec/47_host_commands.md R1200 to R1214). -/

namespace Sys2Proof.Machine

/-- N for a sample rate (R2). -/
def bufLenFor (fs : Word) : Nat := if 88200 ≤ fs.toNat then 4096 else 2048

/-- nmin for a sample rate (R5). -/
def nminFor (fs : Word) : Nat := fs.toNat / 700

/-- nmax for a sample rate (R5). -/
def nmaxFor (fs : Word) : Nat := min (fs.toNat / 70) (bufLenFor fs / 2 + 1)

/-- The internal memory a successful INIT leaves: the windows, and zeros in the other arrays (R1200). -/
def initMemory (ar : Arith) (n : Nat) : Memory :=
  { Memory.empty with hann := hannStore ar n, cbw := cbwStore ar n, acwinv := acwinvStore ar n }

/-- A successful INIT (R1200). CTRL, ERR, FS, the parameter registers and MASK are kept. -/
def initEngine (s : State) : State :=
  { s with
    fsAct := s.fs
    nsize := BitVec.ofNat 32 (bufLenFor s.fs)
    hopsize := BitVec.ofNat 32 (bufLenFor s.fs / 4)
    nmin := BitVec.ofNat 32 (nminFor s.fs)
    nmax := BitVec.ofNat 32 (nmaxFor s.fs)
    mem := initMemory s.par.arith (bufLenFor s.fs)
    inWr := 0
    outRd := 0
    estLag := 0
    estPeriod := Num.zero
    estPitch := Num.zero
    estConf := Num.zero
    qtarget := 0
    smooth := Num.zero
    persistAmt := Num.zero
    wasVoiced := false
    correction := Num.zero
    ratio := Num.one
    periodNom := Num.div s.par.arith Num.one (Num.ofInt s.par.arith 700)
    phaseInc := Num.div s.par.arith (Num.ofInt s.par.arith 700) (Num.ofInt s.par.arith s.fs.toNat)
    phaseIn := Num.zero
    phaseOut := Num.zero
    fragSize := 0
    outL := Num.zero
    outR := Num.zero
    sampleCount := 0
    hopCount := 0
    ready := true }

/-- Row 1, INIT: CFG and no change for FS below 1400 (R1200). -/
def execInit (s : State) : Host.Outcome State Fault Refusal :=
  .next (if s.fs.toNat < 1400 then raiseError .cfg s else initEngine s)

/-- Row 2, CMD_RSVD (R1201). -/
def execCmdRsvd (_d : Word) (s : State) : Host.Outcome State Fault Refusal := .next (raiseError .val s)

/-- Row 3, WR_CTRL (R1202). -/
def execWrCtrl (d : Word) (s : State) : Host.Outcome State Fault Refusal :=
  .next { s with normEn := operandNormEn d }

/-- Row 4, WR_ERR (R1203). -/
def execWrErr (d : Word) (s : State) : Host.Outcome State Fault Refusal :=
  .next { s with err := clearErr s.err (operandClear d) }

/-- Row 5, WR_FS (R1204). -/
def execWrFs (d : Word) (s : State) : Host.Outcome State Fault Refusal := .next { s with fs := d }

/-- Row 6, WR_MIX (R1205). -/
def execWrMix (d : Word) (s : State) : Host.Outcome State Fault Refusal :=
  .next (writeF32 d (fun x s => { s with mix := x }) s)

/-- Row 7, WR_SHIFT (R1206). -/
def execWrShift (d : Word) (s : State) : Host.Outcome State Fault Refusal :=
  .next (writeF32 d (fun x s => { s with shift := x }) s)

/-- Row 8, WR_TUNE (R1207). -/
def execWrTune (d : Word) (s : State) : Host.Outcome State Fault Refusal :=
  .next (writeF32 d (fun x s => { s with tune := x }) s)

/-- Row 9, WR_AMOUNT (R1208). -/
def execWrAmount (d : Word) (s : State) : Host.Outcome State Fault Refusal :=
  .next (writeF32 d (fun x s => { s with amount := x }) s)

/-- Row 10, WR_GLIDE (R1209). -/
def execWrGlide (d : Word) (s : State) : Host.Outcome State Fault Refusal :=
  .next (writeF32 d (fun x s => { s with glide := x }) s)

/-- Row 11, WR_PERSIST (R1210). -/
def execWrPersist (d : Word) (s : State) : Host.Outcome State Fault Refusal :=
  .next (writeF32 d (fun x s => { s with persist := x }) s)

/-- Row 12, WR_ROOT: VAL for D above 11, else ROOT and MASK (R1211). -/
def execWrRoot (d : Word) (s : State) : Host.Outcome State Fault Refusal :=
  .next (writeEnum 11 d (fun v s => recomputeMask { s with root := v }) s)

/-- Row 13, WR_SCALE: VAL for D above 12, else SCALE and MASK (R1212). -/
def execWrScale (d : Word) (s : State) : Host.Outcome State Fault Refusal :=
  .next (writeEnum 12 d (fun v s => recomputeMask { s with scale := v }) s)

/-- Row 15, WR_BAD (R1213). -/
def execWrBad (_a : Addr) (_d : Word) (s : State) : Host.Outcome State Fault Refusal := .next (raiseError .addr s)

/-- The word goes back to the host (R400, log 2). -/
def respond (w : Word) (s : State) : State := { s with readData := some w }

/-- Row 16, RD: the register's word, or 0 and ADDR for an unmapped address; D is ignored (R1214, R1300). -/
def execRd (a : Addr) (_d : Word) (s : State) : Host.Outcome State Fault Refusal :=
  match regAt a with
  | some r => .next (respond (regWord s r) s)
  | none => .next (respond 0 (raiseError .addr s))

end Sys2Proof.Machine
end

