-- ==== Sys2Proof/Machine/Shifter.lean ====
section
/-! DEFINITION. The phase-vocoder shifter, the read-back and the mix (spec/45_shifter.md R1000 to R1011). -/

namespace Sys2Proof.Machine

/-- Grain duration count (R1000) and phase advance (R1001). -/
def advancePhases (s : State) : State :=
  { s with
    fragSize := s.fragSize + 1
    phaseIn := Num.add s.par.arith s.phaseIn s.phaseInc
    phaseOut := Num.add s.par.arith s.phaseOut (Num.mul s.par.arith s.phaseInc s.ratio) }

/-- The grain extraction: FRAG[j] <- GrainRead(j) for j in [0, N) (R1002, R1003). -/
def extractGrain (s : State) : State :=
  { s with mem := { s.mem with frag := Store.ofFn s.bufLen (grainRead s) } }

/-- Input wrap: one test and one decrement (R1002). -/
def inputWrap (s : State) : State :=
  if Num.le s.par.arith Num.one s.phaseIn then
    extractGrain { s with phaseIn := Num.sub s.par.arith s.phaseIn Num.one }
  else s

/-- G, the grain duration in samples (R1005). -/
def grainDuration (s : State) : Nat := min (2 * s.fragSize.toNat) s.bufLen

/-- S, the number of grain samples placed (R1005). -/
def grainSamples (s : State) : Int :=
  Num.decideFloorInt s.par.arith (s.site .grainLength)
    (Num.div s.par.arith (Num.ofInt s.par.arith (grainDuration s)) s.ratio)

/-- The taper `HANN[N/2 + floor(t * N / S)]` of position t (R1006, log 12). -/
def taperAt (s : State) (samples t : Int) : Num :=
  let scaled := Num.div s.par.arith
    (Num.mul s.par.arith (Num.ofInt s.par.arith t) (Num.ofInt s.par.arith s.bufLen)) (Num.ofInt s.par.arith samples)
  ringRead s.mem.hann s.bufLen ((s.bufLen / 2 : Nat) + Num.decideFloorInt s.par.arith (s.site (.taper t)) scaled)

/-- The grain value `FRAG[fmod(floor(RATIO * t), N)]` of position t (R1007). -/
def fragmentAt (s : State) (t : Int) : Num :=
  ringRead s.mem.frag s.bufLen
    (Num.decideFloorInt s.par.arith (s.site (.fragment t)) (Num.mul s.par.arith s.ratio (Num.ofInt s.par.arith t)))

/-- The placement of one position (R1005). -/
def placeSample (samples : Int) (s : State) (t : Int) : State :=
  let taper := taperAt s samples t
  ringAccumulate t (Num.mul s.par.arith (fragmentAt s t) taper) taper s

/-- The positions of a placement: -h to h - 1, with h = S div 2 (R1005). -/
def grainPositions (samples : Int) : List Int :=
  (List.range (2 * (samples / 2)).toNat).map fun (j : Nat) => (j : Int) - samples / 2

/-- `PlaceGrain()` (R1005). -/
def placeGrain (s : State) : State :=
  let placed := (grainPositions (grainSamples s)).foldl (placeSample (grainSamples s)) s
  { placed with fragSize := 0 }

/-- Output wrap: one test and one decrement (R1004). -/
def outputWrap (s : State) : State :=
  if Num.le s.par.arith Num.one s.phaseOut then
    placeGrain { s with phaseOut := Num.sub s.par.arith s.phaseOut Num.one }
  else s

/-- The wet sample of a read-back pair: normalised when NORM_EN = 1 and nrm > 0.5 (R1009). Where the test is free under f32 it
may divide by any rounded nrm within reach, one that is 0 or negative too: DESIGN CHOICE (log 7). -/
def wetSample (s : State) (acc nrm : Num) : Num :=
  if s.normEn && Num.decideLt s.par.arith (s.site .normalise) (Num.ofRat s.par.arith (1 / 2)) nrm then Num.div s.par.arith acc nrm else acc

/-- `y = MIX * wet + (1 - MIX) * dry` (R1010). -/
def mixSample (s : State) (wet dry : Num) : Num :=
  Num.add s.par.arith (Num.mul s.par.arith s.mix wet)
    (Num.mul s.par.arith (Num.sub s.par.arith Num.one s.mix) dry)

/-- The output sample of a read-back: the pair it returned, mixed in the state it left (R1009, R1010). -/
def outputSample (pair : Num × Num) (s : State) : Num := mixSample s (wetSample s pair.1 pair.2) (dryTap s)

/-- The two outputs take a sample (R1011). -/
def setOutputs (y : Num) (s : State) : State := { s with outL := y, outR := y }

/-- Read-back, mix and output (R1009, R1010, R1011). -/
def readBackAndMix (s : State) : State :=
  setOutputs (outputSample (ringReadBack s).1 (ringReadBack s).2) (ringReadBack s).2

end Sys2Proof.Machine
end

