-- ==== Sys2Proof/Machine/Estimator.lean ====
section
/-! DEFINITION. The spectral autocorrelation estimator, run at every hop (spec/42_estimator.md R700 to R710). -/

namespace Sys2Proof.Machine

/-- The PitchEstimate record (R707, R708, R709). -/
structure Est where
  /-- The winning lag, or 0. -/
  lag : Nat
  /-- The period in seconds. -/
  period : Num
  /-- The confidence. -/
  conf : Num
  /-- The pitch in semitones. -/
  pitch : Num
deriving DecidableEq, Repr

/-- `y[k] = Snapshot(k) * CBW[k]` for k in [0, N) (R700). -/
def windowed (s : State) : List Num :=
  (List.range s.bufLen).map fun k => Num.mul s.par.arith (snapshot s k) (s.mem.cbw.read k)

/-- Z of R700, for m in [0, N). Under f32 the transform computes it, up to a positive factor (R700, R701, log 6). -/
def autocorr (ar : Arith) (y : List Num) : List Num :=
  match ar with
  | .exact =>
    let total := Num.total .exact y
    let mean := Num.div .exact (Num.mul .exact total total) (Num.ofInt .exact y.length)
    (List.range y.length).map fun m => Num.sub .exact (circularSum .exact y m) mean
  | .f32 => (Config.lib.transform (y.map (Num.toBits .f32))).map .bits

/-- The zero-energy guard: Z[0] <= 0, or Z[0] is not a finite number (R702). Under f32 it is a discrete decision, but for a
Z[0] that is 0 itself, by which nothing can be divided (log 7). -/
def zeroEnergy (ar : Arith) (epoch : Nat) (z0 : Num) : Bool :=
  Num.decideLe ar ⟨epoch, .zeroEnergy⟩ z0 Num.zero || (Num.le ar z0 Num.zero && Num.le ar Num.zero z0) ||
    !Num.isFinite ar z0

/-- `rho[m]` (R703). -/
def rhoAt (ar : Arith) (z : List Num) (m : Nat) : Num :=
  if m = 0 then Num.one else Num.div ar (z.getD m Num.zero) (z.getD 0 Num.zero)

/-- The local-maximum test on the values `v`, neighbours clamped to [0, N - 1] (R705): they rise to the lag, and do not rise
from it. Under f32 each rise is one decision, whichever of its two lags asks (log 7). -/
def isPeak (ar : Arith) (epoch : Nat) (v : Nat → Num) (n lag : Nat) : Bool :=
  Num.decideLt ar ⟨epoch, .rise lag⟩ (v (max (lag - 1) 0)) (v lag) &&
    Num.decideLe ar ⟨epoch, .rise (lag + 1)⟩ (v (min (lag + 1) (n - 1))) (v lag)

/-- The candidate lags, in increasing order: nmin to nmax, both ends included (R704). -/
def candidates (nmin nmax : Nat) : List Nat := List.range' nmin (nmax + 1 - nmin)

/-- One step of the scan: a peak whose key is strictly above the best so far becomes the best (R706). -/
def scanStep (ar : Arith) (epoch : Nat) (key : Nat → Num) (peak : Nat → Bool) (acc : Num × Option Nat) (lag : Nat) :
    Num × Option Nat :=
  if peak lag && Num.decideLt ar ⟨epoch, .rank lag⟩ acc.1 (key lag) then (key lag, some lag) else acc

/-- The compensated value `rho[lag] * ACWINV[lag]` (R706, R707). -/
def compensated (ar : Arith) (rho acwinv : Nat → Num) (lag : Nat) : Num := Num.mul ar (rho lag) (acwinv lag)

/-- The value PEAK_RANK ranks by (R706). -/
def rankKey (p : Params) (rho acwinv : Nat → Num) : Nat → Num :=
  match p.peakRank with
  | .raw => rho
  | .compensated | .compensatedPeak => compensated p.arith rho acwinv

/-- The values PEAK_RANK tests for a peak (R706). -/
def peakValues (p : Params) (rho acwinv : Nat → Num) : Nat → Num :=
  match p.peakRank with
  | .raw | .compensated => rho
  | .compensatedPeak => compensated p.arith rho acwinv

/-- The winning lag, if a peak qualifies (R704 to R706). -/
def searchLag (p : Params) (epoch : Nat) (rho acwinv : Nat → Num) (n nmin nmax : Nat) : Option Nat :=
  ((candidates nmin nmax).foldl
    (scanStep p.arith epoch (rankKey p rho acwinv) (isPeak p.arith epoch (peakValues p rho acwinv) n))
    (Num.zero, none)).2

/-- `refFreq = 440 * EXP2(TUNE / 12)` and `pitch = -12 * LOG2(refFreq * period)` (R709). -/
def pitchOf (ar : Arith) (tune period : Num) : Num :=
  let refFreq := Num.mul ar (Num.ofInt ar 440) (Num.exp2 ar (Num.div ar tune (Num.ofInt ar 12)))
  Num.mul ar (Num.ofInt ar (-12)) (Num.log2 ar (Num.mul ar refFreq period))

/-- The estimate of a candidate lag, or of none (R707, R708, R709). -/
def estimateOf (s : State) (rho acwinv : Nat → Num) : Option Nat → Est
  | some lag =>
    let period := Num.div s.par.arith (Num.ofInt s.par.arith lag) (Num.ofInt s.par.arith s.fsAct.toNat)
    ⟨lag, period, compensated s.par.arith rho acwinv lag, pitchOf s.par.arith s.tune period⟩
  | none =>
    let period := Num.div s.par.arith Num.one (Num.ofInt s.par.arith 700)
    ⟨0, period, Num.zero, pitchOf s.par.arith s.tune period⟩

/-- `Estimate()` (R700 to R709). -/
def estimate (s : State) : Est :=
  let z := autocorr s.par.arith (windowed s)
  let rho := rhoAt s.par.arith z
  let acwinv := s.mem.acwinv.read
  let winner :=
    if zeroEnergy s.par.arith s.epoch (z.getD 0 Num.zero) then none
    else searchLag s.par s.epoch rho acwinv s.bufLen s.nmin.toNat s.nmax.toNat
  estimateOf s rho acwinv winner

/-- The estimate registers take the record (R710). -/
def writeEstimate (e : Est) (s : State) : State :=
  { s with
    estLag := BitVec.ofNat 32 e.lag
    estPeriod := e.period
    estPitch := e.pitch
    estConf := e.conf }

end Sys2Proof.Machine
end

