-- ==== Sys2Proof/Machine/Quantizer.lean ====
section
/-! DEFINITION. The distance functions and the target quantizer (spec/43_quantizer.md R800 to R806). -/

namespace Sys2Proof.Machine

/-- `wd(x, c) = | (x - c) / 6 - 2 * floor((x - c) / 12 + 0.5) |` (R800). -/
def wrappedDistance (ar : Arith) (site : Site) (x : Num) (c : Nat) : Num :=
  let d := Num.sub ar x (Num.ofInt ar c)
  let turns := Num.decideFloor ar site (Num.add ar (Num.div ar d (Num.ofInt ar 12)) (Num.ofRat ar (1 / 2)))
  Num.abs ar (Num.sub ar (Num.div ar d (Num.ofInt ar 6)) (Num.mul ar (Num.ofInt ar 2) turns))

/-- `ws(d) = d - 12 * floor(d / 12 + 1/2)` (R801). -/
def wrappedSigned (ar : Arith) (site : Site) (d : Num) : Num :=
  let turns := Num.decideFloor ar site (Num.add ar (Num.div ar d (Num.ofInt ar 12)) (Num.ofRat ar (1 / 2)))
  Num.sub ar d (Num.mul ar (Num.ofInt ar 12) turns)

/-- `score(c) = MASK[c] - wd(x, c)` (R805). -/
def classScore (ar : Arith) (epoch : Nat) (x : Num) (mask : BitVec 12) (c : Nat) : Num :=
  Num.sub ar (if mask.getLsbD c then Num.one else Num.zero) (wrappedDistance ar ⟨epoch, .distance c⟩ x c)

/-- One step of the argmax: a class whose score is at least the best so far becomes the target (R806). -/
def argmaxStep (ar : Arith) (epoch : Nat) (score : Nat → Num) (acc : Num × Nat) (c : Nat) : Num × Nat :=
  if Num.decideLe ar ⟨epoch, .score c⟩ acc.1 (score c) then (score c, c) else acc

/-- `Quantize(x, MASK)`: the argmax of the scores, the later class winning a tie (R806). -/
def quantize (ar : Arith) (epoch : Nat) (x : Num) (mask : BitVec 12) : Nat :=
  ((List.range' 1 11).foldl (argmaxStep ar epoch (classScore ar epoch x mask)) (classScore ar epoch x mask 0, 0)).2

end Sys2Proof.Machine
end

