-- ==== Sys2Proof/Machine/Smoother.lean ====
section
/-! DEFINITION. The voicing state machine, glide, persist, correction, ratio and period refresh
(spec/44_smoother.md R900 to R909), and the hop they make with the estimator and the quantizer
(spec/46_sample_step.md R1104). -/

namespace Sys2Proof.Machine

/-- The voicing decision `conf >= 0.8`; a hop with no candidate is unvoiced (R900). -/
def isVoiced (ar : Arith) (epoch : Nat) (e : Est) : Bool :=
  e.lag != 0 && Num.decideLe ar ⟨epoch, .voicing⟩ (Num.ofRat ar (4 / 5)) e.conf

/-- hopDurationSeconds = H / FS, computed exactly, as a `Num` (R6, log 10). -/
def hopDuration (s : State) : Num := Num.ofRat s.par.arith (mkRat s.hopLen s.fsAct.toNat)

/-- `POW(base, hopDur / time)` (R903, R904). -/
def decayPower (s : State) (base : Rat) (time : Num) : Num :=
  Num.pow s.par.arith (Num.ofRat s.par.arith base) (Num.div s.par.arith (hopDuration s) time)

/-- glideFactor (R903). -/
def glideFactor (s : State) : Num :=
  if Num.lt s.par.arith Num.zero s.glide then Num.sub s.par.arith Num.one (decayPower s (1 / 24) s.glide)
  else Num.one

/-- decayFactor (R904). -/
def decayFactor (s : State) : Num :=
  if Num.lt s.par.arith Num.zero s.persist then decayPower s (1 / 2) s.persist else Num.zero

/-- QTARGET as a `Num`. -/
def targetNum (s : State) : Num := Num.ofInt s.par.arith s.qtarget.toNat

/-- Unvoiced to voiced: blend (R902). -/
def blend (s : State) : State :=
  { s with
    smooth := Num.add s.par.arith
      (Num.mul s.par.arith (Num.sub s.par.arith Num.one s.persistAmt) (targetNum s))
      (Num.mul s.par.arith s.persistAmt s.smooth)
    persistAmt := Num.one }

/-- Voiced to voiced: glide (R903). -/
def glideStep (s : State) : State :=
  let delta := wrappedSigned s.par.arith (s.site .glide) (Num.sub s.par.arith (targetNum s) s.smooth)
  { s with smooth := Num.add s.par.arith s.smooth (Num.mul s.par.arith delta (glideFactor s)) }

/-- An unvoiced hop: persist decay (R904). -/
def persistDecay (s : State) : State :=
  { s with persistAmt := Num.mul s.par.arith s.persistAmt (decayFactor s) }

/-- The voicing state machine: the branch of (WAS_VOICED, voiced) (R901). -/
def voicingBranch (voiced : Bool) (s : State) : State :=
  match s.wasVoiced, voiced with
  | false, true => blend s
  | true, true => glideStep s
  | _, false => persistDecay s

/-- The wrap of the smoothed target (R905) and the voicing record (R906). -/
def recordVoicing (voiced : Bool) (s : State) : State :=
  { s with
    smooth := wrapTo s.par.arith (s.site .smoothWrap) s.smooth (Num.ofInt s.par.arith 12)
    wasVoiced := voiced }

/-- The correction (R907). -/
def correctionOf (voiced : Bool) (s : State) : Num :=
  if voiced then wrappedSigned s.par.arith (s.site .correction) (Num.sub s.par.arith s.smooth s.estPitch) else Num.zero

/-- The shift ratio of a correction (R908). -/
def ratioOf (s : State) (correction : Num) : Num :=
  let total := Num.add s.par.arith s.shift (Num.mul s.par.arith s.amount correction)
  Num.exp2 s.par.arith (Num.div s.par.arith total (Num.ofInt s.par.arith 12))

/-- CORRECTION and RATIO (R907, R908). -/
def setRatio (voiced : Bool) (s : State) : State :=
  { s with
    correction := correctionOf voiced s
    ratio := ratioOf s (correctionOf voiced s) }

/-- The period refresh of a voiced hop (R909). -/
def refreshPeriod (voiced : Bool) (s : State) : State :=
  if voiced then
    { s with
      periodNom := s.estPeriod
      phaseInc := Num.div s.par.arith Num.one
        (Num.mul s.par.arith (Num.ofInt s.par.arith s.fsAct.toNat) s.estPeriod) }
  else s

/-- QTARGET takes the quantized target of EST_PITCH (R805, R806). -/
def quantizeStep (s : State) : State :=
  { s with qtarget := BitVec.ofNat 4 (quantize s.par.arith s.epoch s.estPitch s.mask) }

/-- `OnHop()` (R1104). -/
def onHop (s : State) : State :=
  let e := estimate s
  let s := quantizeStep (writeEstimate e s)
  let voiced := isVoiced s.par.arith s.epoch e
  refreshPeriod voiced (setRatio voiced (recordVoicing voiced (voicingBranch voiced s)))

end Sys2Proof.Machine
end

