-- ==== Sys2Proof/Machine/Sample.lean ====
section
/-! DEFINITION. PUSH, the per-sample step (spec/46_sample_step.md R1100 to R1104). -/

namespace Sys2Proof.Machine

/-- The input write and the sample count (R501, R1102), and the model's count of accepted PUSH transactions (log 24). -/
def takeSample (x : Num) (s : State) : State :=
  let s := ringPush x s
  { s with sampleCount := s.sampleCount + 1, epoch := s.epoch + 1 }

/-- The hop, on the PUSH after which fmod(w, H) = 0 (R1102, R1103). -/
def hopIfDue (s : State) : State :=
  if fmod s.inWr s.hopLen = 0 then
    let s := onHop s
    { s with hopCount := s.hopCount + 1 }
  else s

/-- An accepted PUSH of the sample `x`, in the order of R1102. -/
def acceptSample (x : Num) (s : State) : State :=
  readBackAndMix (outputWrap (inputWrap (advancePhases (hopIfDue (takeSample x s)))))

/-- PUSH: NRDY in UNINIT, VAL for a non-finite sample, else the sample step (R1102, R1303). -/
def pushSample (d : Word) (s : State) : State :=
  if s.ready then
    match operandF32 d with
    | some x => acceptSample x s
    | none => raiseError .val s
  else raiseError .nrdy s

/-- Row 14, PUSH (R1102). -/
def execPush (d : Word) (s : State) : Host.Outcome State Fault Refusal := .next (pushSample d s)

end Sys2Proof.Machine
end

