-- ==== Sys2Proof/Syntax.lean ====
section
/-! DEFINITION. The transactions of the block: one constructor for each row of spec/opcode_table.json, in the table's
order (spec/30_encoding.md R400, R403). -/

namespace Sys2Proof

/-- A decoded host transaction (R403). `d` is the data field D, `a` the address field A (R400). -/
inductive Instr where
  /-- Row 1, INIT: W = 1, A = 0x01, D = 1 (R1200). -/
  | init
  /-- Row 2, CMD_RSVD: W = 1, A = 0x01, any other D (R1201). -/
  | cmdRsvd (d : Word)
  /-- Row 3, WR_CTRL: W = 1, A = 0x00 (R1202). -/
  | wrCtrl (d : Word)
  /-- Row 4, WR_ERR: W = 1, A = 0x03 (R1203). -/
  | wrErr (d : Word)
  /-- Row 5, WR_FS: W = 1, A = 0x04 (R1204). -/
  | wrFs (d : Word)
  /-- Row 6, WR_MIX: W = 1, A = 0x10 (R1205). -/
  | wrMix (d : Word)
  /-- Row 7, WR_SHIFT: W = 1, A = 0x11 (R1206). -/
  | wrShift (d : Word)
  /-- Row 8, WR_TUNE: W = 1, A = 0x12 (R1207). -/
  | wrTune (d : Word)
  /-- Row 9, WR_AMOUNT: W = 1, A = 0x13 (R1208). -/
  | wrAmount (d : Word)
  /-- Row 10, WR_GLIDE: W = 1, A = 0x14 (R1209). -/
  | wrGlide (d : Word)
  /-- Row 11, WR_PERSIST: W = 1, A = 0x15 (R1210). -/
  | wrPersist (d : Word)
  /-- Row 12, WR_ROOT: W = 1, A = 0x16 (R1211). -/
  | wrRoot (d : Word)
  /-- Row 13, WR_SCALE: W = 1, A = 0x17 (R1212). -/
  | wrScale (d : Word)
  /-- Row 14, PUSH: W = 1, A = 0x20 (R1102). -/
  | push (d : Word)
  /-- Row 15, WR_BAD: W = 1, any other A (R1213). -/
  | wrBad (a : Addr) (d : Word)
  /-- Row 16, RD: W = 0, any A, D ignored (R1214). -/
  | rd (a : Addr) (d : Word)
deriving DecidableEq, Repr

end Sys2Proof
end

