-- ==== Sys2Proof/Machine/Dispatch.lean ====
section
/-! DEFINITION. One arm for each transaction of spec/30_encoding.md R403. -/

namespace Sys2Proof.Machine

def exec (i : Instr) (s : State) : Host.Outcome State Fault Refusal :=
  match i with
  | .init => Sys2Proof.Machine.execInit s
  | .cmdRsvd d => Sys2Proof.Machine.execCmdRsvd d s
  | .wrCtrl d => Sys2Proof.Machine.execWrCtrl d s
  | .wrErr d => Sys2Proof.Machine.execWrErr d s
  | .wrFs d => Sys2Proof.Machine.execWrFs d s
  | .wrMix d => Sys2Proof.Machine.execWrMix d s
  | .wrShift d => Sys2Proof.Machine.execWrShift d s
  | .wrTune d => Sys2Proof.Machine.execWrTune d s
  | .wrAmount d => Sys2Proof.Machine.execWrAmount d s
  | .wrGlide d => Sys2Proof.Machine.execWrGlide d s
  | .wrPersist d => Sys2Proof.Machine.execWrPersist d s
  | .wrRoot d => Sys2Proof.Machine.execWrRoot d s
  | .wrScale d => Sys2Proof.Machine.execWrScale d s
  | .push d => Sys2Proof.Machine.execPush d s
  | .wrBad a d => Sys2Proof.Machine.execWrBad a d s
  | .rd a d => Sys2Proof.Machine.execRd a d s

end Sys2Proof.Machine
end

