-- ==== Sys2Proof/WellFormed.lean ====
section
/-! DEFINITION. The transactions that some transaction word decodes to (spec/30_encoding.md R402, R403): the rows with a
side condition on their fields are CMD_RSVD (D is not 1) and WR_BAD (A is not an address of rows 1 to 14). -/

namespace Sys2Proof

/-- The register addresses that rows 1 to 14 of R403 write: CMD, CTRL, ERR, FS, the eight parameter registers and
SAMPLE_IN. A write to any other address is WR_BAD. -/
def writableAddrs : List Addr :=
  [0x00, 0x01, 0x03, 0x04, 0x10, 0x11, 0x12, 0x13, 0x14, 0x15, 0x16, 0x17, 0x20]

/-- Well-formedness of a transaction, as a check (R402: a word is of the FIRST row it matches). -/
def Instr.wf : Instr → Bool
  | .cmdRsvd d => d != 1
  | .wrBad a _ => !(writableAddrs.contains a)
  | .init | .wrCtrl _ | .wrErr _ | .wrFs _ | .wrMix _ | .wrShift _ | .wrTune _ | .wrAmount _ | .wrGlide _
  | .wrPersist _ | .wrRoot _ | .wrScale _ | .push _ | .rd _ _ => true

end Sys2Proof
end

