-- ==== Sys2Proof/Decode.lean ====
section
/-! DEFINITION. The decoder and, after it, the encoder (spec/30_encoding.md R400 to R405, spec/opcode_table.json). -/

namespace Sys2Proof

/-- The write flag W, bit 39 (R400). -/
def Txn.isWrite (w : Txn) : Bool := w.getLsbD 39

/-- The register word address A, bits 38:32 (R400). -/
def Txn.addr (w : Txn) : Addr := w.extractLsb' 32 7

/-- The write data D, bits 31:0 (R400). -/
def Txn.data (w : Txn) : Word := w.extractLsb' 0 32

/-- One row of spec/opcode_table.json: its match, its mask, and the transaction a word of the row stands for. -/
structure OpRow where
  /-- The row's mnemonic. -/
  mnemonic : String
  /-- The row's match value. -/
  pattern : Txn
  /-- The row's mask. -/
  mask : Txn
  /-- The transaction, from the word's fields. -/
  build : Txn → Instr

/-- A word is of a row when `(word & mask) == match` (R402). -/
def OpRow.fits (r : OpRow) (w : Txn) : Bool := w &&& r.mask == r.pattern

/-- spec/opcode_table.json, in its order (R402, R403). -/
def opTable : List OpRow :=
  [ ⟨"INIT", 0x8100000001, 0xFFFFFFFFFF, fun _ => .init⟩,
    ⟨"CMD_RSVD", 0x8100000000, 0xFF00000000, fun w => .cmdRsvd w.data⟩,
    ⟨"WR_CTRL", 0x8000000000, 0xFF00000000, fun w => .wrCtrl w.data⟩,
    ⟨"WR_ERR", 0x8300000000, 0xFF00000000, fun w => .wrErr w.data⟩,
    ⟨"WR_FS", 0x8400000000, 0xFF00000000, fun w => .wrFs w.data⟩,
    ⟨"WR_MIX", 0x9000000000, 0xFF00000000, fun w => .wrMix w.data⟩,
    ⟨"WR_SHIFT", 0x9100000000, 0xFF00000000, fun w => .wrShift w.data⟩,
    ⟨"WR_TUNE", 0x9200000000, 0xFF00000000, fun w => .wrTune w.data⟩,
    ⟨"WR_AMOUNT", 0x9300000000, 0xFF00000000, fun w => .wrAmount w.data⟩,
    ⟨"WR_GLIDE", 0x9400000000, 0xFF00000000, fun w => .wrGlide w.data⟩,
    ⟨"WR_PERSIST", 0x9500000000, 0xFF00000000, fun w => .wrPersist w.data⟩,
    ⟨"WR_ROOT", 0x9600000000, 0xFF00000000, fun w => .wrRoot w.data⟩,
    ⟨"WR_SCALE", 0x9700000000, 0xFF00000000, fun w => .wrScale w.data⟩,
    ⟨"PUSH", 0xA000000000, 0xFF00000000, fun w => .push w.data⟩,
    ⟨"WR_BAD", 0x8000000000, 0x8000000000, fun w => .wrBad w.addr w.data⟩,
    ⟨"RD", 0x0000000000, 0x8000000000, fun w => .rd w.addr w.data⟩ ]

/-- Why a string of bits is no transaction. -/
inductive DecodeError where
  /-- It is not 40 bits long: every transaction is 40 bits (R405). -/
  | notFortyBits
  /-- It matches no row. R402 says that this cannot happen. -/
  | noRow
deriving DecidableEq, Repr

/-- The transaction a 40-bit word stands for: the first row it fits (R402). -/
def decode (w : Txn) : Except DecodeError Instr :=
  match opTable.find? (·.fits w) with
  | some r => .ok (r.build w)
  | none => .error .noRow

/-- Decoding of a string of `n` bits, numbered as R400 numbers them. -/
def decodeBits (n w : Nat) : Except DecodeError Instr :=
  if n = 40 then decode (BitVec.ofNat 40 w) else .error .notFortyBits

/-- The 40-bit word with fields W, A and D (R400). -/
def Txn.make (write : Bool) (a : Addr) (d : Word) : Txn := BitVec.ofBool write ++ a ++ d

/-- The word of a well-formed transaction, from the bit patterns of R403. -/
def encode : Instr → Txn
  | .init => Txn.make true 0x01 1
  | .cmdRsvd d => Txn.make true 0x01 d
  | .wrCtrl d => Txn.make true 0x00 d
  | .wrErr d => Txn.make true 0x03 d
  | .wrFs d => Txn.make true 0x04 d
  | .wrMix d => Txn.make true 0x10 d
  | .wrShift d => Txn.make true 0x11 d
  | .wrTune d => Txn.make true 0x12 d
  | .wrAmount d => Txn.make true 0x13 d
  | .wrGlide d => Txn.make true 0x14 d
  | .wrPersist d => Txn.make true 0x15 d
  | .wrRoot d => Txn.make true 0x16 d
  | .wrScale d => Txn.make true 0x17 d
  | .push d => Txn.make true 0x20 d
  | .wrBad a d => Txn.make true a d
  | .rd a d => Txn.make false a d

/-- The transaction the decoder reads from the `nbits` low bits of `w`, every higher bit of the 40 being 0 (a longer
string is no transaction). -/
def decodeTableWord (nbits w : Nat) : Option Instr :=
  match decodeBits (max nbits 40) (w % 2 ^ nbits) with
  | .ok i => some i
  | .error _ => none

end Sys2Proof
end

