-- ==== Sys2Proof/Machine/Port.lean ====
section
/-! DEFINITION. Taking a transaction from the port (spec/20_memory.md R307, spec/30_encoding.md R400, log 1). -/

namespace Sys2Proof.Machine

/-- The transaction at the head of the port, decoded, and the state with it taken: the rest of the queue waits, and
nothing has yet been returned to the host for it. None where nothing is delivered. -/
def takeTransaction (s : State) : Option (Instr × State) :=
  match s.port with
  | [] => none
  | w :: rest =>
    match decode w with
    | .ok i => some (i, { s with port := rest, readData := none })
    | .error _ => none

/-- The port with the word of `w`'s low `nbits` bits in place of its head. -/
def deliver (nbits w : Nat) (s : State) : State :=
  { s with port := BitVec.ofNat 40 (w % 2 ^ nbits) :: s.port.tail }

end Sys2Proof.Machine
end

