-- ==== Sys2Proof/Machine/Step.lean ====
section
/-! DEFINITION. One step: the block takes the next delivered transaction and runs it to completion (spec/20_memory.md
R307); with none delivered it idles, all state kept (spec/60_exceptions.md R1314). -/

namespace Sys2Proof.Machine

/-- The step. -/
def step (s : State) : Host.Outcome State Fault Refusal :=
  match takeTransaction s with
  | some (i, t) => exec i t
  | none => .next s

/-- The state in which the very next step runs the transaction whose low `nbits` bits are those of `w`, every higher bit
being 0. Only the head of the port changes (log 1). -/
def State.withFetchWord (s : State) (nbits w : Nat) : State := deliver nbits w s

end Sys2Proof.Machine
end

