-- ==== Sys2Proof/Safety.lean ====
section
/-! DEFINITION. What a good state is, in the terms the statements use: each predicate is one rule of spec/ that every
transaction keeps. No state is unsafe in the sense of a fault: the block has none (spec/60_exceptions.md R1304). -/

namespace Sys2Proof.Machine

/-- The geometry of the buffers: in UNINIT nothing is sized; in READY the sizes and lag bounds are those of FS_ACT (R2, R5,
R39, R1200), and outside a PUSH the two cursors agree and lie in [0, N) (R50, R507). -/
def State.GeometryOk (s : State) : Prop :=
  s.inWr = s.outRd ∧
  (s.ready = false → s.nsize = 0 ∧ s.hopsize = 0 ∧ s.nmin = 0 ∧ s.nmax = 0 ∧ s.inWr = 0) ∧
  (s.ready = true →
    1400 ≤ s.fsAct.toNat ∧ s.bufLen = bufLenFor s.fsAct ∧ s.hopLen = s.bufLen / 4 ∧
    s.nmin.toNat = nminFor s.fsAct ∧ s.nmax.toNat = nmaxFor s.fsAct ∧ s.inWr < s.bufLen)

/-- The scale registers: ROOT and SCALE are legal (R48, R49) and MASK is the selected row rotated by ROOT (R40, R803). -/
def State.ScaleOk (s : State) : Prop :=
  s.root.toNat ≤ 11 ∧ s.scale.toNat ≤ 12 ∧ s.mask = rotatedMask (scaleRow s.par s.scale) s.root

/-- A parameter value: the value of a finite binary32 pattern (R12, R1404). -/
def Num.IsOperand (x : Num) : Prop := ∃ w : Word, isFinite32 w = true ∧ x = .bits w

/-- The six f32 parameter registers hold values of finite patterns (R42 to R47, R1404). -/
def State.OperandsOk (s : State) : Prop :=
  Num.IsOperand s.mix ∧ Num.IsOperand s.shift ∧ Num.IsOperand s.tune ∧ Num.IsOperand s.amount ∧
  Num.IsOperand s.glide ∧ Num.IsOperand s.persist

/-- The internal arrays are in canonical form. -/
def State.MemoryOk (s : State) : Prop := s.mem.wf = true

/-- The value is a binary32 value. -/
def Num.IsBits (x : Num) : Prop := ∃ w : Word, x = .bits w

/-- Every value of the array is a binary32 value. -/
def Store.AllBits (m : Store) : Prop := ∀ e ∈ m, Num.IsBits e.2

/-- The `Num` registers. -/
def State.numRegisters (s : State) : List Num :=
  [s.mix, s.shift, s.tune, s.amount, s.glide, s.persist, s.outL, s.outR, s.estPeriod, s.estPitch, s.estConf,
    s.smooth, s.persistAmt, s.correction, s.ratio, s.periodNom, s.phaseInc, s.phaseIn, s.phaseOut]

/-- The internal arrays. -/
def State.arrays (s : State) : List Store :=
  [s.mem.input, s.mem.ob, s.mem.nb, s.mem.frag, s.mem.hann, s.mem.cbw, s.mem.acwinv]

/-- Every `Num` register and every array cell holds a binary32 value (R9, R12: the state under ARITH = f32). -/
def State.AllBits (s : State) : Prop :=
  (∀ x ∈ s.numRegisters, Num.IsBits x) ∧ ∀ m ∈ s.arrays, Store.AllBits m

/-- Every value of the array is a real that exists. -/
def Store.AllDefined (m : Store) : Prop := ∀ e ∈ m, e.2.Defined

/-- Every `Num` register and every array cell holds a real that exists, and RATIO is above 0 once the engine runs (R9, R12:
the state under ARITH = exact, log 23). -/
def State.AllDefined (s : State) : Prop :=
  (∀ x ∈ s.numRegisters, x.Defined) ∧ (∀ m ∈ s.arrays, Store.AllDefined m) ∧ (s.ready = true → 0 < s.ratio.val)

/-- The state keeps the numeric format of its ARITH (R9). -/
def State.FormatOk (s : State) : Prop :=
  (s.par.arith = .f32 → s.AllBits) ∧ (s.par.arith = .exact → s.AllDefined)

/-- The two output channels hold the same value (R56, R1011). -/
def State.OutputsEqual (s : State) : Prop := s.outL = s.outR

/-- The input ring holds the samples `xs`, newest first, and +0.0 where fewer than N samples were pushed (R508). -/
def State.InputHolds (s : State) (xs : List Num) : Prop := ∀ j < s.bufLen, snapshot s j = xs.getD j Num.zero

/-- The state after the input write of an accepted PUSH, which the hop of that PUSH starts from (R1102). -/
def State.withSample (s : State) (x : Num) : State :=
  { s with
    mem := { s.mem with input := s.mem.input.write s.inWr x }
    inWr := (s.inWr + 1) % s.bufLen
    sampleCount := s.sampleCount + 1
    epoch := s.epoch + 1 }

/-- An accepted PUSH of this state completes a hop: fmod(w, H) = 0 after its input write (R1103). -/
def State.HopDue (s : State) : Prop := (s.inWr + 1) % s.bufLen % s.hopLen = 0

/-- Every listed cell of the array is one of its first `n` (R20: no other cell is part of the state). -/
def Store.Within (n : Nat) (m : Store) : Prop := ∀ e ∈ m, e.1 < n

/-- Every listed cell of every array lies in [0, N) (R20, R303). -/
def State.CellsOk (s : State) : Prop :=
  ∀ m ∈ s.arrays, Store.Within s.bufLen m

end Sys2Proof.Machine
end

