-- ==== Sys2Proof/Certificates/Slice0/Obligations.lean ====
section
/-! DEFINITION. The statements for the provers: the numbered rules of spec/ as propositions about `decode`, `exec`, `step`
and the operations they call. "log <n>" is notes/assumptions/<n>.md. A statement about real values is under ARITH = exact,
the reference semantics in which every rule is stated (spec/00_scope.md R9). -/

open Sys2Proof Sys2Proof.Machine

/-! ### Encoding (spec/30_encoding.md) -/

/-- R402, R405: a word is the transaction of the first row it matches, and it always matches one; the rows stand in the
order of the opcode table; a string of bits is a transaction exactly when it is 40 bits long. -/
def Obligations.DecodeTakesTheFirstMatchingRow : Prop :=
  opTable.map (·.mnemonic) =
    ["INIT", "CMD_RSVD", "WR_CTRL", "WR_ERR", "WR_FS", "WR_MIX", "WR_SHIFT", "WR_TUNE", "WR_AMOUNT", "WR_GLIDE",
      "WR_PERSIST", "WR_ROOT", "WR_SCALE", "PUSH", "WR_BAD", "RD"] ∧
  (∀ w : Txn, ∃ before r rest, opTable = before ++ r :: rest ∧ (∀ q ∈ before, w &&& q.mask ≠ q.pattern) ∧
    w &&& r.mask = r.pattern ∧ decode w = .ok (r.build w)) ∧
  ∀ n w : Nat, (∃ i, decodeBits n w = .ok i) ↔ n = 40

/-- R403: the bit patterns of the sixteen rows, bit 39 first, with every data bit and address bit read. -/
def Obligations.OpcodeMapPatternsDecode : Prop :=
  decode (0b10000001#8 ++ 1#32) = .ok .init ∧
  (∀ d : Word,
    (d ≠ 1 → decode (0b10000001#8 ++ d) = .ok (.cmdRsvd d)) ∧
    decode (0b10000000#8 ++ d) = .ok (.wrCtrl d) ∧
    decode (0b10000011#8 ++ d) = .ok (.wrErr d) ∧
    decode (0b10000100#8 ++ d) = .ok (.wrFs d) ∧
    decode (0b10010000#8 ++ d) = .ok (.wrMix d) ∧
    decode (0b10010001#8 ++ d) = .ok (.wrShift d) ∧
    decode (0b10010010#8 ++ d) = .ok (.wrTune d) ∧
    decode (0b10010011#8 ++ d) = .ok (.wrAmount d) ∧
    decode (0b10010100#8 ++ d) = .ok (.wrGlide d) ∧
    decode (0b10010101#8 ++ d) = .ok (.wrPersist d) ∧
    decode (0b10010110#8 ++ d) = .ok (.wrRoot d) ∧
    decode (0b10010111#8 ++ d) = .ok (.wrScale d) ∧
    decode (0b10100000#8 ++ d) = .ok (.push d)) ∧
  (∀ (a : Addr) (d : Word),
    (a ∉ ([0x00, 0x01, 0x03, 0x04, 0x10, 0x11, 0x12, 0x13, 0x14, 0x15, 0x16, 0x17, 0x20] : List Addr) →
      decode (1#1 ++ a ++ d) = .ok (.wrBad a d)) ∧
    decode (0#1 ++ a ++ d) = .ok (.rd a d))

/-- The decoder reads back every well-formed transaction, with every operand at every value its encoding admits. -/
def Obligations.DecodeInvertsEncode : Prop := ∀ i : Instr, i.wf = true → decode (encode i) = .ok i

/-- Every word decodes to a well-formed transaction whose encoding is that word: no bit is dropped, not even the data
bits that a read ignores. -/
def Obligations.EncodeInvertsDecode : Prop :=
  ∀ w : Txn, ∃ i, decode w = .ok i ∧ i.wf = true ∧ encode i = w

/-- The words that section 2.7 of spec/95_test_vectors.md writes out decode to the transactions it names. -/
def Obligations.WrittenOutWordsDecode : Prop :=
  decode 0x8100000001 = .ok .init ∧ decode 0x8100000002 = .ok (.cmdRsvd 2) ∧
  decode 0x80FFFFFFFF = .ok (.wrCtrl 0xFFFFFFFF) ∧ decode 0x83FFFFFFF4 = .ok (.wrErr 0xFFFFFFF4) ∧
  decode 0x840000BB80 = .ok (.wrFs 48000) ∧ decode 0x91C1400000 = .ok (.wrShift 0xC1400000) ∧
  decode 0x9600000002 = .ok (.wrRoot 2) ∧ decode 0xA03F800000 = .ok (.push 0x3F800000) ∧
  decode 0xC500000001 = .ok (.wrBad 0x45 1) ∧ decode 0x03FFFFFFFF = .ok (.rd 0x03 0xFFFFFFFF)

/-! ### The step (spec/20_memory.md R307) -/

/-- A step takes the head of the port, decodes it and executes it. The port and the returned word are the model's
(log 1, log 2). -/
def Obligations.StepRunsTheDecodedTransaction : Prop :=
  ∀ (s : State) (w : Txn) (rest : List Txn) (i : Instr), s.port = w :: rest → decode w = .ok i →
    step s = exec i { s with port := rest, readData := none }

/-- R1314 through the model's port (log 1): with no transaction delivered the block does nothing and keeps all state. -/
def Obligations.IdleStepKeepsTheState : Prop := ∀ s : State, s.port = [] → step s = .next s

/-- R1304: no transaction is fatal. Every transaction completes in every state, and so does every step. -/
def Obligations.EveryTransactionCompletes : Prop :=
  (∀ (i : Instr) (s : State), ∃ t, exec i s = .next t) ∧ (∀ s : State, ∃ t, step s = .next t)

/-! ### Reset (spec/70_reset_and_hazards.md) -/

/-- R1400 as the port shows it: after power-on reset every mapped register reads 0, but MASK, which reads SCALE_ROM[0].
The mode is UNINIT. -/
def Obligations.ResetReadsZeroButMask : Prop :=
  State.reset.ready = false ∧ State.reset.wasVoiced = false ∧
  (∀ (a : Addr) (d : Word), (accessAt a).isSome = true → a ≠ 0x18 →
    exec (.rd a d) State.reset = .next { State.reset with readData := some 0 }) ∧
  ∀ d : Word, exec (.rd 0x18 d) State.reset =
    .next { State.reset with readData := some (State.reset.par.scaleRom[0].setWidth 32) }

/-! ### Errors (spec/60_exceptions.md) -/

/-- R1301, R1302, R1303: each refused transaction sets its one flag, a refused read returns 0, and nothing else changes. A
PUSH in UNINIT raises NRDY whatever its sample. -/
def Obligations.RefusedTransactionsOnlySetTheirFlag : Prop :=
  ∀ (s : State) (a : Addr) (d : Word),
    (s.fs.toNat < 1400 → exec .init s = .next { s with err := s.err ||| 0b0001 }) ∧
    (s.ready = false → exec (.push d) s = .next { s with err := s.err ||| 0b0010 }) ∧
    (s.ready = true → d.extractLsb' 23 8 = 0xFF → exec (.push d) s = .next { s with err := s.err ||| 0b0100 }) ∧
    exec (.cmdRsvd d) s = .next { s with err := s.err ||| 0b0100 } ∧
    (11 < d.toNat → exec (.wrRoot d) s = .next { s with err := s.err ||| 0b0100 }) ∧
    (12 < d.toNat → exec (.wrScale d) s = .next { s with err := s.err ||| 0b0100 }) ∧
    (d.extractLsb' 23 8 = 0xFF → ∀ i ∈ [Instr.wrMix d, .wrShift d, .wrTune d, .wrAmount d, .wrGlide d, .wrPersist d],
      exec i s = .next { s with err := s.err ||| 0b0100 }) ∧
    exec (.wrBad a d) s = .next { s with err := s.err ||| 0b1000 } ∧
    (accessAt a = none → exec (.rd a d) s = .next { s with err := s.err ||| 0b1000, readData := some 0 })

/-- No other transaction raises anything: where none of the conditions of R1302 holds, ERR is kept, but for the flags a
WR_ERR clears. -/
def Obligations.ErrIsKeptOutsideTheErrorConditions : Prop :=
  ∀ (i : Instr) (s t : State), exec i s = .next t →
    (match i with
      | .init => 1400 ≤ s.fs.toNat
      | .cmdRsvd _ | .wrBad _ _ | .wrErr _ => False
      | .wrCtrl _ | .wrFs _ => True
      | .wrMix d | .wrShift d | .wrTune d | .wrAmount d | .wrGlide d | .wrPersist d => d.extractLsb' 23 8 ≠ 0xFF
      | .wrRoot d => d.toNat ≤ 11
      | .wrScale d => d.toNat ≤ 12
      | .push d => s.ready = true ∧ d.extractLsb' 23 8 ≠ 0xFF
      | .rd a _ => accessAt a ≠ none) →
    t.err = s.err

/-- R1307: an ERR bit falls only by a WR_ERR with 1 in its position and by power-on reset, which is no transaction; a
successful INIT leaves ERR unchanged. -/
def Obligations.ErrBitsFallOnlyByWrErr : Prop :=
  (∀ (i : Instr) (s t : State) (k : Nat), exec i s = .next t → s.err.getLsbD k = true → t.err.getLsbD k = false →
    ∃ d : Word, i = .wrErr d ∧ d.getLsbD k = true) ∧
  State.reset.err = 0 ∧ ∀ s t : State, 1400 ≤ s.fs.toNat → exec .init s = .next t → t.err = s.err

/-! ### INIT and the windows (spec/47_host_commands.md R1200, spec/41_windows.md) -/

/-- R1200: what a successful INIT sets and what it keeps. Under f32 that FS is rounded to binary32 before the division of
PHASE_INC is the model's choice (log 9), and that the model's epoch runs on is log 24. -/
def Obligations.InitSetsTheEngine : Prop :=
  ∀ s : State, 1400 ≤ s.fs.toNat → ∃ t, exec .init s = .next t ∧
    t.fsAct = s.fs ∧ t.ready = true ∧ t.wasVoiced = false ∧
    t.nsize.toNat = (if 88200 ≤ s.fs.toNat then 4096 else 2048) ∧
    t.hopsize.toNat = t.nsize.toNat / 4 ∧
    t.nmin.toNat = s.fs.toNat / 700 ∧
    t.nmax.toNat = min (s.fs.toNat / 70) (t.nsize.toNat / 2 + 1) ∧
    (∀ i, t.mem.input.read i = .bits 0 ∧ t.mem.ob.read i = .bits 0 ∧ t.mem.nb.read i = .bits 0 ∧
      t.mem.frag.read i = .bits 0) ∧
    t.inWr = 0 ∧ t.outRd = 0 ∧
    t.estLag = 0 ∧ t.estPeriod = .bits 0 ∧ t.estPitch = .bits 0 ∧ t.estConf = .bits 0 ∧
    t.qtarget = 0 ∧ t.smooth = .bits 0 ∧ t.persistAmt = .bits 0 ∧
    t.correction = .bits 0 ∧ t.ratio = .bits 0x3F800000 ∧
    (s.par.arith = .exact → t.periodNom.val = 1 / 700 ∧ t.phaseInc.val = 700 / (s.fs.toNat : ℝ)) ∧
    (s.par.arith = .f32 → t.periodNom = .bits (div32 0x3F800000 0x442F0000) ∧
      t.phaseInc = .bits (div32 0x442F0000 (encRat s.fs.toNat))) ∧
    t.phaseIn = .bits 0 ∧ t.phaseOut = .bits 0 ∧ t.fragSize = 0 ∧
    t.outL = .bits 0 ∧ t.outR = .bits 0 ∧ t.sampleCount = 0 ∧ t.hopCount = 0 ∧
    t.normEn = s.normEn ∧ t.err = s.err ∧ t.fs = s.fs ∧ t.mix = s.mix ∧ t.shift = s.shift ∧ t.tune = s.tune ∧
    t.amount = s.amount ∧ t.glide = s.glide ∧ t.persist = s.persist ∧ t.root = s.root ∧ t.scale = s.scale ∧
    t.mask = s.mask ∧ t.par = s.par ∧ t.port = s.port ∧ t.readData = s.readData ∧ t.epoch = s.epoch

/-- R600, R601: INIT computes in HANN the periodic Hann window of length N, and in CBW a periodic Hann window of length N/2
over the middle half, with zeros outside it. -/
def Obligations.InitComputesTheWindows : Prop :=
  ∀ s t : State, s.par.arith = .exact → 1400 ≤ s.fs.toNat → exec .init s = .next t → ∀ i < t.bufLen,
    (t.mem.hann.read i).val = 0.5 - 0.5 * Real.cos (2 * Real.pi * i / t.bufLen) ∧
    (t.mem.cbw.read i).val =
      if (t.bufLen : ℝ) / 4 ≤ i ∧ i < 3 * (t.bufLen : ℝ) / 4 then
        0.5 - 0.5 * Real.cos (2 * Real.pi * (i - t.bufLen / 4) / (t.bufLen / 2))
      else 0

/-- R602, R603: cell 0 of ACWINV is 1, and any other cell is the inverse of A[m], the normalised circular autocorrelation of
CBW, where 1e-6 <= A[m], and 0 elsewhere. The cells where the shifted windows do not meet are 0. -/
def Obligations.InitInvertsTheWindowAutocorrelation : Prop :=
  ∀ s t : State, s.par.arith = .exact → 1400 ≤ s.fs.toNat → exec .init s = .next t →
    let aw : Nat → ℝ := fun m =>
      ∑ i ∈ Finset.range t.bufLen, (t.mem.cbw.read i).val * (t.mem.cbw.read ((i + m) % t.bufLen)).val
    (t.mem.acwinv.read 0).val = 1 ∧
    (∀ m < t.bufLen, 0 < m →
      (t.mem.acwinv.read m).val = if 1 / 10 ^ 6 ≤ aw m / aw 0 then 1 / (aw m / aw 0) else 0) ∧
    ∀ m, t.bufLen / 2 - 1 ≤ m → m ≤ t.bufLen / 2 + 1 → (t.mem.acwinv.read m).val = 0

/-- R604: the windows depend on N alone (and on ARITH, whose arithmetic computes them), INIT recomputes them, and no other
transaction changes them. -/
def Obligations.WindowsChangeOnlyByInit : Prop :=
  (∀ (i : Instr) (s t : State), i ≠ .init → exec i s = .next t →
    t.mem.hann = s.mem.hann ∧ t.mem.cbw = s.mem.cbw ∧ t.mem.acwinv = s.mem.acwinv) ∧
  ∀ s t s' t' : State, 1400 ≤ s.fs.toNat → 1400 ≤ s'.fs.toNat → exec .init s = .next t → exec .init s' = .next t' →
    s.par.arith = s'.par.arith → t.nsize = t'.nsize →
    t.mem.hann = t'.mem.hann ∧ t.mem.cbw = t'.mem.cbw ∧ t.mem.acwinv = t'.mem.acwinv

/-! ### The register writes (spec/47_host_commands.md R1201 to R1213) -/

/-- R1202: WR_CTRL stores D[0] in NORM_EN. -/
def Obligations.WrCtrlStoresBitZero : Prop :=
  ∀ (s : State) (d : Word), decode (0b10000000#8 ++ d) = .ok (.wrCtrl d) ∧
    exec (.wrCtrl d) s = .next { s with normEn := d.getLsbD 0 }

/-- R1203: WR_ERR clears the flags whose data bit is 1. -/
def Obligations.WrErrClearsTheMarkedFlags : Prop :=
  ∀ (s : State) (d : Word), decode (0b10000011#8 ++ d) = .ok (.wrErr d) ∧
    exec (.wrErr d) s = .next { s with err := s.err &&& ~~~(d.extractLsb' 0 4) }

/-- R1204: WR_FS stores D in FS and changes nothing else. -/
def Obligations.WrFsStoresTheRate : Prop :=
  ∀ (s : State) (d : Word), decode (0b10000100#8 ++ d) = .ok (.wrFs d) ∧
    exec (.wrFs d) s = .next { s with fs := d }

/-- R1205 to R1210: a finite word is stored as the value of its pattern in the register addressed, and nothing else
changes. -/
def Obligations.FloatWritesStoreTheOperand : Prop :=
  ∀ (s : State) (d : Word), d.extractLsb' 23 8 ≠ 0xFF →
    (Sys2Proof.Num.bits d).val = real32 d ∧
    exec (.wrMix d) s = .next { s with mix := .bits d } ∧
    exec (.wrShift d) s = .next { s with shift := .bits d } ∧
    exec (.wrTune d) s = .next { s with tune := .bits d } ∧
    exec (.wrAmount d) s = .next { s with amount := .bits d } ∧
    exec (.wrGlide d) s = .next { s with glide := .bits d } ∧
    exec (.wrPersist d) s = .next { s with persist := .bits d }

/-- R1211 with R803: a legal WR_ROOT stores D[3:0] and recomputes MASK from the row of SCALE; an illegal one raises VAL. -/
def Obligations.WrRootStoresAndRotates : Prop :=
  ∀ (s : State) (d : Word), decode (0b10010110#8 ++ d) = .ok (.wrRoot d) ∧
    (11 < d.toNat → exec (.wrRoot d) s = .next { s with err := s.err ||| 0b0100 }) ∧
    (d.toNat ≤ 11 → ∀ h : s.scale.toNat < 13, ∃ m : BitVec 12,
      exec (.wrRoot d) s = .next { s with root := d.extractLsb' 0 4, mask := m } ∧
      ∀ c : Nat, c < 12 → m.getLsbD c = s.par.scaleRom[s.scale.toNat].getLsbD (((c : Int) - d.toNat) % 12).toNat)

/-- R1212 with R803: a legal WR_SCALE stores D[3:0] and recomputes MASK from the row it selects; an illegal one raises
VAL. -/
def Obligations.WrScaleStoresAndRotates : Prop :=
  ∀ (s : State) (d : Word), decode (0b10010111#8 ++ d) = .ok (.wrScale d) ∧
    (12 < d.toNat → exec (.wrScale d) s = .next { s with err := s.err ||| 0b0100 }) ∧
    (∀ h : d.toNat < 13, ∃ m : BitVec 12,
      exec (.wrScale d) s = .next { s with scale := d.extractLsb' 0 4, mask := m } ∧
      ∀ c : Nat, c < 12 → m.getLsbD c = s.par.scaleRom[d.toNat].getLsbD (((c : Int) - s.root.toNat) % 12).toNat)

/-- R803, its derived form: the recomputed MASK is the row rotated left by ROOT within 12 bits. -/
def Obligations.MaskIsTheRowRotatedLeft : Prop :=
  ∀ (row : BitVec 12) (root : BitVec 4), root.toNat ≤ 11 →
    rotatedMask row root = row <<< root.toNat ||| row >>> (12 - root.toNat)

/-- R1201, R1213: a write of a reserved command code raises VAL; a write to a read-only or unmapped address raises ADDR;
nothing else changes. -/
def Obligations.ReservedWritesRaiseTheirFlag : Prop :=
  ∀ (s : State) (a : Addr) (d : Word),
    (d ≠ 1 → decode (0b10000001#8 ++ d) = .ok (.cmdRsvd d)) ∧
    exec (.cmdRsvd d) s = .next { s with err := s.err ||| 0b0100 } ∧
    (accessAt a = some .ro ∨ accessAt a = none → decode (1#1 ++ a ++ d) = .ok (.wrBad a d)) ∧
    exec (.wrBad a d) s = .next { s with err := s.err ||| 0b1000 }

/-! ### The register read (spec/47_host_commands.md R1214, spec/10_state.md R18) -/

/-- R1214: a read returns the register's value in the form R18 gives it, 0 for a write-only register, and 0 with ADDR for
an unmapped address; nothing else changes, and D is ignored. A `Num` register reads as its own pattern under f32, and as the
encoding of its real, where that exists, under exact (R11, R12). -/
def Obligations.ReadReturnsTheRegister : Prop :=
  ∀ s : State,
    let num := Sys2Proof.Num.toBits s.par.arith
    let registers : List (Addr × Word) :=
      [ (0x00, if s.normEn then 1 else 0), (0x01, 0),
        (0x02, (if s.wasVoiced then 2 else 0) + (if s.ready then 1 else 0)), (0x03, s.err.setWidth 32), (0x04, s.fs),
        (0x05, s.nsize), (0x06, s.hopsize), (0x07, s.nmin), (0x08, s.nmax),
        (0x10, num s.mix), (0x11, num s.shift), (0x12, num s.tune), (0x13, num s.amount), (0x14, num s.glide),
        (0x15, num s.persist), (0x16, s.root.setWidth 32), (0x17, s.scale.setWidth 32), (0x18, s.mask.setWidth 32),
        (0x20, 0), (0x21, num s.outL), (0x22, num s.outR),
        (0x28, s.estLag), (0x29, num s.estPeriod), (0x2A, num s.estPitch), (0x2B, num s.estConf),
        (0x2C, s.qtarget.setWidth 32), (0x2D, num s.smooth), (0x2E, num s.persistAmt), (0x2F, num s.correction),
        (0x30, num s.ratio), (0x31, num s.periodNom), (0x32, num s.phaseInc), (0x33, num s.phaseIn),
        (0x34, num s.phaseOut), (0x35, s.fragSize), (0x36, BitVec.ofNat 32 s.inWr), (0x37, BitVec.ofNat 32 s.outRd),
        (0x38, s.sampleCount), (0x39, s.hopCount), (0x3A, s.fsAct) ]
    (∀ w : Word, s.par.arith = .f32 → num (.bits w) = w) ∧
    (∀ x : Sys2Proof.Num, s.par.arith = .exact → x.Defined → num x = encReal x.val) ∧
    (∀ (x : Sys2Proof.Num) (q : Rat), s.par.arith = .exact → x.asRat = some q → num x = encRat q) ∧
    ∀ (a : Addr) (d : Word),
      (∀ w : Word, (a, w) ∈ registers → exec (.rd a d) s = .next { s with readData := some w }) ∧
      ((∀ w : Word, (a, w) ∉ registers) →
        exec (.rd a d) s = .next { s with err := s.err ||| 0b1000, readData := some 0 })

/-! ### PUSH (spec/46_sample_step.md) -/

/-- R1102, the whole of an accepted PUSH but what its hop sets (HopRunsExactlyWhenDue): the sample is written at w, both
phases advance by the PHASE_INC and RATIO the hop leaves, a phase that reaches 1 is decremented once, an input wrap
captures the grain centred at the new w, an output wrap places it before the read-back, which clears the cell at r, and
both outputs are the mix of that cell and of the oldest sample. Every register the host writes, every INIT register and the
windows are kept. The two phase tests follow the written comparison under f32 too, and the normalisation test is a
discrete decision: log 7 (I7, R10), the model's choice. The model's own epoch counts the PUSH (log 24). -/
def Obligations.AcceptedPushAdvancesTheStream : Prop :=
  ∀ (s : State) (d : Word), s.ready = true → d.extractLsb' 23 8 ≠ 0xFF → s.MemoryOk →
    ∃ t, exec (.push d) s = .next t ∧
      let ar := s.par.arith
      let one : Sys2Proof.Num := .bits 0x3F800000
      let phaseIn := Sys2Proof.Num.add ar s.phaseIn t.phaseInc
      let phaseOut := Sys2Proof.Num.add ar s.phaseOut (Sys2Proof.Num.mul ar t.phaseInc t.ratio)
      let wrapIn := Sys2Proof.Num.le ar one phaseIn
      let wrapOut := Sys2Proof.Num.le ar one phaseOut
      let advanced : State :=
        { t with
          fragSize := s.fragSize + 1
          outRd := s.outRd
          outL := s.outL
          outR := s.outR
          mem := { t.mem with ob := s.mem.ob, nb := s.mem.nb } }
      let placed := if wrapOut then placeGrain advanced else advanced
      let acc := placed.mem.ob.read s.outRd
      let nrm := placed.mem.nb.read s.outRd
      let wet :=
        if s.normEn && Sys2Proof.Num.decideLt ar ⟨s.epoch + 1, .normalise⟩ (Sys2Proof.Num.ofRat ar (1 / 2)) nrm then
          Sys2Proof.Num.div ar acc nrm
        else acc
      (∀ i, t.mem.input.read i = if i = s.inWr then .bits d else s.mem.input.read i) ∧
      t.inWr = (s.inWr + 1) % s.bufLen ∧ t.outRd = (s.outRd + 1) % s.bufLen ∧
      t.sampleCount = s.sampleCount + 1 ∧ t.epoch = s.epoch + 1 ∧
      t.phaseIn = (if wrapIn then Sys2Proof.Num.sub ar phaseIn one else phaseIn) ∧
      t.phaseOut = (if wrapOut then Sys2Proof.Num.sub ar phaseOut one else phaseOut) ∧
      t.fragSize = (if wrapOut then 0 else s.fragSize + 1) ∧
      (∀ j < s.bufLen, t.mem.frag.read j =
        if wrapIn then t.mem.input.read (((t.inWr : Int) - (s.bufLen / 2 : Nat) + j) % (s.bufLen : Int)).toNat
        else s.mem.frag.read j) ∧
      (wrapIn = false → t.mem.frag = s.mem.frag) ∧
      (∀ i, t.mem.ob.read i = if i = s.outRd then .bits 0 else placed.mem.ob.read i) ∧
      (∀ i, t.mem.nb.read i = if i = s.outRd then .bits 0 else placed.mem.nb.read i) ∧
      t.outL = Sys2Proof.Num.add ar (Sys2Proof.Num.mul ar s.mix wet)
        (Sys2Proof.Num.mul ar (Sys2Proof.Num.sub ar one s.mix) (t.mem.input.read t.inWr)) ∧
      t.outR = t.outL ∧
      t.par = s.par ∧ t.port = s.port ∧ t.readData = s.readData ∧
      t.normEn = s.normEn ∧ t.ready = s.ready ∧ t.err = s.err ∧ t.fs = s.fs ∧ t.fsAct = s.fsAct ∧
      t.nsize = s.nsize ∧ t.hopsize = s.hopsize ∧ t.nmin = s.nmin ∧ t.nmax = s.nmax ∧
      t.mix = s.mix ∧ t.shift = s.shift ∧ t.tune = s.tune ∧ t.amount = s.amount ∧ t.glide = s.glide ∧
      t.persist = s.persist ∧ t.root = s.root ∧ t.scale = s.scale ∧ t.mask = s.mask ∧
      t.mem.hann = s.mem.hann ∧ t.mem.cbw = s.mem.cbw ∧ t.mem.acwinv = s.mem.acwinv

/-- R1102, the whole state of a PUSH that runs no hop, no extraction and no placement. That the two phase tests follow the
written comparison under f32 too (I7), where R10 names the phase wraps, and that the normalisation test is a discrete
decision, free under f32 within EPS of 0.5, is log 7, and the epoch log 24: the model's choice. -/
def Obligations.PushWithoutHopOrWrapIsReadBack : Prop :=
  ∀ (s : State) (d : Word),
    let add := Sys2Proof.Num.add s.par.arith
    let sub := Sys2Proof.Num.sub s.par.arith
    let mul := Sys2Proof.Num.mul s.par.arith
    let one : Sys2Proof.Num := .bits 0x3F800000
    let half := Sys2Proof.Num.ofRat s.par.arith (1 / 2)
    let w := (s.inWr + 1) % s.bufLen
    let phaseIn := add s.phaseIn s.phaseInc
    let phaseOut := add s.phaseOut (mul s.phaseInc s.ratio)
    let acc := s.mem.ob.read s.outRd
    let nrm := s.mem.nb.read s.outRd
    let wet :=
      if s.normEn && Sys2Proof.Num.decideLt s.par.arith ⟨s.epoch + 1, .normalise⟩ half nrm then
        Sys2Proof.Num.div s.par.arith acc nrm
      else acc
    let dry := (s.mem.input.write s.inWr (.bits d)).read w
    let y := add (mul s.mix wet) (mul (sub one s.mix) dry)
    s.ready = true → d.extractLsb' 23 8 ≠ 0xFF → ¬ s.HopDue →
    Sys2Proof.Num.le s.par.arith one phaseIn = false → Sys2Proof.Num.le s.par.arith one phaseOut = false →
    exec (.push d) s = .next
      { s with
        mem := { s.mem with
          input := s.mem.input.write s.inWr (.bits d)
          ob := s.mem.ob.write s.outRd (.bits 0)
          nb := s.mem.nb.write s.outRd (.bits 0) }
        inWr := w
        outRd := (s.outRd + 1) % s.bufLen
        sampleCount := s.sampleCount + 1
        fragSize := s.fragSize + 1
        phaseIn := phaseIn
        phaseOut := phaseOut
        outL := y
        outR := y
        epoch := s.epoch + 1 }

/-- R1103, R1104 with R900 to R909: the hop runs exactly when it is due, from the state after the input write, in the order
of R1104, and otherwise every register that only a hop writes is kept. A hop is voiced when it has a candidate whose
confidence is at least 0.8 (R900). Three conventions under f32 are the model's: `decideLe` is the discrete decision of log 7
(free where the confidence is within EPS of 0.8), one for each hop (log 24); an integer or a constant,
1/24 among them, is rounded to binary32 before the operation (log 9); hopDur is the exact quotient, rounded once
(log 10). -/
def Obligations.HopRunsExactlyWhenDue : Prop :=
  ∀ (s t : State) (d : Word), s.ready = true → d.extractLsb' 23 8 ≠ 0xFF → exec (.push d) s = .next t →
    let ar := s.par.arith
    let add := Sys2Proof.Num.add ar
    let sub := Sys2Proof.Num.sub ar
    let mul := Sys2Proof.Num.mul ar
    let div := Sys2Proof.Num.div ar
    let pow := Sys2Proof.Num.pow ar
    let rat := Sys2Proof.Num.ofRat ar
    let zero : Sys2Proof.Num := .bits 0
    let one : Sys2Proof.Num := .bits 0x3F800000
    let e := estimate (s.withSample (.bits d))
    let site : Decision → Site := fun d => ⟨s.epoch + 1, d⟩
    let voiced := e.lag != 0 && Sys2Proof.Num.decideLe ar (site .voicing) (rat (4 / 5)) e.conf
    let q := rat t.qtarget.toNat
    let hopDur := rat (mkRat s.hopLen s.fsAct.toNat)
    let glideFactor :=
      if Sys2Proof.Num.lt ar zero s.glide then sub one (pow (rat (1 / 24)) (div hopDur s.glide)) else one
    let decayFactor :=
      if Sys2Proof.Num.lt ar zero s.persist then pow (rat (1 / 2)) (div hopDur s.persist) else zero
    (s.HopDue →
      t.hopCount = s.hopCount + 1 ∧
      t.estLag = BitVec.ofNat 32 e.lag ∧ t.estPeriod = e.period ∧ t.estPitch = e.pitch ∧ t.estConf = e.conf ∧
      t.qtarget = BitVec.ofNat 4 (quantize ar (s.epoch + 1) e.pitch s.mask) ∧
      t.wasVoiced = voiced ∧
      (s.wasVoiced = false → voiced = true →
        t.smooth =
          wrapTo ar (site .smoothWrap) (add (mul (sub one s.persistAmt) q) (mul s.persistAmt s.smooth)) (rat 12) ∧
        t.persistAmt = one) ∧
      (s.wasVoiced = true → voiced = true →
        t.smooth = wrapTo ar (site .smoothWrap)
          (add s.smooth (mul (wrappedSigned ar (site .glide) (sub q s.smooth)) glideFactor)) (rat 12) ∧
        t.persistAmt = s.persistAmt) ∧
      (voiced = false →
        t.smooth = wrapTo ar (site .smoothWrap) s.smooth (rat 12) ∧ t.persistAmt = mul s.persistAmt decayFactor) ∧
      t.correction = (if voiced then wrappedSigned ar (site .correction) (sub t.smooth e.pitch) else zero) ∧
      t.ratio = Sys2Proof.Num.exp2 ar (div (add s.shift (mul s.amount t.correction)) (rat 12)) ∧
      (voiced = true → t.periodNom = e.period ∧ t.phaseInc = div one (mul (rat s.fsAct.toNat) e.period)) ∧
      (voiced = false → t.periodNom = s.periodNom ∧ t.phaseInc = s.phaseInc)) ∧
    (¬ s.HopDue →
      t.hopCount = s.hopCount ∧ t.estLag = s.estLag ∧ t.estPeriod = s.estPeriod ∧ t.estPitch = s.estPitch ∧
      t.estConf = s.estConf ∧ t.qtarget = s.qtarget ∧ t.wasVoiced = s.wasVoiced ∧ t.smooth = s.smooth ∧
      t.persistAmt = s.persistAmt ∧ t.correction = s.correction ∧ t.ratio = s.ratio ∧
      t.periodNom = s.periodNom ∧ t.phaseInc = s.phaseInc)

/-- R508, as the invariant its derivation keeps: INIT empties the input history, an accepted PUSH puts its sample in front
of it, and no other transaction changes it. -/
def Obligations.InputRingHoldsTheHistory : Prop :=
  (∀ s t : State, 1400 ≤ s.fs.toNat → exec .init s = .next t → t.InputHolds []) ∧
  (∀ (s t : State) (d : Word) (xs : List Sys2Proof.Num), s.ready = true → d.extractLsb' 23 8 ≠ 0xFF → s.MemoryOk →
    s.inWr < s.bufLen → s.InputHolds xs → exec (.push d) s = .next t → t.InputHolds (.bits d :: xs)) ∧
  ∀ (i : Instr) (s t : State) (xs : List Sys2Proof.Num), (∀ d, i ≠ .push d) → i ≠ .init → s.InputHolds xs →
    exec i s = .next t → t.InputHolds xs

/-- R1012, R1408: with MIX = 0 the output of an accepted PUSH is the sample of N - 1 PUSH transactions before, and 0 where
that one does not exist. -/
def Obligations.MixZeroGivesTheDelayedInput : Prop :=
  ∀ (s t : State) (d : Word) (xs : List Sys2Proof.Num), s.par.arith = .exact → s.mix.val = 0 → s.ready = true →
    d.extractLsb' 23 8 ≠ 0xFF → s.MemoryOk → s.inWr < s.bufLen → s.InputHolds xs → exec (.push d) s = .next t →
    t.outL.val = ((Sys2Proof.Num.bits d :: xs).getD (s.bufLen - 1) Sys2Proof.Num.zero).val ∧ t.outR = t.outL

/-! ### The ring operations (spec/40_ring_buffers.md) -/

/-- R500: the cell of an offset, positive or negative, is the one of [0, N) that differs from it by a multiple of N. -/
def Obligations.RingIndexIsTheFloorMod : Prop :=
  ∀ (b : Store) (n : Nat) (k : Int), 0 < n → ∃ i < n, (n : Int) ∣ k - i ∧ ringRead b n k = b.read i ∧
    ∀ v : Sys2Proof.Num, ringWrite b n k v = b.write i v

/-- R505: an overlap-add at offset t adds the value to OB and the taper to NB at the cell fmod(r + N/2 + t, N), and every
other cell and register is kept. -/
def Obligations.OverlapAddWritesOneCell : Prop :=
  ∀ (s : State) (t : Int) (v g : Sys2Proof.Num), s.MemoryOk →
    let p := ((s.outRd + (s.bufLen / 2 : Nat) + t) % (s.bufLen : Int)).toNat
    let u := ringAccumulate t v g s
    (∀ i, u.mem.ob.read i = if i = p then Sys2Proof.Num.add s.par.arith (s.mem.ob.read p) v else s.mem.ob.read i) ∧
    (∀ i, u.mem.nb.read i = if i = p then Sys2Proof.Num.add s.par.arith (s.mem.nb.read p) g else s.mem.nb.read i) ∧
    u = { s with mem := { s.mem with ob := u.mem.ob, nb := u.mem.nb } }

/-- R506: the read-back returns the pair at r, clears both cells and advances r; nothing else changes. -/
def Obligations.ReadBackClearsAndAdvances : Prop :=
  ∀ s : State, s.MemoryOk →
    let u := (ringReadBack s).2
    (ringReadBack s).1 = (s.mem.ob.read s.outRd, s.mem.nb.read s.outRd) ∧
    (∀ i, u.mem.ob.read i = if i = s.outRd then .bits 0 else s.mem.ob.read i) ∧
    (∀ i, u.mem.nb.read i = if i = s.outRd then .bits 0 else s.mem.nb.read i) ∧
    u = { s with mem := { s.mem with ob := u.mem.ob, nb := u.mem.nb }, outRd := (s.outRd + 1) % s.bufLen }

/-! ### The shifter (spec/45_shifter.md) -/

/-- R1002, R1003: when PHASE_IN reaches 1 it is decremented once and every cell of FRAG takes the centred grain read;
below 1 nothing changes. That the test follows the written comparison under f32 too (I7 of
spec/93_implementation_defined.md), although R10 names the phase wraps among the decisions that may differ within EPS, is
the model's choice (log 7). -/
def Obligations.InputWrapCapturesTheGrain : Prop :=
  ∀ s : State, s.inWr < s.bufLen →
    (Sys2Proof.Num.le s.par.arith Sys2Proof.Num.one s.phaseIn = true →
      (inputWrap s).phaseIn = Sys2Proof.Num.sub s.par.arith s.phaseIn Sys2Proof.Num.one ∧
      (∀ j < s.bufLen, (inputWrap s).mem.frag.read j =
        s.mem.input.read (((s.inWr : Int) - (s.bufLen / 2 : Nat) + j) % (s.bufLen : Int)).toNat) ∧
      (∀ j, s.bufLen ≤ j → (inputWrap s).mem.frag.read j = .bits 0) ∧
      inputWrap s = { s with phaseIn := (inputWrap s).phaseIn, mem := { s.mem with frag := (inputWrap s).mem.frag } }) ∧
    (Sys2Proof.Num.le s.par.arith Sys2Proof.Num.one s.phaseIn = false → inputWrap s = s)

/-- R1005: a placement adds, at every cell, the contributions of all the positions that address it, and resets FRAG_SIZE.
The positions are those from -h to h - 1 with h the half of S. -/
def Obligations.PlacementAddsEveryPosition : Prop :=
  ∀ s : State, s.par.arith = .exact → s.MemoryOk →
    let samples := grainSamples s
    let h := samples / 2
    let cell : Int → Nat := fun t => ((s.outRd + (s.bufLen / 2 : Nat) + t) % (s.bufLen : Int)).toNat
    (∀ i, ((placeGrain s).mem.ob.read i).val = (s.mem.ob.read i).val +
      ∑ t ∈ (Finset.Ico (-h) h).filter (fun t => cell t = i), (fragmentAt s t).val * (taperAt s samples t).val) ∧
    (∀ i, ((placeGrain s).mem.nb.read i).val = (s.mem.nb.read i).val +
      ∑ t ∈ (Finset.Ico (-h) h).filter (fun t => cell t = i), (taperAt s samples t).val) ∧
    placeGrain s = { s with
      fragSize := 0, mem := { s.mem with ob := (placeGrain s).mem.ob, nb := (placeGrain s).mem.nb } }

/-- R1005, its grain length, for an existing real RATIO above 0: S is the floor of min(2 * FRAG_SIZE, N) / RATIO, and when
RATIO exceeds that grain duration nothing is placed but FRAG_SIZE is still reset. -/
def Obligations.GrainLengthIsTheFloor : Prop :=
  ∀ s : State, s.par.arith = .exact → s.ratio.Defined → 0 < s.ratio.val →
    grainSamples s = ⌊((min (2 * s.fragSize.toNat) s.bufLen : Nat) : ℝ) / s.ratio.val⌋ ∧
    (((min (2 * s.fragSize.toNat) s.bufLen : Nat) : ℝ) < s.ratio.val → placeGrain s = { s with fragSize := 0 })

/-- R1006, R1007: the taper of a position is the HANN cell N/2 + floor(t * N / S), which lies in [0, N), and the grain
value is the FRAG cell fmod(floor(RATIO * t), N), for an existing real RATIO. -/
def Obligations.TaperAndGrainIndices : Prop :=
  ∀ (s : State) (samples t : Int), s.par.arith = .exact → 0 < s.bufLen → s.bufLen % 2 = 0 →
    s.ratio.Defined → 0 < samples → -(samples / 2) ≤ t → t < samples / 2 →
    let i := (s.bufLen / 2 : Nat) + ⌊((t * s.bufLen : Int) : ℚ) / samples⌋
    0 ≤ i ∧ i < s.bufLen ∧ taperAt s samples t = s.mem.hann.read i.toNat ∧
    fragmentAt s t = s.mem.frag.read (⌊s.ratio.val * t⌋ % (s.bufLen : Int)).toNat

/-- R1009, R1010, R1011: the outputs are MIX * wet + (1 - MIX) * dry, with the wet sample divided by the normalisation sum
where NORM_EN is set and that sum, an existing real, is above one half, and the dry sample the one at w. -/
def Obligations.OutputIsTheMixOfWetAndDry : Prop :=
  ∀ s : State, s.par.arith = .exact → (s.mem.nb.read s.outRd).Defined →
    let acc := (s.mem.ob.read s.outRd).val
    let nrm := (s.mem.nb.read s.outRd).val
    (s.normEn = true → 1 / 2 < nrm →
      (readBackAndMix s).outL.val = s.mix.val * (acc / nrm) + (1 - s.mix.val) * (s.mem.input.read s.inWr).val) ∧
    (s.normEn = false ∨ nrm ≤ 1 / 2 →
      (readBackAndMix s).outL.val = s.mix.val * acc + (1 - s.mix.val) * (s.mem.input.read s.inWr).val) ∧
    (readBackAndMix s).outR = (readBackAndMix s).outL

/-! ### The estimator (spec/42_estimator.md) -/

/-- R702, R708: an input buffer of zeros has no candidate: lag 0, the period 1/700, confidence 0. -/
def Obligations.SilenceHasNoCandidate : Prop :=
  ∀ s : State, s.par.arith = .exact → (∀ i, s.mem.input.read i = .bits 0) →
    (estimate s).lag = 0 ∧ (estimate s).period.val = 1 / 700 ∧ (estimate s).conf.val = 0

/-- R704, R705, R706, on autocorrelation values that exist: a lag wins exactly when it is a peak of the range with a key
above 0, no peak of the range has a greater key, and no smaller one has an equal key. -/
def Obligations.SearchPicksTheFirstBestPeak : Prop :=
  ∀ (p : Params) (epoch : Nat) (rho acwinv : Nat → Sys2Proof.Num) (n nmin nmax lag : Nat), p.arith = .exact →
    (∀ m, (rho m).Defined) → (∀ m, (acwinv m).Defined) →
    let key : Nat → ℝ := fun m => match p.peakRank with
      | .raw => (rho m).val
      | .compensated | .compensatedPeak => (rho m).val * (acwinv m).val
    let v : Nat → ℝ := fun m => match p.peakRank with
      | .raw | .compensated => (rho m).val
      | .compensatedPeak => (rho m).val * (acwinv m).val
    let peak : Nat → Prop := fun m =>
      nmin ≤ m ∧ m ≤ nmax ∧ v (m - 1) < v m ∧ v (min (m + 1) (n - 1)) ≤ v m
    searchLag p epoch rho acwinv n nmin nmax = some lag ↔
      peak lag ∧ 0 < key lag ∧ ∀ m, peak m → key m ≤ key lag ∧ (m < lag → key m < key lag)

/-- R700, R702, R703, R707, R708, R709: Z is the circular autocorrelation of the windowed snapshot less S * S / N, rho its
quotient by Z[0] with rho[0] = 1, and the estimate that of the winning lag of the search on rho, or of none where Z[0] is
not above 0; with the period, the confidence and the pitch of either. The samples and the window are reals that exist. -/
def Obligations.EstimateOfTheWinningLag : Prop :=
  ∀ s : State, s.par.arith = .exact → (∀ i, (s.mem.input.read i).Defined) → (∀ i, (s.mem.cbw.read i).Defined) →
    0 < s.bufLen →
    let cell : Nat → Nat := fun k => (((s.inWr : Int) - 1 - k) % (s.bufLen : Int)).toNat
    let y : Nat → ℝ := fun k => (s.mem.input.read (cell k)).val * (s.mem.cbw.read k).val
    let total : ℝ := ∑ k ∈ Finset.range s.bufLen, y k
    let z : Nat → ℝ := fun m =>
      (∑ k ∈ Finset.range s.bufLen, y k * y ((k + m) % s.bufLen)) - total * total / s.bufLen
    let zNum := autocorr .exact (windowed s)
    let rho := rhoAt .exact zNum
    let winner := searchLag s.par s.epoch rho s.mem.acwinv.read s.bufLen s.nmin.toNat s.nmax.toNat
    let none' := estimateOf s rho s.mem.acwinv.read none
    let pitch : ℝ → ℝ := fun period => -12 * Real.logb 2 (440 * (2 : ℝ) ^ (s.tune.val / 12) * period)
    (∀ m < s.bufLen, (zNum.getD m Sys2Proof.Num.zero).val = z m ∧ (zNum.getD m Sys2Proof.Num.zero).Defined) ∧
    (rho 0).val = 1 ∧ (∀ m < s.bufLen, 0 < m → (rho m).val = z m / z 0) ∧
    (z 0 ≤ 0 → estimate s = none') ∧
    (0 < z 0 → estimate s = estimateOf s rho s.mem.acwinv.read winner ∧ ∀ m, (rho m).Defined) ∧
    (∀ lag : Nat, winner = some lag → s.nmin.toNat ≤ lag ∧ lag ≤ s.nmax.toNat) ∧
    (∀ lag : Nat,
      let won := estimateOf s rho s.mem.acwinv.read (some lag)
      won.lag = lag ∧ won.period.val = lag / s.fsAct.toNat ∧
      won.conf.val = (rho lag).val * (s.mem.acwinv.read lag).val ∧ won.pitch.val = pitch won.period.val) ∧
    none'.lag = 0 ∧ none'.period.val = 1 / 700 ∧ none'.conf.val = 0 ∧ none'.pitch.val = pitch (1 / 700)

/-! ### The quantizer (spec/43_quantizer.md) -/

/-- R800: the wrapped distance of an existing real pitch x is R800's formula; it lies in [0, 1], vanishes exactly where x is
the class plus a multiple of 12, and has period 12. -/
def Obligations.WrappedDistanceIsTriangular : Prop :=
  ∀ (site : Site) (x : Sys2Proof.Num) (c : Nat), x.Defined →
    let wd := (wrappedDistance .exact site x c).val
    wd = |(x.val - c) / 6 - 2 * ⌊(x.val - c) / 12 + 1 / 2⌋| ∧ 0 ≤ wd ∧ wd ≤ 1 ∧
    (wd = 0 ↔ ∃ k : Int, x.val - c = 12 * k) ∧
    ∀ (other : Site) (y : Sys2Proof.Num) (k : Int), y.Defined → y.val = x.val + 12 * k →
      (wrappedDistance .exact other y c).val = wd

/-- R801, R8: the wrapped signed distance of an existing real d is R801's formula and lies in [-6, 6); `wrapTo x p` of
existing reals is x less p times the floor of x / p, and lies in [0, p) for a p above 0. -/
def Obligations.WrappedSignedIsTheShortestPath : Prop :=
  (∀ (site : Site) (d : Sys2Proof.Num), d.Defined →
    let ws := (wrappedSigned .exact site d).val
    ws = d.val - 12 * ⌊d.val / 12 + 1 / 2⌋ ∧ -6 ≤ ws ∧ ws < 6) ∧
  ∀ (site : Site) (x p : Sys2Proof.Num), x.Defined → p.Defined →
    let w := (wrapTo .exact site x p).val
    (p.val ≠ 0 → w = x.val - p.val * ⌊x.val / p.val⌋) ∧ (0 < p.val → 0 ≤ w ∧ w < p.val)

/-- R805, R806: every class's score is MASK[c] - wd(x, c), and the target of an existing real pitch is a class whose score
no class exceeds and no later class equals. -/
def Obligations.QuantizePicksTheLastBestClass : Prop :=
  ∀ (epoch : Nat) (x : Sys2Proof.Num) (mask : BitVec 12), x.Defined →
    let score : Nat → ℝ := fun c =>
      (if mask.getLsbD c then 1 else 0) - |(x.val - c) / 6 - 2 * ⌊(x.val - c) / 12 + 1 / 2⌋|
    let q := quantize .exact epoch x mask
    (∀ c < 12, (classScore .exact epoch x mask c).val = score c) ∧
    q < 12 ∧ ∀ c < 12, score c ≤ score q ∧ (q < c → score c < score q)

/-! ### The smoother (spec/44_smoother.md) -/

/-- R904, R910: after k unvoiced hops PERSIST_AMT is multiplied by (1/2)^(hopDur / PERSIST) k times where PERSIST is above
0, and is 0 after the first one where it is not. -/
def Obligations.PersistDecayCompounds : Prop :=
  ∀ (s : State) (k : Nat), s.par.arith = .exact → s.persist.Defined →
    (0 < s.persist.val → (persistDecay^[k] s).persistAmt.val =
      s.persistAmt.val * ((1 / 2 : ℝ) ^ (((s.hopLen : ℝ) / s.fsAct.toNat) / s.persist.val)) ^ k) ∧
    (s.persist.val ≤ 0 → (persistDecay^[k + 1] s).persistAmt.val = 0)

/-- R903, R905, R910: with GLIDE not above 0 a voiced-to-voiced hop sets SMOOTH, an existing real, to the target. -/
def Obligations.GlideSnapsWithoutGlideTime : Prop :=
  ∀ s : State, s.par.arith = .exact → s.glide.Defined → s.glide.val ≤ 0 → s.smooth.Defined →
    s.qtarget.toNat < 12 → s.wasVoiced = true →
    (recordVoicing true (voicingBranch true s)).smooth.val = s.qtarget.toNat

/-- R907, R908, R910: CORRECTION is the wrapped signed distance from EST_PITCH to SMOOTH of a voiced hop, existing reals, and
lies in [-6, 6); it is 0 of an unvoiced one. RATIO is 2 to the power (SHIFT + AMOUNT * CORRECTION) / 12, and is above 0. -/
def Obligations.RatioIsThePowerOfTwo : Prop :=
  ∀ (s : State) (voiced : Bool), s.par.arith = .exact →
    let correction := (setRatio voiced s).correction.val
    let d := s.smooth.val - s.estPitch.val
    (voiced = true → s.smooth.Defined → s.estPitch.Defined →
      correction = d - 12 * ⌊d / 12 + 1 / 2⌋ ∧ -6 ≤ correction ∧ correction < 6) ∧
    (voiced = false → correction = 0) ∧
    (setRatio voiced s).ratio.val = (2 : ℝ) ^ ((s.shift.val + s.amount.val * correction) / 12) ∧
    0 < (setRatio voiced s).ratio.val

/-! ### The numeric domain (spec/00_scope.md R9, R11) -/

/-- R9 under ARITH = exact: the operations denote those of the reals, on every value. -/
def Obligations.ExactArithmeticDenotesTheReals : Prop :=
  ∀ a b : Sys2Proof.Num,
    (Sys2Proof.Num.add .exact a b).val = a.val + b.val ∧ (Sys2Proof.Num.sub .exact a b).val = a.val - b.val ∧
    (Sys2Proof.Num.mul .exact a b).val = a.val * b.val ∧ (Sys2Proof.Num.div .exact a b).val = a.val / b.val ∧
    (Sys2Proof.Num.cos .exact a).val = Real.cos a.val ∧ (Sys2Proof.Num.log2 .exact a).val = Real.logb 2 a.val ∧
    (Sys2Proof.Num.exp2 .exact a).val = (2 : ℝ) ^ a.val ∧ (Sys2Proof.Num.pow .exact a b).val = a.val ^ b.val ∧
    (Sys2Proof.Num.pi .exact).val = Real.pi ∧ ∀ q : Rat, (Sys2Proof.Num.ofRat .exact q).val = q

/-- R7, R9, R11, R12 under ARITH = exact: the decisions of reals that exist are those of the reals themselves, irrational or
not, and the pattern of one is its enc32: that of the rational where it is one, and else the common one of two rationals
with the real between them. Of a real that does not exist (log 23) nothing is said. Under f32 a value is its own pattern. -/
def Obligations.ExactDecisionsAreTrueOrFree : Prop :=
  (∀ (site : Site) (a b : Sys2Proof.Num), a.Defined → b.Defined →
    (Sys2Proof.Num.lt .exact a b = true ↔ a.val < b.val) ∧ (Sys2Proof.Num.le .exact a b = true ↔ a.val ≤ b.val) ∧
    (Sys2Proof.Num.decideLt .exact site a b = true ↔ a.val < b.val) ∧
    (Sys2Proof.Num.decideLe .exact site a b = true ↔ a.val ≤ b.val) ∧
    Sys2Proof.Num.decideFloorInt .exact site a = ⌊a.val⌋ ∧
    (Sys2Proof.Num.decideFloor .exact site a).val = ⌊a.val⌋ ∧
    Sys2Proof.Num.toBits .exact a = encReal a.val) ∧
  (∀ q : Rat, encReal q = encRat q) ∧
  (∀ x : ℝ, Irrational x → ∃ p q : Rat, p < x ∧ x < q ∧ encRat p = encReal x ∧ encRat q = encReal x) ∧
  ∀ w : Word, Sys2Proof.Num.toBits .f32 (.bits w) = w

/-- R11: enc32 of a rational below the overflow threshold is finite, no finite pattern lies nearer, and where another
value lies as near, the fraction is even. -/
def Obligations.Enc32RoundsToNearestEven : Prop :=
  ∀ q : Rat, |q| < 2 ^ 128 - 2 ^ 103 →
    isFinite32 (encRat q) = true ∧
    ∀ w : Word, isFinite32 w = true → |dec32 (encRat q) - q| ≤ |dec32 w - q| ∧
      (|dec32 w - q| = |dec32 (encRat q) - q| → dec32 w ≠ dec32 (encRat q) → fracField (encRat q) % 2 = 0)

/-- R11: a finite pattern other than that of -0.0 is the encoding of its own value. -/
def Obligations.Enc32InvertsDec32 : Prop :=
  ∀ w : Word, isFinite32 w = true → w ≠ 0x80000000 → encRat (dec32 w) = w

/-- R9 under ARITH = f32: an operation on finite values whose exact result is not zero gives the encoding of that exact
result, rounded once. -/
def Obligations.F32OperationsRoundOnce : Prop :=
  ∀ a b : Word, isFinite32 a = true → isFinite32 b = true →
    (dec32 a + dec32 b ≠ 0 → Sys2Proof.Num.add .f32 (.bits a) (.bits b) = .bits (encRat (dec32 a + dec32 b))) ∧
    (dec32 a - dec32 b ≠ 0 → Sys2Proof.Num.sub .f32 (.bits a) (.bits b) = .bits (encRat (dec32 a - dec32 b))) ∧
    (dec32 a * dec32 b ≠ 0 → Sys2Proof.Num.mul .f32 (.bits a) (.bits b) = .bits (encRat (dec32 a * dec32 b))) ∧
    (dec32 a ≠ 0 → dec32 b ≠ 0 → Sys2Proof.Num.div .f32 (.bits a) (.bits b) = .bits (encRat (dec32 a / dec32 b)))

/-- I4 of spec/93_implementation_defined.md: under f32 the comparison of a confidence with the nearest binary32 value of 0.8
decides as the one with 4/5, for every finite confidence. (`isVoiced` decides by this comparison where the confidence is
not within EPS of 0.8: log 7.) -/
def Obligations.F32VoicingThresholdIsFourFifths : Prop :=
  ∀ w : Word, isFinite32 w = true →
    (Sys2Proof.Num.le .f32 (Sys2Proof.Num.ofRat .f32 (4 / 5)) (.bits w) = true ↔ 4 / 5 ≤ dec32 w)

/-! ### What every transaction keeps -/

/-- The memory keeps its canonical form at every step (log 13). -/
def Obligations.StepKeepsTheMemoryCanonical : Prop :=
  ∀ s t : State, s.MemoryOk → step s = .next t → t.MemoryOk

/-- The sizes, the lag bounds and the cursors stay those of the last INIT (R2, R5, R39, R50, R507), and every listed cell
stays inside its array (R20, R303), at every step. -/
def Obligations.StepKeepsTheGeometry : Prop :=
  ∀ s t : State, s.GeometryOk → s.CellsOk → s.MemoryOk → step s = .next t → t.GeometryOk ∧ t.CellsOk

/-- ROOT and SCALE stay legal and MASK stays the selected row rotated by ROOT (R40, R48, R49, R803); the f32 parameters stay
values of finite patterns (R1404); the two outputs stay equal (R56), at every step. -/
def Obligations.StepKeepsTheHostRegistersLegal : Prop :=
  ∀ s t : State, s.ScaleOk → s.OperandsOk → s.OutputsEqual → step s = .next t →
    t.ScaleOk ∧ t.OperandsOk ∧ t.OutputsEqual

/-- At every step, under ARITH = f32 every stored value stays a binary32 value (R9, R12), and under ARITH = exact, with the
geometry of the last INIT, every stored value stays a real that exists, and RATIO above 0 in READY: so the decisions of a
run are those of the reals (ExactDecisionsAreTrueOrFree), and nothing that log 23 leaves free occurs in it. -/
def Obligations.StepKeepsTheNumberFormat : Prop :=
  ∀ s t : State, s.FormatOk → (s.par.arith = .exact → s.GeometryOk) → step s = .next t → t.FormatOk

/-- The state after power-on reset meets every invariant the other statements keep. That the arrays have nothing listed
(MemoryOk, CellsOk, FormatOk), of which R1400 gives no content, is log 13, and that ARITH is exact there is log 3: the
model's choices. -/
def Obligations.ResetMeetsTheInvariants : Prop :=
  State.reset.MemoryOk ∧ State.reset.GeometryOk ∧ State.reset.CellsOk ∧ State.reset.ScaleOk ∧
  State.reset.OperandsOk ∧ State.reset.OutputsEqual ∧ State.reset.FormatOk

/-- R14, R17, R1307: no transaction leaves READY and only a successful INIT enters it; VOICED changes only by INIT or by the
hop of an accepted PUSH. -/
def Obligations.ModeAndVoicingChangeOnlyAsRuled : Prop :=
  ∀ (i : Instr) (s t : State), exec i s = .next t →
    (s.ready = true → t.ready = true) ∧
    (s.ready = false → t.ready = true → i = .init ∧ 1400 ≤ s.fs.toNat) ∧
    (t.wasVoiced ≠ s.wasVoiced → (i = .init ∧ 1400 ≤ s.fs.toNat) ∨
      ∃ d : Word, i = .push d ∧ s.ready = true ∧ d.extractLsb' 23 8 ≠ 0xFF ∧ s.HopDue)

/-- R15, R19, R38, R39, R40, R509: each host register changes only by its own write, the configuration only by INIT, and
the engine's registers and arrays only by INIT and PUSH; the open parameters never change (log 3), and the model's epoch
only by PUSH (log 24). -/
def Obligations.StateChangesOnlyByItsOwners : Prop :=
  ∀ (i : Instr) (s t : State), exec i s = .next t →
    t.par = s.par ∧ t.port = s.port ∧
    (t.mix ≠ s.mix → ∃ d, i = .wrMix d) ∧ (t.shift ≠ s.shift → ∃ d, i = .wrShift d) ∧
    (t.tune ≠ s.tune → ∃ d, i = .wrTune d) ∧ (t.amount ≠ s.amount → ∃ d, i = .wrAmount d) ∧
    (t.glide ≠ s.glide → ∃ d, i = .wrGlide d) ∧ (t.persist ≠ s.persist → ∃ d, i = .wrPersist d) ∧
    (t.root ≠ s.root → ∃ d, i = .wrRoot d) ∧ (t.scale ≠ s.scale → ∃ d, i = .wrScale d) ∧
    (t.mask ≠ s.mask → ∃ d, i = .wrRoot d ∨ i = .wrScale d) ∧
    (t.normEn ≠ s.normEn → ∃ d, i = .wrCtrl d) ∧ (t.fs ≠ s.fs → ∃ d, i = .wrFs d) ∧
    (t.readData ≠ s.readData → ∃ a d, i = .rd a d) ∧ (t.epoch ≠ s.epoch → ∃ d, i = .push d) ∧
    (i ≠ .init → t.fsAct = s.fsAct ∧ t.nsize = s.nsize ∧ t.hopsize = s.hopsize ∧ t.nmin = s.nmin ∧ t.nmax = s.nmax) ∧
    (i ≠ .init → (∀ d, i ≠ .push d) →
      t.mem = s.mem ∧ t.outL = s.outL ∧ t.outR = s.outR ∧ t.estLag = s.estLag ∧ t.estPeriod = s.estPeriod ∧
      t.estPitch = s.estPitch ∧ t.estConf = s.estConf ∧ t.qtarget = s.qtarget ∧ t.smooth = s.smooth ∧
      t.persistAmt = s.persistAmt ∧ t.correction = s.correction ∧ t.ratio = s.ratio ∧ t.periodNom = s.periodNom ∧
      t.phaseInc = s.phaseInc ∧ t.phaseIn = s.phaseIn ∧ t.phaseOut = s.phaseOut ∧ t.fragSize = s.fragSize ∧
      t.inWr = s.inWr ∧ t.outRd = s.outRd ∧ t.sampleCount = s.sampleCount ∧ t.hopCount = s.hopCount)
end

