-- ==== Sys2Proof/Laws/Decode.lean ====
section
/-! SUPPORT. The fields of a transaction word and the two masks of the opcode table (spec/30_encoding.md R400, R403). -/

namespace Sys2Proof

/-- The mask of a specific write row keeps W and A (R403). -/
theorem Txn.make_and_header (write : Bool) (a : Addr) (d : Word) :
    Txn.make write a d &&& 0xFF00000000#40 = Txn.make write a 0 := by
  have h : (0xFF00000000#40) = (BitVec.ofBool true ++ 0x7F#7 ++ 0#32 : BitVec 40) := by decide
  have ones : 0x7F#7 = BitVec.allOnes 7 := by decide
  have one : BitVec.ofBool true = BitVec.allOnes 1 := by decide
  unfold Txn.make
  rw [h, BitVec.and_append, BitVec.and_append, ones, one, BitVec.and_allOnes, BitVec.and_allOnes, BitVec.and_zero]
  rfl

/-- The mask of the last two rows keeps W (R403). -/
theorem Txn.make_and_write (write : Bool) (a : Addr) (d : Word) :
    Txn.make write a d &&& 0x8000000000#40 = Txn.make write 0 0 := by
  have h : (0x8000000000#40) = (BitVec.ofBool true ++ 0#7 ++ 0#32 : BitVec 40) := by decide
  have one : BitVec.ofBool true = BitVec.allOnes 1 := by decide
  unfold Txn.make
  rw [h, BitVec.and_append, BitVec.and_append, one, BitVec.and_allOnes, BitVec.and_zero, BitVec.and_zero]
  rfl

@[simp] theorem Txn.data_make (write : Bool) (a : Addr) (d : Word) : (Txn.make write a d).data = d := by
  unfold Txn.make Txn.data
  exact BitVec.extractLsb'_append_eq_right

@[simp] theorem Txn.addr_make (write : Bool) (a : Addr) (d : Word) : (Txn.make write a d).addr = a := by
  unfold Txn.make Txn.addr
  rw [BitVec.extractLsb'_append_eq_of_le (by decide)]
  exact BitVec.extractLsb'_append_eq_right

@[simp] theorem Txn.isWrite_make (write : Bool) (a : Addr) (d : Word) : (Txn.make write a d).isWrite = write := by
  unfold Txn.make Txn.isWrite
  rw [BitVec.getLsbD_append, if_neg (by decide), BitVec.getLsbD_append, if_neg (by decide)]
  cases write <;> rfl

/-- A word is its three fields (R400). -/
theorem Txn.make_fields (w : Txn) : Txn.make w.isWrite w.addr w.data = w := by
  refine BitVec.eq_of_getLsbD_eq fun i hi => ?_
  unfold Txn.make Txn.isWrite Txn.addr Txn.data
  rw [BitVec.getLsbD_append]
  split
  · rename_i h
    simp [h]
  · rename_i h
    rw [BitVec.getLsbD_append]
    split
    · rename_i h'
      rw [BitVec.getLsbD_extractLsb']
      simp only [h', decide_true, Bool.true_and]
      congr 1
      omega
    · have : i = 39 := by omega
      subst this
      cases w.getLsbD 39 <;> rfl

end Sys2Proof
end

