-- ==== Sys2Proof/Laws/Encoding.lean ====
section
/-! SUPPORT. `encReal` of a real (spec/00_scope.md R11): it extends `encRat`, and rounding is monotone. -/

namespace Sys2Proof

theorem roundUnits_le (m : Nat) (s : Bool) : roundUnits m s ≤ 0x7F800000 := min_le_right _ _

/-- The pattern that rounding gives before the overflow test, from the kept bits. -/
theorem roundUnits_eq (m : Nat) (s : Bool) : ∃ u ≤ 1, roundUnits m s =
    min ((max 1 (Nat.log2 m - 23) - 1) * 2 ^ 23 + m / 2 ^ max 1 (Nat.log2 m - 23) + u) 0x7F800000 := by
  unfold roundUnits
  dsimp only
  split
  · exact ⟨1, le_rfl, rfl⟩
  · exact ⟨0, by omega, rfl⟩

/-- Rounding is monotone: in the units, and in the part of a unit above them. -/
theorem roundUnits_mono {m n : Nat} {s t : Bool} (h : m < n ∨ m = n ∧ (s = true → t = true)) :
    roundUnits m s ≤ roundUnits n t := by
  have mn : m ≤ n := by omega
  have logs : Nat.log2 m ≤ Nat.log2 n := by
    rcases Nat.eq_zero_or_pos m with rfl | p
    · simp
    · rw [Nat.le_log2 (by omega)]
      exact (Nat.log2_self_le p.ne').trans mn
  rcases Nat.lt_or_ge (max 1 (Nat.log2 m - 23)) (max 1 (Nat.log2 n - 23)) with lt | ge
  · -- another binade
    obtain ⟨u, hu, e⟩ := roundUnits_eq m s
    obtain ⟨v, -, f⟩ := roundUnits_eq n t
    rw [e, f]
    refine min_le_min ?_ le_rfl
    have a : m / 2 ^ max 1 (Nat.log2 m - 23) < 2 ^ 24 := by
      rw [Nat.div_lt_iff_lt_mul (by positivity), ← pow_add]
      refine lt_of_lt_of_le Nat.lt_log2_self (Nat.pow_le_pow_right (by norm_num) (by omega))
    have b : 2 ^ 23 ≤ n / 2 ^ max 1 (Nat.log2 n - 23) := by
      rw [Nat.le_div_iff_mul_le (by positivity), ← pow_add]
      refine le_trans (Nat.pow_le_pow_right (by norm_num) (by omega)) (Nat.log2_self_le (n := n) (by rintro rfl; simp at lt))
    have i1 : 1 ≤ max 1 (Nat.log2 m - 23) := by omega
    generalize max 1 (Nat.log2 m - 23) = i at *
    generalize max 1 (Nat.log2 n - 23) = j at *
    generalize m / 2 ^ i = x at *
    generalize n / 2 ^ j = y at *
    omega
  · -- one binade
    have same : max 1 (Nat.log2 m - 23) = max 1 (Nat.log2 n - 23) := by omega
    unfold roundUnits
    dsimp only
    rw [same]
    have pos : 1 ≤ max 1 (Nat.log2 n - 23) := by omega
    generalize max 1 (Nat.log2 n - 23) = j at *
    refine min_le_min ?_ le_rfl
    have dm := Nat.div_add_mod m (2 ^ j)
    have dn := Nat.div_add_mod n (2 ^ j)
    have lm := Nat.mod_lt m (show 0 < 2 ^ j by positivity)
    have ln := Nat.mod_lt n (show 0 < 2 ^ j by positivity)
    have half : 2 * 2 ^ (j - 1) = 2 ^ j := by rw [← pow_succ']; congr 1; omega
    have q : m / 2 ^ j ≤ n / 2 ^ j := Nat.div_le_div_right mn
    rcases Nat.lt_or_ge (m / 2 ^ j) (n / 2 ^ j) with lt | ge
    · split <;> split <;> omega
    · have e : m / 2 ^ j = n / 2 ^ j := by omega
      rw [e] at dm ⊢
      have r : m % 2 ^ j ≤ n % 2 ^ j := by omega
      generalize 2 ^ (j - 1) = c at *
      generalize n / 2 ^ j = k at *
      simp only [Bool.or_eq_true, decide_eq_true_eq, Bool.and_eq_true, beq_iff_eq]
      split
      · rename_i up
        rw [if_pos]
        rcases up with up | ⟨eq, up⟩
        · left; omega
        · rcases Nat.lt_or_ge c (n % 2 ^ j) with c1 | c1
          · exact .inl c1
          · right
            have mm : m % 2 ^ j = n % 2 ^ j := by omega
            have mn' : m = n := by rw [← dm, ← dn, mm]
            refine ⟨by omega, ?_⟩
            rcases up with up | up
            · left
              rcases h with h | h
              · omega
              · exact h.2 up
            · exact .inr up
      · omega

/-- The magnitude pattern of a magnitude of `u` units. -/
noncomputable def magnitudeReal (u : ℝ) : Nat := by
  classical exact roundUnits ⌊u⌋₊ (decide ((⌊u⌋₊ : ℝ) ≠ u))

theorem magnitudeReal_mono {u v : ℝ} (h0 : 0 ≤ u) (h : u ≤ v) : magnitudeReal u ≤ magnitudeReal v := by
  apply roundUnits_mono
  rcases Nat.lt_or_ge ⌊u⌋₊ ⌊v⌋₊ with lt | ge
  · exact .inl lt
  · have e : ⌊u⌋₊ = ⌊v⌋₊ := le_antisymm (Nat.floor_mono h) ge
    refine .inr ⟨e, fun hs => ?_⟩
    rw [decide_eq_true_eq] at hs ⊢
    have a : (⌊u⌋₊ : ℝ) < u := lt_of_le_of_ne (Nat.floor_le h0) hs
    rw [← e]
    exact (a.trans_le h).ne

theorem magnitudeReal_lt (u : ℝ) : magnitudeReal u < 2 ^ 31 :=
  lt_of_le_of_lt (roundUnits_le _ _) (by norm_num)

open Classical in
theorem encReal_eq (x : ℝ) :
    encReal x = withSign (decide (x < 0)) (BitVec.ofNat 32 (magnitudeReal (|x| * 2 ^ 150))) := rfl

/-- The encoding of a rational is that of the real it is. -/
theorem encReal_ratCast (q : Rat) : encReal q = encRat q := by
  have d : (0 : ℝ) < q.den := by exact_mod_cast q.den_pos
  have units : |(q : ℝ)| * 2 ^ 150 = ((q.num.natAbs * 2 ^ 150 : Nat) : ℝ) / (q.den : Nat) := by
    rw [Rat.cast_def, abs_div, abs_of_pos d]
    push_cast
    rw [Nat.cast_natAbs, Int.cast_abs]
    ring
  have fl : ⌊|(q : ℝ)| * 2 ^ 150⌋₊ = q.num.natAbs * 2 ^ 150 / q.den := by
    rw [units, Nat.floor_div_natCast, Nat.floor_natCast]
  have sticky : ((q.num.natAbs * 2 ^ 150 / q.den : Nat) : ℝ) ≠ |(q : ℝ)| * 2 ^ 150 ↔
      q.num.natAbs * 2 ^ 150 % q.den ≠ 0 := by
    rw [not_iff_not, units, eq_div_iff d.ne', ← Nat.dvd_iff_mod_eq_zero]
    constructor
    · intro h
      exact ⟨q.num.natAbs * 2 ^ 150 / q.den, by rw [mul_comm q.den]; exact_mod_cast h.symm⟩
    · intro h
      exact_mod_cast Nat.div_mul_cancel h
  have neg : (q : ℝ) < 0 ↔ q < 0 := by exact_mod_cast Iff.rfl
  unfold encReal encRat magnitude32
  dsimp only
  rw [fl]
  refine congrArg₂ withSign (decide_eq_decide.2 neg) (congrArg (BitVec.ofNat 32) (congrArg (roundUnits _) ?_))
  rw [Bool.eq_iff_iff, decide_eq_true_eq, sticky, bne_iff_ne]

theorem withSign_toNat (s : Bool) {n : Nat} (h : n < 2 ^ 31) :
    (withSign s (BitVec.ofNat 32 n)).toNat = n + if s then 2 ^ 31 else 0 := by
  cases s
  · simp [withSign]; omega
  · simp only [withSign, if_true, BitVec.toNat_or, BitVec.toNat_ofNat]
    rw [Nat.mod_eq_of_lt (by omega : n < 2 ^ 32)]
    have := Nat.two_pow_add_eq_or_of_lt h 1
    rw [mul_one] at this
    rw [add_comm n, this]

/-- Between two rationals of one pattern every real has that pattern. -/
theorem encReal_between {p q : Rat} {x : ℝ} (h1 : (p : ℝ) ≤ x) (h2 : x ≤ (q : ℝ)) (e : encRat p = encRat q) :
    encReal x = encRat p := by
  classical
  rw [← encReal_ratCast, ← encReal_ratCast] at e
  rw [← encReal_ratCast]
  simp only [encReal_eq] at e ⊢
  have t := congrArg BitVec.toNat e
  rw [withSign_toNat _ (magnitudeReal_lt _), withSign_toNat _ (magnitudeReal_lt _)] at t
  have lp := magnitudeReal_lt (|(p : ℝ)| * 2 ^ 150)
  have lq := magnitudeReal_lt (|(q : ℝ)| * 2 ^ 150)
  have scale {a b : ℝ} (h : |a| ≤ |b|) : magnitudeReal (|a| * 2 ^ 150) ≤ magnitudeReal (|b| * 2 ^ 150) :=
    magnitudeReal_mono (by positivity) (mul_le_mul_of_nonneg_right h (by positivity))
  rcases lt_or_ge (p : ℝ) 0 with pn | pp
  · have qn : (q : ℝ) < 0 := by
      by_contra c
      simp only [pn, c, decide_true, decide_false, if_true, Bool.false_eq_true, if_false] at t
      omega
    have xn : x < 0 := h2.trans_lt qn
    have a := scale (a := x) (b := p) (by rw [abs_of_neg xn, abs_of_neg pn]; linarith)
    have b := scale (a := q) (b := x) (by rw [abs_of_neg xn, abs_of_neg qn]; linarith)
    simp only [pn, qn, xn, decide_true, if_true] at t ⊢
    rw [show magnitudeReal (|x| * 2 ^ 150) = magnitudeReal (|(p : ℝ)| * 2 ^ 150) by omega]
  · have xp : 0 ≤ x := pp.trans h1
    have qp : (0 : ℝ) ≤ q := xp.trans h2
    have a := scale (a := p) (b := x) (by rw [abs_of_nonneg xp, abs_of_nonneg pp]; exact h1)
    have b := scale (a := x) (b := q) (by rw [abs_of_nonneg xp, abs_of_nonneg qp]; exact h2)
    simp only [not_lt.2 pp, not_lt.2 qp, not_lt.2 xp, decide_false, Bool.false_eq_true, if_false] at t ⊢
    rw [show magnitudeReal (|x| * 2 ^ 150) = magnitudeReal (|(p : ℝ)| * 2 ^ 150) by omega]

end Sys2Proof
end

