-- ==== Sys2Proof/Laws/State.lean ====
section
/-! SUPPORT. What each named update of the state leaves as it was: one lemma for each field (spec/60_exceptions.md R1301,
spec/40_ring_buffers.md R509, spec/44_smoother.md R901 to R909, spec/45_shifter.md R1000 to R1003). -/

namespace Sys2Proof.Machine

/-! ### site -/

@[simp] theorem State.site_eq (s : State) (d : Decision) : s.site d = ⟨s.epoch, d⟩ := rfl

/-! ### raiseError -/

@[simp] theorem raiseError_par (b : ErrBit) (s : State) : (raiseError b s).par = s.par := rfl
@[simp] theorem raiseError_port (b : ErrBit) (s : State) : (raiseError b s).port = s.port := rfl
@[simp] theorem raiseError_readData (b : ErrBit) (s : State) : (raiseError b s).readData = s.readData := rfl
@[simp] theorem raiseError_normEn (b : ErrBit) (s : State) : (raiseError b s).normEn = s.normEn := rfl
@[simp] theorem raiseError_ready (b : ErrBit) (s : State) : (raiseError b s).ready = s.ready := rfl
@[simp] theorem raiseError_wasVoiced (b : ErrBit) (s : State) : (raiseError b s).wasVoiced = s.wasVoiced := rfl
@[simp] theorem raiseError_fs (b : ErrBit) (s : State) : (raiseError b s).fs = s.fs := rfl
@[simp] theorem raiseError_fsAct (b : ErrBit) (s : State) : (raiseError b s).fsAct = s.fsAct := rfl
@[simp] theorem raiseError_nsize (b : ErrBit) (s : State) : (raiseError b s).nsize = s.nsize := rfl
@[simp] theorem raiseError_hopsize (b : ErrBit) (s : State) : (raiseError b s).hopsize = s.hopsize := rfl
@[simp] theorem raiseError_nmin (b : ErrBit) (s : State) : (raiseError b s).nmin = s.nmin := rfl
@[simp] theorem raiseError_nmax (b : ErrBit) (s : State) : (raiseError b s).nmax = s.nmax := rfl
@[simp] theorem raiseError_mix (b : ErrBit) (s : State) : (raiseError b s).mix = s.mix := rfl
@[simp] theorem raiseError_shift (b : ErrBit) (s : State) : (raiseError b s).shift = s.shift := rfl
@[simp] theorem raiseError_tune (b : ErrBit) (s : State) : (raiseError b s).tune = s.tune := rfl
@[simp] theorem raiseError_amount (b : ErrBit) (s : State) : (raiseError b s).amount = s.amount := rfl
@[simp] theorem raiseError_glide (b : ErrBit) (s : State) : (raiseError b s).glide = s.glide := rfl
@[simp] theorem raiseError_persist (b : ErrBit) (s : State) : (raiseError b s).persist = s.persist := rfl
@[simp] theorem raiseError_root (b : ErrBit) (s : State) : (raiseError b s).root = s.root := rfl
@[simp] theorem raiseError_scale (b : ErrBit) (s : State) : (raiseError b s).scale = s.scale := rfl
@[simp] theorem raiseError_mask (b : ErrBit) (s : State) : (raiseError b s).mask = s.mask := rfl
@[simp] theorem raiseError_outL (b : ErrBit) (s : State) : (raiseError b s).outL = s.outL := rfl
@[simp] theorem raiseError_outR (b : ErrBit) (s : State) : (raiseError b s).outR = s.outR := rfl
@[simp] theorem raiseError_estLag (b : ErrBit) (s : State) : (raiseError b s).estLag = s.estLag := rfl
@[simp] theorem raiseError_estPeriod (b : ErrBit) (s : State) : (raiseError b s).estPeriod = s.estPeriod := rfl
@[simp] theorem raiseError_estPitch (b : ErrBit) (s : State) : (raiseError b s).estPitch = s.estPitch := rfl
@[simp] theorem raiseError_estConf (b : ErrBit) (s : State) : (raiseError b s).estConf = s.estConf := rfl
@[simp] theorem raiseError_qtarget (b : ErrBit) (s : State) : (raiseError b s).qtarget = s.qtarget := rfl
@[simp] theorem raiseError_smooth (b : ErrBit) (s : State) : (raiseError b s).smooth = s.smooth := rfl
@[simp] theorem raiseError_persistAmt (b : ErrBit) (s : State) : (raiseError b s).persistAmt = s.persistAmt := rfl
@[simp] theorem raiseError_correction (b : ErrBit) (s : State) : (raiseError b s).correction = s.correction := rfl
@[simp] theorem raiseError_ratio (b : ErrBit) (s : State) : (raiseError b s).ratio = s.ratio := rfl
@[simp] theorem raiseError_periodNom (b : ErrBit) (s : State) : (raiseError b s).periodNom = s.periodNom := rfl
@[simp] theorem raiseError_phaseInc (b : ErrBit) (s : State) : (raiseError b s).phaseInc = s.phaseInc := rfl
@[simp] theorem raiseError_phaseIn (b : ErrBit) (s : State) : (raiseError b s).phaseIn = s.phaseIn := rfl
@[simp] theorem raiseError_phaseOut (b : ErrBit) (s : State) : (raiseError b s).phaseOut = s.phaseOut := rfl
@[simp] theorem raiseError_fragSize (b : ErrBit) (s : State) : (raiseError b s).fragSize = s.fragSize := rfl
@[simp] theorem raiseError_inWr (b : ErrBit) (s : State) : (raiseError b s).inWr = s.inWr := rfl
@[simp] theorem raiseError_outRd (b : ErrBit) (s : State) : (raiseError b s).outRd = s.outRd := rfl
@[simp] theorem raiseError_sampleCount (b : ErrBit) (s : State) : (raiseError b s).sampleCount = s.sampleCount := rfl
@[simp] theorem raiseError_hopCount (b : ErrBit) (s : State) : (raiseError b s).hopCount = s.hopCount := rfl
@[simp] theorem raiseError_epoch (b : ErrBit) (s : State) : (raiseError b s).epoch = s.epoch := rfl
@[simp] theorem raiseError_mem (b : ErrBit) (s : State) : (raiseError b s).mem = s.mem := rfl

/-! ### respond -/

@[simp] theorem respond_par (w : Word) (s : State) : (respond w s).par = s.par := rfl
@[simp] theorem respond_port (w : Word) (s : State) : (respond w s).port = s.port := rfl
@[simp] theorem respond_normEn (w : Word) (s : State) : (respond w s).normEn = s.normEn := rfl
@[simp] theorem respond_ready (w : Word) (s : State) : (respond w s).ready = s.ready := rfl
@[simp] theorem respond_wasVoiced (w : Word) (s : State) : (respond w s).wasVoiced = s.wasVoiced := rfl
@[simp] theorem respond_err (w : Word) (s : State) : (respond w s).err = s.err := rfl
@[simp] theorem respond_fs (w : Word) (s : State) : (respond w s).fs = s.fs := rfl
@[simp] theorem respond_fsAct (w : Word) (s : State) : (respond w s).fsAct = s.fsAct := rfl
@[simp] theorem respond_nsize (w : Word) (s : State) : (respond w s).nsize = s.nsize := rfl
@[simp] theorem respond_hopsize (w : Word) (s : State) : (respond w s).hopsize = s.hopsize := rfl
@[simp] theorem respond_nmin (w : Word) (s : State) : (respond w s).nmin = s.nmin := rfl
@[simp] theorem respond_nmax (w : Word) (s : State) : (respond w s).nmax = s.nmax := rfl
@[simp] theorem respond_mix (w : Word) (s : State) : (respond w s).mix = s.mix := rfl
@[simp] theorem respond_shift (w : Word) (s : State) : (respond w s).shift = s.shift := rfl
@[simp] theorem respond_tune (w : Word) (s : State) : (respond w s).tune = s.tune := rfl
@[simp] theorem respond_amount (w : Word) (s : State) : (respond w s).amount = s.amount := rfl
@[simp] theorem respond_glide (w : Word) (s : State) : (respond w s).glide = s.glide := rfl
@[simp] theorem respond_persist (w : Word) (s : State) : (respond w s).persist = s.persist := rfl
@[simp] theorem respond_root (w : Word) (s : State) : (respond w s).root = s.root := rfl
@[simp] theorem respond_scale (w : Word) (s : State) : (respond w s).scale = s.scale := rfl
@[simp] theorem respond_mask (w : Word) (s : State) : (respond w s).mask = s.mask := rfl
@[simp] theorem respond_outL (w : Word) (s : State) : (respond w s).outL = s.outL := rfl
@[simp] theorem respond_outR (w : Word) (s : State) : (respond w s).outR = s.outR := rfl
@[simp] theorem respond_estLag (w : Word) (s : State) : (respond w s).estLag = s.estLag := rfl
@[simp] theorem respond_estPeriod (w : Word) (s : State) : (respond w s).estPeriod = s.estPeriod := rfl
@[simp] theorem respond_estPitch (w : Word) (s : State) : (respond w s).estPitch = s.estPitch := rfl
@[simp] theorem respond_estConf (w : Word) (s : State) : (respond w s).estConf = s.estConf := rfl
@[simp] theorem respond_qtarget (w : Word) (s : State) : (respond w s).qtarget = s.qtarget := rfl
@[simp] theorem respond_smooth (w : Word) (s : State) : (respond w s).smooth = s.smooth := rfl
@[simp] theorem respond_persistAmt (w : Word) (s : State) : (respond w s).persistAmt = s.persistAmt := rfl
@[simp] theorem respond_correction (w : Word) (s : State) : (respond w s).correction = s.correction := rfl
@[simp] theorem respond_ratio (w : Word) (s : State) : (respond w s).ratio = s.ratio := rfl
@[simp] theorem respond_periodNom (w : Word) (s : State) : (respond w s).periodNom = s.periodNom := rfl
@[simp] theorem respond_phaseInc (w : Word) (s : State) : (respond w s).phaseInc = s.phaseInc := rfl
@[simp] theorem respond_phaseIn (w : Word) (s : State) : (respond w s).phaseIn = s.phaseIn := rfl
@[simp] theorem respond_phaseOut (w : Word) (s : State) : (respond w s).phaseOut = s.phaseOut := rfl
@[simp] theorem respond_fragSize (w : Word) (s : State) : (respond w s).fragSize = s.fragSize := rfl
@[simp] theorem respond_inWr (w : Word) (s : State) : (respond w s).inWr = s.inWr := rfl
@[simp] theorem respond_outRd (w : Word) (s : State) : (respond w s).outRd = s.outRd := rfl
@[simp] theorem respond_sampleCount (w : Word) (s : State) : (respond w s).sampleCount = s.sampleCount := rfl
@[simp] theorem respond_hopCount (w : Word) (s : State) : (respond w s).hopCount = s.hopCount := rfl
@[simp] theorem respond_epoch (w : Word) (s : State) : (respond w s).epoch = s.epoch := rfl
@[simp] theorem respond_mem (w : Word) (s : State) : (respond w s).mem = s.mem := rfl

/-! ### recomputeMask -/

@[simp] theorem recomputeMask_par (s : State) : (recomputeMask s).par = s.par := rfl
@[simp] theorem recomputeMask_port (s : State) : (recomputeMask s).port = s.port := rfl
@[simp] theorem recomputeMask_readData (s : State) : (recomputeMask s).readData = s.readData := rfl
@[simp] theorem recomputeMask_normEn (s : State) : (recomputeMask s).normEn = s.normEn := rfl
@[simp] theorem recomputeMask_ready (s : State) : (recomputeMask s).ready = s.ready := rfl
@[simp] theorem recomputeMask_wasVoiced (s : State) : (recomputeMask s).wasVoiced = s.wasVoiced := rfl
@[simp] theorem recomputeMask_err (s : State) : (recomputeMask s).err = s.err := rfl
@[simp] theorem recomputeMask_fs (s : State) : (recomputeMask s).fs = s.fs := rfl
@[simp] theorem recomputeMask_fsAct (s : State) : (recomputeMask s).fsAct = s.fsAct := rfl
@[simp] theorem recomputeMask_nsize (s : State) : (recomputeMask s).nsize = s.nsize := rfl
@[simp] theorem recomputeMask_hopsize (s : State) : (recomputeMask s).hopsize = s.hopsize := rfl
@[simp] theorem recomputeMask_nmin (s : State) : (recomputeMask s).nmin = s.nmin := rfl
@[simp] theorem recomputeMask_nmax (s : State) : (recomputeMask s).nmax = s.nmax := rfl
@[simp] theorem recomputeMask_mix (s : State) : (recomputeMask s).mix = s.mix := rfl
@[simp] theorem recomputeMask_shift (s : State) : (recomputeMask s).shift = s.shift := rfl
@[simp] theorem recomputeMask_tune (s : State) : (recomputeMask s).tune = s.tune := rfl
@[simp] theorem recomputeMask_amount (s : State) : (recomputeMask s).amount = s.amount := rfl
@[simp] theorem recomputeMask_glide (s : State) : (recomputeMask s).glide = s.glide := rfl
@[simp] theorem recomputeMask_persist (s : State) : (recomputeMask s).persist = s.persist := rfl
@[simp] theorem recomputeMask_root (s : State) : (recomputeMask s).root = s.root := rfl
@[simp] theorem recomputeMask_scale (s : State) : (recomputeMask s).scale = s.scale := rfl
@[simp] theorem recomputeMask_outL (s : State) : (recomputeMask s).outL = s.outL := rfl
@[simp] theorem recomputeMask_outR (s : State) : (recomputeMask s).outR = s.outR := rfl
@[simp] theorem recomputeMask_estLag (s : State) : (recomputeMask s).estLag = s.estLag := rfl
@[simp] theorem recomputeMask_estPeriod (s : State) : (recomputeMask s).estPeriod = s.estPeriod := rfl
@[simp] theorem recomputeMask_estPitch (s : State) : (recomputeMask s).estPitch = s.estPitch := rfl
@[simp] theorem recomputeMask_estConf (s : State) : (recomputeMask s).estConf = s.estConf := rfl
@[simp] theorem recomputeMask_qtarget (s : State) : (recomputeMask s).qtarget = s.qtarget := rfl
@[simp] theorem recomputeMask_smooth (s : State) : (recomputeMask s).smooth = s.smooth := rfl
@[simp] theorem recomputeMask_persistAmt (s : State) : (recomputeMask s).persistAmt = s.persistAmt := rfl
@[simp] theorem recomputeMask_correction (s : State) : (recomputeMask s).correction = s.correction := rfl
@[simp] theorem recomputeMask_ratio (s : State) : (recomputeMask s).ratio = s.ratio := rfl
@[simp] theorem recomputeMask_periodNom (s : State) : (recomputeMask s).periodNom = s.periodNom := rfl
@[simp] theorem recomputeMask_phaseInc (s : State) : (recomputeMask s).phaseInc = s.phaseInc := rfl
@[simp] theorem recomputeMask_phaseIn (s : State) : (recomputeMask s).phaseIn = s.phaseIn := rfl
@[simp] theorem recomputeMask_phaseOut (s : State) : (recomputeMask s).phaseOut = s.phaseOut := rfl
@[simp] theorem recomputeMask_fragSize (s : State) : (recomputeMask s).fragSize = s.fragSize := rfl
@[simp] theorem recomputeMask_inWr (s : State) : (recomputeMask s).inWr = s.inWr := rfl
@[simp] theorem recomputeMask_outRd (s : State) : (recomputeMask s).outRd = s.outRd := rfl
@[simp] theorem recomputeMask_sampleCount (s : State) : (recomputeMask s).sampleCount = s.sampleCount := rfl
@[simp] theorem recomputeMask_hopCount (s : State) : (recomputeMask s).hopCount = s.hopCount := rfl
@[simp] theorem recomputeMask_epoch (s : State) : (recomputeMask s).epoch = s.epoch := rfl
@[simp] theorem recomputeMask_mem (s : State) : (recomputeMask s).mem = s.mem := rfl

/-! ### ringPush -/

@[simp] theorem ringPush_par (x : Num) (s : State) : (ringPush x s).par = s.par := rfl
@[simp] theorem ringPush_port (x : Num) (s : State) : (ringPush x s).port = s.port := rfl
@[simp] theorem ringPush_readData (x : Num) (s : State) : (ringPush x s).readData = s.readData := rfl
@[simp] theorem ringPush_normEn (x : Num) (s : State) : (ringPush x s).normEn = s.normEn := rfl
@[simp] theorem ringPush_ready (x : Num) (s : State) : (ringPush x s).ready = s.ready := rfl
@[simp] theorem ringPush_wasVoiced (x : Num) (s : State) : (ringPush x s).wasVoiced = s.wasVoiced := rfl
@[simp] theorem ringPush_err (x : Num) (s : State) : (ringPush x s).err = s.err := rfl
@[simp] theorem ringPush_fs (x : Num) (s : State) : (ringPush x s).fs = s.fs := rfl
@[simp] theorem ringPush_fsAct (x : Num) (s : State) : (ringPush x s).fsAct = s.fsAct := rfl
@[simp] theorem ringPush_nsize (x : Num) (s : State) : (ringPush x s).nsize = s.nsize := rfl
@[simp] theorem ringPush_hopsize (x : Num) (s : State) : (ringPush x s).hopsize = s.hopsize := rfl
@[simp] theorem ringPush_nmin (x : Num) (s : State) : (ringPush x s).nmin = s.nmin := rfl
@[simp] theorem ringPush_nmax (x : Num) (s : State) : (ringPush x s).nmax = s.nmax := rfl
@[simp] theorem ringPush_mix (x : Num) (s : State) : (ringPush x s).mix = s.mix := rfl
@[simp] theorem ringPush_shift (x : Num) (s : State) : (ringPush x s).shift = s.shift := rfl
@[simp] theorem ringPush_tune (x : Num) (s : State) : (ringPush x s).tune = s.tune := rfl
@[simp] theorem ringPush_amount (x : Num) (s : State) : (ringPush x s).amount = s.amount := rfl
@[simp] theorem ringPush_glide (x : Num) (s : State) : (ringPush x s).glide = s.glide := rfl
@[simp] theorem ringPush_persist (x : Num) (s : State) : (ringPush x s).persist = s.persist := rfl
@[simp] theorem ringPush_root (x : Num) (s : State) : (ringPush x s).root = s.root := rfl
@[simp] theorem ringPush_scale (x : Num) (s : State) : (ringPush x s).scale = s.scale := rfl
@[simp] theorem ringPush_mask (x : Num) (s : State) : (ringPush x s).mask = s.mask := rfl
@[simp] theorem ringPush_outL (x : Num) (s : State) : (ringPush x s).outL = s.outL := rfl
@[simp] theorem ringPush_outR (x : Num) (s : State) : (ringPush x s).outR = s.outR := rfl
@[simp] theorem ringPush_estLag (x : Num) (s : State) : (ringPush x s).estLag = s.estLag := rfl
@[simp] theorem ringPush_estPeriod (x : Num) (s : State) : (ringPush x s).estPeriod = s.estPeriod := rfl
@[simp] theorem ringPush_estPitch (x : Num) (s : State) : (ringPush x s).estPitch = s.estPitch := rfl
@[simp] theorem ringPush_estConf (x : Num) (s : State) : (ringPush x s).estConf = s.estConf := rfl
@[simp] theorem ringPush_qtarget (x : Num) (s : State) : (ringPush x s).qtarget = s.qtarget := rfl
@[simp] theorem ringPush_smooth (x : Num) (s : State) : (ringPush x s).smooth = s.smooth := rfl
@[simp] theorem ringPush_persistAmt (x : Num) (s : State) : (ringPush x s).persistAmt = s.persistAmt := rfl
@[simp] theorem ringPush_correction (x : Num) (s : State) : (ringPush x s).correction = s.correction := rfl
@[simp] theorem ringPush_ratio (x : Num) (s : State) : (ringPush x s).ratio = s.ratio := rfl
@[simp] theorem ringPush_periodNom (x : Num) (s : State) : (ringPush x s).periodNom = s.periodNom := rfl
@[simp] theorem ringPush_phaseInc (x : Num) (s : State) : (ringPush x s).phaseInc = s.phaseInc := rfl
@[simp] theorem ringPush_phaseIn (x : Num) (s : State) : (ringPush x s).phaseIn = s.phaseIn := rfl
@[simp] theorem ringPush_phaseOut (x : Num) (s : State) : (ringPush x s).phaseOut = s.phaseOut := rfl
@[simp] theorem ringPush_fragSize (x : Num) (s : State) : (ringPush x s).fragSize = s.fragSize := rfl
@[simp] theorem ringPush_outRd (x : Num) (s : State) : (ringPush x s).outRd = s.outRd := rfl
@[simp] theorem ringPush_sampleCount (x : Num) (s : State) : (ringPush x s).sampleCount = s.sampleCount := rfl
@[simp] theorem ringPush_hopCount (x : Num) (s : State) : (ringPush x s).hopCount = s.hopCount := rfl
@[simp] theorem ringPush_epoch (x : Num) (s : State) : (ringPush x s).epoch = s.epoch := rfl
@[simp] theorem ringPush_mem_ob (x : Num) (s : State) : (ringPush x s).mem.ob = s.mem.ob := rfl
@[simp] theorem ringPush_mem_nb (x : Num) (s : State) : (ringPush x s).mem.nb = s.mem.nb := rfl
@[simp] theorem ringPush_mem_frag (x : Num) (s : State) : (ringPush x s).mem.frag = s.mem.frag := rfl
@[simp] theorem ringPush_mem_hann (x : Num) (s : State) : (ringPush x s).mem.hann = s.mem.hann := rfl
@[simp] theorem ringPush_mem_cbw (x : Num) (s : State) : (ringPush x s).mem.cbw = s.mem.cbw := rfl
@[simp] theorem ringPush_mem_acwinv (x : Num) (s : State) : (ringPush x s).mem.acwinv = s.mem.acwinv := rfl

/-! ### takeSample -/

@[simp] theorem takeSample_par (x : Num) (s : State) : (takeSample x s).par = s.par := rfl
@[simp] theorem takeSample_port (x : Num) (s : State) : (takeSample x s).port = s.port := rfl
@[simp] theorem takeSample_readData (x : Num) (s : State) : (takeSample x s).readData = s.readData := rfl
@[simp] theorem takeSample_normEn (x : Num) (s : State) : (takeSample x s).normEn = s.normEn := rfl
@[simp] theorem takeSample_ready (x : Num) (s : State) : (takeSample x s).ready = s.ready := rfl
@[simp] theorem takeSample_wasVoiced (x : Num) (s : State) : (takeSample x s).wasVoiced = s.wasVoiced := rfl
@[simp] theorem takeSample_err (x : Num) (s : State) : (takeSample x s).err = s.err := rfl
@[simp] theorem takeSample_fs (x : Num) (s : State) : (takeSample x s).fs = s.fs := rfl
@[simp] theorem takeSample_fsAct (x : Num) (s : State) : (takeSample x s).fsAct = s.fsAct := rfl
@[simp] theorem takeSample_nsize (x : Num) (s : State) : (takeSample x s).nsize = s.nsize := rfl
@[simp] theorem takeSample_hopsize (x : Num) (s : State) : (takeSample x s).hopsize = s.hopsize := rfl
@[simp] theorem takeSample_nmin (x : Num) (s : State) : (takeSample x s).nmin = s.nmin := rfl
@[simp] theorem takeSample_nmax (x : Num) (s : State) : (takeSample x s).nmax = s.nmax := rfl
@[simp] theorem takeSample_mix (x : Num) (s : State) : (takeSample x s).mix = s.mix := rfl
@[simp] theorem takeSample_shift (x : Num) (s : State) : (takeSample x s).shift = s.shift := rfl
@[simp] theorem takeSample_tune (x : Num) (s : State) : (takeSample x s).tune = s.tune := rfl
@[simp] theorem takeSample_amount (x : Num) (s : State) : (takeSample x s).amount = s.amount := rfl
@[simp] theorem takeSample_glide (x : Num) (s : State) : (takeSample x s).glide = s.glide := rfl
@[simp] theorem takeSample_persist (x : Num) (s : State) : (takeSample x s).persist = s.persist := rfl
@[simp] theorem takeSample_root (x : Num) (s : State) : (takeSample x s).root = s.root := rfl
@[simp] theorem takeSample_scale (x : Num) (s : State) : (takeSample x s).scale = s.scale := rfl
@[simp] theorem takeSample_mask (x : Num) (s : State) : (takeSample x s).mask = s.mask := rfl
@[simp] theorem takeSample_outL (x : Num) (s : State) : (takeSample x s).outL = s.outL := rfl
@[simp] theorem takeSample_outR (x : Num) (s : State) : (takeSample x s).outR = s.outR := rfl
@[simp] theorem takeSample_estLag (x : Num) (s : State) : (takeSample x s).estLag = s.estLag := rfl
@[simp] theorem takeSample_estPeriod (x : Num) (s : State) : (takeSample x s).estPeriod = s.estPeriod := rfl
@[simp] theorem takeSample_estPitch (x : Num) (s : State) : (takeSample x s).estPitch = s.estPitch := rfl
@[simp] theorem takeSample_estConf (x : Num) (s : State) : (takeSample x s).estConf = s.estConf := rfl
@[simp] theorem takeSample_qtarget (x : Num) (s : State) : (takeSample x s).qtarget = s.qtarget := rfl
@[simp] theorem takeSample_smooth (x : Num) (s : State) : (takeSample x s).smooth = s.smooth := rfl
@[simp] theorem takeSample_persistAmt (x : Num) (s : State) : (takeSample x s).persistAmt = s.persistAmt := rfl
@[simp] theorem takeSample_correction (x : Num) (s : State) : (takeSample x s).correction = s.correction := rfl
@[simp] theorem takeSample_ratio (x : Num) (s : State) : (takeSample x s).ratio = s.ratio := rfl
@[simp] theorem takeSample_periodNom (x : Num) (s : State) : (takeSample x s).periodNom = s.periodNom := rfl
@[simp] theorem takeSample_phaseInc (x : Num) (s : State) : (takeSample x s).phaseInc = s.phaseInc := rfl
@[simp] theorem takeSample_phaseIn (x : Num) (s : State) : (takeSample x s).phaseIn = s.phaseIn := rfl
@[simp] theorem takeSample_phaseOut (x : Num) (s : State) : (takeSample x s).phaseOut = s.phaseOut := rfl
@[simp] theorem takeSample_fragSize (x : Num) (s : State) : (takeSample x s).fragSize = s.fragSize := rfl
@[simp] theorem takeSample_outRd (x : Num) (s : State) : (takeSample x s).outRd = s.outRd := rfl
@[simp] theorem takeSample_hopCount (x : Num) (s : State) : (takeSample x s).hopCount = s.hopCount := rfl
@[simp] theorem takeSample_epoch (x : Num) (s : State) : (takeSample x s).epoch = s.epoch + 1 := rfl
@[simp] theorem takeSample_mem_ob (x : Num) (s : State) : (takeSample x s).mem.ob = s.mem.ob := rfl
@[simp] theorem takeSample_mem_nb (x : Num) (s : State) : (takeSample x s).mem.nb = s.mem.nb := rfl
@[simp] theorem takeSample_mem_frag (x : Num) (s : State) : (takeSample x s).mem.frag = s.mem.frag := rfl
@[simp] theorem takeSample_mem_hann (x : Num) (s : State) : (takeSample x s).mem.hann = s.mem.hann := rfl
@[simp] theorem takeSample_mem_cbw (x : Num) (s : State) : (takeSample x s).mem.cbw = s.mem.cbw := rfl
@[simp] theorem takeSample_mem_acwinv (x : Num) (s : State) : (takeSample x s).mem.acwinv = s.mem.acwinv := rfl

/-! ### ringAccumulate -/

@[simp] theorem ringAccumulate_par (t : Int) (v g : Num) (s : State) : (ringAccumulate t v g s).par = s.par := rfl
@[simp] theorem ringAccumulate_port (t : Int) (v g : Num) (s : State) : (ringAccumulate t v g s).port = s.port := rfl
@[simp] theorem ringAccumulate_readData (t : Int) (v g : Num) (s : State) : (ringAccumulate t v g s).readData = s.readData := rfl
@[simp] theorem ringAccumulate_normEn (t : Int) (v g : Num) (s : State) : (ringAccumulate t v g s).normEn = s.normEn := rfl
@[simp] theorem ringAccumulate_ready (t : Int) (v g : Num) (s : State) : (ringAccumulate t v g s).ready = s.ready := rfl
@[simp] theorem ringAccumulate_wasVoiced (t : Int) (v g : Num) (s : State) : (ringAccumulate t v g s).wasVoiced = s.wasVoiced := rfl
@[simp] theorem ringAccumulate_err (t : Int) (v g : Num) (s : State) : (ringAccumulate t v g s).err = s.err := rfl
@[simp] theorem ringAccumulate_fs (t : Int) (v g : Num) (s : State) : (ringAccumulate t v g s).fs = s.fs := rfl
@[simp] theorem ringAccumulate_fsAct (t : Int) (v g : Num) (s : State) : (ringAccumulate t v g s).fsAct = s.fsAct := rfl
@[simp] theorem ringAccumulate_nsize (t : Int) (v g : Num) (s : State) : (ringAccumulate t v g s).nsize = s.nsize := rfl
@[simp] theorem ringAccumulate_hopsize (t : Int) (v g : Num) (s : State) : (ringAccumulate t v g s).hopsize = s.hopsize := rfl
@[simp] theorem ringAccumulate_nmin (t : Int) (v g : Num) (s : State) : (ringAccumulate t v g s).nmin = s.nmin := rfl
@[simp] theorem ringAccumulate_nmax (t : Int) (v g : Num) (s : State) : (ringAccumulate t v g s).nmax = s.nmax := rfl
@[simp] theorem ringAccumulate_mix (t : Int) (v g : Num) (s : State) : (ringAccumulate t v g s).mix = s.mix := rfl
@[simp] theorem ringAccumulate_shift (t : Int) (v g : Num) (s : State) : (ringAccumulate t v g s).shift = s.shift := rfl
@[simp] theorem ringAccumulate_tune (t : Int) (v g : Num) (s : State) : (ringAccumulate t v g s).tune = s.tune := rfl
@[simp] theorem ringAccumulate_amount (t : Int) (v g : Num) (s : State) : (ringAccumulate t v g s).amount = s.amount := rfl
@[simp] theorem ringAccumulate_glide (t : Int) (v g : Num) (s : State) : (ringAccumulate t v g s).glide = s.glide := rfl
@[simp] theorem ringAccumulate_persist (t : Int) (v g : Num) (s : State) : (ringAccumulate t v g s).persist = s.persist := rfl
@[simp] theorem ringAccumulate_root (t : Int) (v g : Num) (s : State) : (ringAccumulate t v g s).root = s.root := rfl
@[simp] theorem ringAccumulate_scale (t : Int) (v g : Num) (s : State) : (ringAccumulate t v g s).scale = s.scale := rfl
@[simp] theorem ringAccumulate_mask (t : Int) (v g : Num) (s : State) : (ringAccumulate t v g s).mask = s.mask := rfl
@[simp] theorem ringAccumulate_outL (t : Int) (v g : Num) (s : State) : (ringAccumulate t v g s).outL = s.outL := rfl
@[simp] theorem ringAccumulate_outR (t : Int) (v g : Num) (s : State) : (ringAccumulate t v g s).outR = s.outR := rfl
@[simp] theorem ringAccumulate_estLag (t : Int) (v g : Num) (s : State) : (ringAccumulate t v g s).estLag = s.estLag := rfl
@[simp] theorem ringAccumulate_estPeriod (t : Int) (v g : Num) (s : State) : (ringAccumulate t v g s).estPeriod = s.estPeriod := rfl
@[simp] theorem ringAccumulate_estPitch (t : Int) (v g : Num) (s : State) : (ringAccumulate t v g s).estPitch = s.estPitch := rfl
@[simp] theorem ringAccumulate_estConf (t : Int) (v g : Num) (s : State) : (ringAccumulate t v g s).estConf = s.estConf := rfl
@[simp] theorem ringAccumulate_qtarget (t : Int) (v g : Num) (s : State) : (ringAccumulate t v g s).qtarget = s.qtarget := rfl
@[simp] theorem ringAccumulate_smooth (t : Int) (v g : Num) (s : State) : (ringAccumulate t v g s).smooth = s.smooth := rfl
@[simp] theorem ringAccumulate_persistAmt (t : Int) (v g : Num) (s : State) : (ringAccumulate t v g s).persistAmt = s.persistAmt := rfl
@[simp] theorem ringAccumulate_correction (t : Int) (v g : Num) (s : State) : (ringAccumulate t v g s).correction = s.correction := rfl
@[simp] theorem ringAccumulate_ratio (t : Int) (v g : Num) (s : State) : (ringAccumulate t v g s).ratio = s.ratio := rfl
@[simp] theorem ringAccumulate_periodNom (t : Int) (v g : Num) (s : State) : (ringAccumulate t v g s).periodNom = s.periodNom := rfl
@[simp] theorem ringAccumulate_phaseInc (t : Int) (v g : Num) (s : State) : (ringAccumulate t v g s).phaseInc = s.phaseInc := rfl
@[simp] theorem ringAccumulate_phaseIn (t : Int) (v g : Num) (s : State) : (ringAccumulate t v g s).phaseIn = s.phaseIn := rfl
@[simp] theorem ringAccumulate_phaseOut (t : Int) (v g : Num) (s : State) : (ringAccumulate t v g s).phaseOut = s.phaseOut := rfl
@[simp] theorem ringAccumulate_fragSize (t : Int) (v g : Num) (s : State) : (ringAccumulate t v g s).fragSize = s.fragSize := rfl
@[simp] theorem ringAccumulate_inWr (t : Int) (v g : Num) (s : State) : (ringAccumulate t v g s).inWr = s.inWr := rfl
@[simp] theorem ringAccumulate_outRd (t : Int) (v g : Num) (s : State) : (ringAccumulate t v g s).outRd = s.outRd := rfl
@[simp] theorem ringAccumulate_sampleCount (t : Int) (v g : Num) (s : State) : (ringAccumulate t v g s).sampleCount = s.sampleCount := rfl
@[simp] theorem ringAccumulate_hopCount (t : Int) (v g : Num) (s : State) : (ringAccumulate t v g s).hopCount = s.hopCount := rfl
@[simp] theorem ringAccumulate_epoch (t : Int) (v g : Num) (s : State) : (ringAccumulate t v g s).epoch = s.epoch := rfl
@[simp] theorem ringAccumulate_mem_input (t : Int) (v g : Num) (s : State) : (ringAccumulate t v g s).mem.input = s.mem.input := rfl
@[simp] theorem ringAccumulate_mem_frag (t : Int) (v g : Num) (s : State) : (ringAccumulate t v g s).mem.frag = s.mem.frag := rfl
@[simp] theorem ringAccumulate_mem_hann (t : Int) (v g : Num) (s : State) : (ringAccumulate t v g s).mem.hann = s.mem.hann := rfl
@[simp] theorem ringAccumulate_mem_cbw (t : Int) (v g : Num) (s : State) : (ringAccumulate t v g s).mem.cbw = s.mem.cbw := rfl
@[simp] theorem ringAccumulate_mem_acwinv (t : Int) (v g : Num) (s : State) : (ringAccumulate t v g s).mem.acwinv = s.mem.acwinv := rfl

/-! ### ringClear -/

@[simp] theorem ringClear_par (s : State) : (ringClear s).par = s.par := rfl
@[simp] theorem ringClear_port (s : State) : (ringClear s).port = s.port := rfl
@[simp] theorem ringClear_readData (s : State) : (ringClear s).readData = s.readData := rfl
@[simp] theorem ringClear_normEn (s : State) : (ringClear s).normEn = s.normEn := rfl
@[simp] theorem ringClear_ready (s : State) : (ringClear s).ready = s.ready := rfl
@[simp] theorem ringClear_wasVoiced (s : State) : (ringClear s).wasVoiced = s.wasVoiced := rfl
@[simp] theorem ringClear_err (s : State) : (ringClear s).err = s.err := rfl
@[simp] theorem ringClear_fs (s : State) : (ringClear s).fs = s.fs := rfl
@[simp] theorem ringClear_fsAct (s : State) : (ringClear s).fsAct = s.fsAct := rfl
@[simp] theorem ringClear_nsize (s : State) : (ringClear s).nsize = s.nsize := rfl
@[simp] theorem ringClear_hopsize (s : State) : (ringClear s).hopsize = s.hopsize := rfl
@[simp] theorem ringClear_nmin (s : State) : (ringClear s).nmin = s.nmin := rfl
@[simp] theorem ringClear_nmax (s : State) : (ringClear s).nmax = s.nmax := rfl
@[simp] theorem ringClear_mix (s : State) : (ringClear s).mix = s.mix := rfl
@[simp] theorem ringClear_shift (s : State) : (ringClear s).shift = s.shift := rfl
@[simp] theorem ringClear_tune (s : State) : (ringClear s).tune = s.tune := rfl
@[simp] theorem ringClear_amount (s : State) : (ringClear s).amount = s.amount := rfl
@[simp] theorem ringClear_glide (s : State) : (ringClear s).glide = s.glide := rfl
@[simp] theorem ringClear_persist (s : State) : (ringClear s).persist = s.persist := rfl
@[simp] theorem ringClear_root (s : State) : (ringClear s).root = s.root := rfl
@[simp] theorem ringClear_scale (s : State) : (ringClear s).scale = s.scale := rfl
@[simp] theorem ringClear_mask (s : State) : (ringClear s).mask = s.mask := rfl
@[simp] theorem ringClear_outL (s : State) : (ringClear s).outL = s.outL := rfl
@[simp] theorem ringClear_outR (s : State) : (ringClear s).outR = s.outR := rfl
@[simp] theorem ringClear_estLag (s : State) : (ringClear s).estLag = s.estLag := rfl
@[simp] theorem ringClear_estPeriod (s : State) : (ringClear s).estPeriod = s.estPeriod := rfl
@[simp] theorem ringClear_estPitch (s : State) : (ringClear s).estPitch = s.estPitch := rfl
@[simp] theorem ringClear_estConf (s : State) : (ringClear s).estConf = s.estConf := rfl
@[simp] theorem ringClear_qtarget (s : State) : (ringClear s).qtarget = s.qtarget := rfl
@[simp] theorem ringClear_smooth (s : State) : (ringClear s).smooth = s.smooth := rfl
@[simp] theorem ringClear_persistAmt (s : State) : (ringClear s).persistAmt = s.persistAmt := rfl
@[simp] theorem ringClear_correction (s : State) : (ringClear s).correction = s.correction := rfl
@[simp] theorem ringClear_ratio (s : State) : (ringClear s).ratio = s.ratio := rfl
@[simp] theorem ringClear_periodNom (s : State) : (ringClear s).periodNom = s.periodNom := rfl
@[simp] theorem ringClear_phaseInc (s : State) : (ringClear s).phaseInc = s.phaseInc := rfl
@[simp] theorem ringClear_phaseIn (s : State) : (ringClear s).phaseIn = s.phaseIn := rfl
@[simp] theorem ringClear_phaseOut (s : State) : (ringClear s).phaseOut = s.phaseOut := rfl
@[simp] theorem ringClear_fragSize (s : State) : (ringClear s).fragSize = s.fragSize := rfl
@[simp] theorem ringClear_inWr (s : State) : (ringClear s).inWr = s.inWr := rfl
@[simp] theorem ringClear_sampleCount (s : State) : (ringClear s).sampleCount = s.sampleCount := rfl
@[simp] theorem ringClear_hopCount (s : State) : (ringClear s).hopCount = s.hopCount := rfl
@[simp] theorem ringClear_epoch (s : State) : (ringClear s).epoch = s.epoch := rfl
@[simp] theorem ringClear_mem_input (s : State) : (ringClear s).mem.input = s.mem.input := rfl
@[simp] theorem ringClear_mem_frag (s : State) : (ringClear s).mem.frag = s.mem.frag := rfl
@[simp] theorem ringClear_mem_hann (s : State) : (ringClear s).mem.hann = s.mem.hann := rfl
@[simp] theorem ringClear_mem_cbw (s : State) : (ringClear s).mem.cbw = s.mem.cbw := rfl
@[simp] theorem ringClear_mem_acwinv (s : State) : (ringClear s).mem.acwinv = s.mem.acwinv := rfl

/-! ### advancePhases -/

@[simp] theorem advancePhases_par (s : State) : (advancePhases s).par = s.par := rfl
@[simp] theorem advancePhases_port (s : State) : (advancePhases s).port = s.port := rfl
@[simp] theorem advancePhases_readData (s : State) : (advancePhases s).readData = s.readData := rfl
@[simp] theorem advancePhases_normEn (s : State) : (advancePhases s).normEn = s.normEn := rfl
@[simp] theorem advancePhases_ready (s : State) : (advancePhases s).ready = s.ready := rfl
@[simp] theorem advancePhases_wasVoiced (s : State) : (advancePhases s).wasVoiced = s.wasVoiced := rfl
@[simp] theorem advancePhases_err (s : State) : (advancePhases s).err = s.err := rfl
@[simp] theorem advancePhases_fs (s : State) : (advancePhases s).fs = s.fs := rfl
@[simp] theorem advancePhases_fsAct (s : State) : (advancePhases s).fsAct = s.fsAct := rfl
@[simp] theorem advancePhases_nsize (s : State) : (advancePhases s).nsize = s.nsize := rfl
@[simp] theorem advancePhases_hopsize (s : State) : (advancePhases s).hopsize = s.hopsize := rfl
@[simp] theorem advancePhases_nmin (s : State) : (advancePhases s).nmin = s.nmin := rfl
@[simp] theorem advancePhases_nmax (s : State) : (advancePhases s).nmax = s.nmax := rfl
@[simp] theorem advancePhases_mix (s : State) : (advancePhases s).mix = s.mix := rfl
@[simp] theorem advancePhases_shift (s : State) : (advancePhases s).shift = s.shift := rfl
@[simp] theorem advancePhases_tune (s : State) : (advancePhases s).tune = s.tune := rfl
@[simp] theorem advancePhases_amount (s : State) : (advancePhases s).amount = s.amount := rfl
@[simp] theorem advancePhases_glide (s : State) : (advancePhases s).glide = s.glide := rfl
@[simp] theorem advancePhases_persist (s : State) : (advancePhases s).persist = s.persist := rfl
@[simp] theorem advancePhases_root (s : State) : (advancePhases s).root = s.root := rfl
@[simp] theorem advancePhases_scale (s : State) : (advancePhases s).scale = s.scale := rfl
@[simp] theorem advancePhases_mask (s : State) : (advancePhases s).mask = s.mask := rfl
@[simp] theorem advancePhases_outL (s : State) : (advancePhases s).outL = s.outL := rfl
@[simp] theorem advancePhases_outR (s : State) : (advancePhases s).outR = s.outR := rfl
@[simp] theorem advancePhases_estLag (s : State) : (advancePhases s).estLag = s.estLag := rfl
@[simp] theorem advancePhases_estPeriod (s : State) : (advancePhases s).estPeriod = s.estPeriod := rfl
@[simp] theorem advancePhases_estPitch (s : State) : (advancePhases s).estPitch = s.estPitch := rfl
@[simp] theorem advancePhases_estConf (s : State) : (advancePhases s).estConf = s.estConf := rfl
@[simp] theorem advancePhases_qtarget (s : State) : (advancePhases s).qtarget = s.qtarget := rfl
@[simp] theorem advancePhases_smooth (s : State) : (advancePhases s).smooth = s.smooth := rfl
@[simp] theorem advancePhases_persistAmt (s : State) : (advancePhases s).persistAmt = s.persistAmt := rfl
@[simp] theorem advancePhases_correction (s : State) : (advancePhases s).correction = s.correction := rfl
@[simp] theorem advancePhases_ratio (s : State) : (advancePhases s).ratio = s.ratio := rfl
@[simp] theorem advancePhases_periodNom (s : State) : (advancePhases s).periodNom = s.periodNom := rfl
@[simp] theorem advancePhases_phaseInc (s : State) : (advancePhases s).phaseInc = s.phaseInc := rfl
@[simp] theorem advancePhases_inWr (s : State) : (advancePhases s).inWr = s.inWr := rfl
@[simp] theorem advancePhases_outRd (s : State) : (advancePhases s).outRd = s.outRd := rfl
@[simp] theorem advancePhases_sampleCount (s : State) : (advancePhases s).sampleCount = s.sampleCount := rfl
@[simp] theorem advancePhases_hopCount (s : State) : (advancePhases s).hopCount = s.hopCount := rfl
@[simp] theorem advancePhases_epoch (s : State) : (advancePhases s).epoch = s.epoch := rfl
@[simp] theorem advancePhases_mem (s : State) : (advancePhases s).mem = s.mem := rfl

/-! ### extractGrain -/

@[simp] theorem extractGrain_par (s : State) : (extractGrain s).par = s.par := rfl
@[simp] theorem extractGrain_port (s : State) : (extractGrain s).port = s.port := rfl
@[simp] theorem extractGrain_readData (s : State) : (extractGrain s).readData = s.readData := rfl
@[simp] theorem extractGrain_normEn (s : State) : (extractGrain s).normEn = s.normEn := rfl
@[simp] theorem extractGrain_ready (s : State) : (extractGrain s).ready = s.ready := rfl
@[simp] theorem extractGrain_wasVoiced (s : State) : (extractGrain s).wasVoiced = s.wasVoiced := rfl
@[simp] theorem extractGrain_err (s : State) : (extractGrain s).err = s.err := rfl
@[simp] theorem extractGrain_fs (s : State) : (extractGrain s).fs = s.fs := rfl
@[simp] theorem extractGrain_fsAct (s : State) : (extractGrain s).fsAct = s.fsAct := rfl
@[simp] theorem extractGrain_nsize (s : State) : (extractGrain s).nsize = s.nsize := rfl
@[simp] theorem extractGrain_hopsize (s : State) : (extractGrain s).hopsize = s.hopsize := rfl
@[simp] theorem extractGrain_nmin (s : State) : (extractGrain s).nmin = s.nmin := rfl
@[simp] theorem extractGrain_nmax (s : State) : (extractGrain s).nmax = s.nmax := rfl
@[simp] theorem extractGrain_mix (s : State) : (extractGrain s).mix = s.mix := rfl
@[simp] theorem extractGrain_shift (s : State) : (extractGrain s).shift = s.shift := rfl
@[simp] theorem extractGrain_tune (s : State) : (extractGrain s).tune = s.tune := rfl
@[simp] theorem extractGrain_amount (s : State) : (extractGrain s).amount = s.amount := rfl
@[simp] theorem extractGrain_glide (s : State) : (extractGrain s).glide = s.glide := rfl
@[simp] theorem extractGrain_persist (s : State) : (extractGrain s).persist = s.persist := rfl
@[simp] theorem extractGrain_root (s : State) : (extractGrain s).root = s.root := rfl
@[simp] theorem extractGrain_scale (s : State) : (extractGrain s).scale = s.scale := rfl
@[simp] theorem extractGrain_mask (s : State) : (extractGrain s).mask = s.mask := rfl
@[simp] theorem extractGrain_outL (s : State) : (extractGrain s).outL = s.outL := rfl
@[simp] theorem extractGrain_outR (s : State) : (extractGrain s).outR = s.outR := rfl
@[simp] theorem extractGrain_estLag (s : State) : (extractGrain s).estLag = s.estLag := rfl
@[simp] theorem extractGrain_estPeriod (s : State) : (extractGrain s).estPeriod = s.estPeriod := rfl
@[simp] theorem extractGrain_estPitch (s : State) : (extractGrain s).estPitch = s.estPitch := rfl
@[simp] theorem extractGrain_estConf (s : State) : (extractGrain s).estConf = s.estConf := rfl
@[simp] theorem extractGrain_qtarget (s : State) : (extractGrain s).qtarget = s.qtarget := rfl
@[simp] theorem extractGrain_smooth (s : State) : (extractGrain s).smooth = s.smooth := rfl
@[simp] theorem extractGrain_persistAmt (s : State) : (extractGrain s).persistAmt = s.persistAmt := rfl
@[simp] theorem extractGrain_correction (s : State) : (extractGrain s).correction = s.correction := rfl
@[simp] theorem extractGrain_ratio (s : State) : (extractGrain s).ratio = s.ratio := rfl
@[simp] theorem extractGrain_periodNom (s : State) : (extractGrain s).periodNom = s.periodNom := rfl
@[simp] theorem extractGrain_phaseInc (s : State) : (extractGrain s).phaseInc = s.phaseInc := rfl
@[simp] theorem extractGrain_phaseIn (s : State) : (extractGrain s).phaseIn = s.phaseIn := rfl
@[simp] theorem extractGrain_phaseOut (s : State) : (extractGrain s).phaseOut = s.phaseOut := rfl
@[simp] theorem extractGrain_fragSize (s : State) : (extractGrain s).fragSize = s.fragSize := rfl
@[simp] theorem extractGrain_inWr (s : State) : (extractGrain s).inWr = s.inWr := rfl
@[simp] theorem extractGrain_outRd (s : State) : (extractGrain s).outRd = s.outRd := rfl
@[simp] theorem extractGrain_sampleCount (s : State) : (extractGrain s).sampleCount = s.sampleCount := rfl
@[simp] theorem extractGrain_hopCount (s : State) : (extractGrain s).hopCount = s.hopCount := rfl
@[simp] theorem extractGrain_epoch (s : State) : (extractGrain s).epoch = s.epoch := rfl
@[simp] theorem extractGrain_mem_input (s : State) : (extractGrain s).mem.input = s.mem.input := rfl
@[simp] theorem extractGrain_mem_ob (s : State) : (extractGrain s).mem.ob = s.mem.ob := rfl
@[simp] theorem extractGrain_mem_nb (s : State) : (extractGrain s).mem.nb = s.mem.nb := rfl
@[simp] theorem extractGrain_mem_hann (s : State) : (extractGrain s).mem.hann = s.mem.hann := rfl
@[simp] theorem extractGrain_mem_cbw (s : State) : (extractGrain s).mem.cbw = s.mem.cbw := rfl
@[simp] theorem extractGrain_mem_acwinv (s : State) : (extractGrain s).mem.acwinv = s.mem.acwinv := rfl

/-! ### writeEstimate -/

@[simp] theorem writeEstimate_par (e : Est) (s : State) : (writeEstimate e s).par = s.par := rfl
@[simp] theorem writeEstimate_port (e : Est) (s : State) : (writeEstimate e s).port = s.port := rfl
@[simp] theorem writeEstimate_readData (e : Est) (s : State) : (writeEstimate e s).readData = s.readData := rfl
@[simp] theorem writeEstimate_normEn (e : Est) (s : State) : (writeEstimate e s).normEn = s.normEn := rfl
@[simp] theorem writeEstimate_ready (e : Est) (s : State) : (writeEstimate e s).ready = s.ready := rfl
@[simp] theorem writeEstimate_wasVoiced (e : Est) (s : State) : (writeEstimate e s).wasVoiced = s.wasVoiced := rfl
@[simp] theorem writeEstimate_err (e : Est) (s : State) : (writeEstimate e s).err = s.err := rfl
@[simp] theorem writeEstimate_fs (e : Est) (s : State) : (writeEstimate e s).fs = s.fs := rfl
@[simp] theorem writeEstimate_fsAct (e : Est) (s : State) : (writeEstimate e s).fsAct = s.fsAct := rfl
@[simp] theorem writeEstimate_nsize (e : Est) (s : State) : (writeEstimate e s).nsize = s.nsize := rfl
@[simp] theorem writeEstimate_hopsize (e : Est) (s : State) : (writeEstimate e s).hopsize = s.hopsize := rfl
@[simp] theorem writeEstimate_nmin (e : Est) (s : State) : (writeEstimate e s).nmin = s.nmin := rfl
@[simp] theorem writeEstimate_nmax (e : Est) (s : State) : (writeEstimate e s).nmax = s.nmax := rfl
@[simp] theorem writeEstimate_mix (e : Est) (s : State) : (writeEstimate e s).mix = s.mix := rfl
@[simp] theorem writeEstimate_shift (e : Est) (s : State) : (writeEstimate e s).shift = s.shift := rfl
@[simp] theorem writeEstimate_tune (e : Est) (s : State) : (writeEstimate e s).tune = s.tune := rfl
@[simp] theorem writeEstimate_amount (e : Est) (s : State) : (writeEstimate e s).amount = s.amount := rfl
@[simp] theorem writeEstimate_glide (e : Est) (s : State) : (writeEstimate e s).glide = s.glide := rfl
@[simp] theorem writeEstimate_persist (e : Est) (s : State) : (writeEstimate e s).persist = s.persist := rfl
@[simp] theorem writeEstimate_root (e : Est) (s : State) : (writeEstimate e s).root = s.root := rfl
@[simp] theorem writeEstimate_scale (e : Est) (s : State) : (writeEstimate e s).scale = s.scale := rfl
@[simp] theorem writeEstimate_mask (e : Est) (s : State) : (writeEstimate e s).mask = s.mask := rfl
@[simp] theorem writeEstimate_outL (e : Est) (s : State) : (writeEstimate e s).outL = s.outL := rfl
@[simp] theorem writeEstimate_outR (e : Est) (s : State) : (writeEstimate e s).outR = s.outR := rfl
@[simp] theorem writeEstimate_qtarget (e : Est) (s : State) : (writeEstimate e s).qtarget = s.qtarget := rfl
@[simp] theorem writeEstimate_smooth (e : Est) (s : State) : (writeEstimate e s).smooth = s.smooth := rfl
@[simp] theorem writeEstimate_persistAmt (e : Est) (s : State) : (writeEstimate e s).persistAmt = s.persistAmt := rfl
@[simp] theorem writeEstimate_correction (e : Est) (s : State) : (writeEstimate e s).correction = s.correction := rfl
@[simp] theorem writeEstimate_ratio (e : Est) (s : State) : (writeEstimate e s).ratio = s.ratio := rfl
@[simp] theorem writeEstimate_periodNom (e : Est) (s : State) : (writeEstimate e s).periodNom = s.periodNom := rfl
@[simp] theorem writeEstimate_phaseInc (e : Est) (s : State) : (writeEstimate e s).phaseInc = s.phaseInc := rfl
@[simp] theorem writeEstimate_phaseIn (e : Est) (s : State) : (writeEstimate e s).phaseIn = s.phaseIn := rfl
@[simp] theorem writeEstimate_phaseOut (e : Est) (s : State) : (writeEstimate e s).phaseOut = s.phaseOut := rfl
@[simp] theorem writeEstimate_fragSize (e : Est) (s : State) : (writeEstimate e s).fragSize = s.fragSize := rfl
@[simp] theorem writeEstimate_inWr (e : Est) (s : State) : (writeEstimate e s).inWr = s.inWr := rfl
@[simp] theorem writeEstimate_outRd (e : Est) (s : State) : (writeEstimate e s).outRd = s.outRd := rfl
@[simp] theorem writeEstimate_sampleCount (e : Est) (s : State) : (writeEstimate e s).sampleCount = s.sampleCount := rfl
@[simp] theorem writeEstimate_hopCount (e : Est) (s : State) : (writeEstimate e s).hopCount = s.hopCount := rfl
@[simp] theorem writeEstimate_epoch (e : Est) (s : State) : (writeEstimate e s).epoch = s.epoch := rfl
@[simp] theorem writeEstimate_mem (e : Est) (s : State) : (writeEstimate e s).mem = s.mem := rfl

/-! ### quantizeStep -/

@[simp] theorem quantizeStep_par (s : State) : (quantizeStep s).par = s.par := rfl
@[simp] theorem quantizeStep_port (s : State) : (quantizeStep s).port = s.port := rfl
@[simp] theorem quantizeStep_readData (s : State) : (quantizeStep s).readData = s.readData := rfl
@[simp] theorem quantizeStep_normEn (s : State) : (quantizeStep s).normEn = s.normEn := rfl
@[simp] theorem quantizeStep_ready (s : State) : (quantizeStep s).ready = s.ready := rfl
@[simp] theorem quantizeStep_wasVoiced (s : State) : (quantizeStep s).wasVoiced = s.wasVoiced := rfl
@[simp] theorem quantizeStep_err (s : State) : (quantizeStep s).err = s.err := rfl
@[simp] theorem quantizeStep_fs (s : State) : (quantizeStep s).fs = s.fs := rfl
@[simp] theorem quantizeStep_fsAct (s : State) : (quantizeStep s).fsAct = s.fsAct := rfl
@[simp] theorem quantizeStep_nsize (s : State) : (quantizeStep s).nsize = s.nsize := rfl
@[simp] theorem quantizeStep_hopsize (s : State) : (quantizeStep s).hopsize = s.hopsize := rfl
@[simp] theorem quantizeStep_nmin (s : State) : (quantizeStep s).nmin = s.nmin := rfl
@[simp] theorem quantizeStep_nmax (s : State) : (quantizeStep s).nmax = s.nmax := rfl
@[simp] theorem quantizeStep_mix (s : State) : (quantizeStep s).mix = s.mix := rfl
@[simp] theorem quantizeStep_shift (s : State) : (quantizeStep s).shift = s.shift := rfl
@[simp] theorem quantizeStep_tune (s : State) : (quantizeStep s).tune = s.tune := rfl
@[simp] theorem quantizeStep_amount (s : State) : (quantizeStep s).amount = s.amount := rfl
@[simp] theorem quantizeStep_glide (s : State) : (quantizeStep s).glide = s.glide := rfl
@[simp] theorem quantizeStep_persist (s : State) : (quantizeStep s).persist = s.persist := rfl
@[simp] theorem quantizeStep_root (s : State) : (quantizeStep s).root = s.root := rfl
@[simp] theorem quantizeStep_scale (s : State) : (quantizeStep s).scale = s.scale := rfl
@[simp] theorem quantizeStep_mask (s : State) : (quantizeStep s).mask = s.mask := rfl
@[simp] theorem quantizeStep_outL (s : State) : (quantizeStep s).outL = s.outL := rfl
@[simp] theorem quantizeStep_outR (s : State) : (quantizeStep s).outR = s.outR := rfl
@[simp] theorem quantizeStep_estLag (s : State) : (quantizeStep s).estLag = s.estLag := rfl
@[simp] theorem quantizeStep_estPeriod (s : State) : (quantizeStep s).estPeriod = s.estPeriod := rfl
@[simp] theorem quantizeStep_estPitch (s : State) : (quantizeStep s).estPitch = s.estPitch := rfl
@[simp] theorem quantizeStep_estConf (s : State) : (quantizeStep s).estConf = s.estConf := rfl
@[simp] theorem quantizeStep_smooth (s : State) : (quantizeStep s).smooth = s.smooth := rfl
@[simp] theorem quantizeStep_persistAmt (s : State) : (quantizeStep s).persistAmt = s.persistAmt := rfl
@[simp] theorem quantizeStep_correction (s : State) : (quantizeStep s).correction = s.correction := rfl
@[simp] theorem quantizeStep_ratio (s : State) : (quantizeStep s).ratio = s.ratio := rfl
@[simp] theorem quantizeStep_periodNom (s : State) : (quantizeStep s).periodNom = s.periodNom := rfl
@[simp] theorem quantizeStep_phaseInc (s : State) : (quantizeStep s).phaseInc = s.phaseInc := rfl
@[simp] theorem quantizeStep_phaseIn (s : State) : (quantizeStep s).phaseIn = s.phaseIn := rfl
@[simp] theorem quantizeStep_phaseOut (s : State) : (quantizeStep s).phaseOut = s.phaseOut := rfl
@[simp] theorem quantizeStep_fragSize (s : State) : (quantizeStep s).fragSize = s.fragSize := rfl
@[simp] theorem quantizeStep_inWr (s : State) : (quantizeStep s).inWr = s.inWr := rfl
@[simp] theorem quantizeStep_outRd (s : State) : (quantizeStep s).outRd = s.outRd := rfl
@[simp] theorem quantizeStep_sampleCount (s : State) : (quantizeStep s).sampleCount = s.sampleCount := rfl
@[simp] theorem quantizeStep_hopCount (s : State) : (quantizeStep s).hopCount = s.hopCount := rfl
@[simp] theorem quantizeStep_epoch (s : State) : (quantizeStep s).epoch = s.epoch := rfl
@[simp] theorem quantizeStep_mem (s : State) : (quantizeStep s).mem = s.mem := rfl

/-! ### blend -/

@[simp] theorem blend_par (s : State) : (blend s).par = s.par := rfl
@[simp] theorem blend_port (s : State) : (blend s).port = s.port := rfl
@[simp] theorem blend_readData (s : State) : (blend s).readData = s.readData := rfl
@[simp] theorem blend_normEn (s : State) : (blend s).normEn = s.normEn := rfl
@[simp] theorem blend_ready (s : State) : (blend s).ready = s.ready := rfl
@[simp] theorem blend_wasVoiced (s : State) : (blend s).wasVoiced = s.wasVoiced := rfl
@[simp] theorem blend_err (s : State) : (blend s).err = s.err := rfl
@[simp] theorem blend_fs (s : State) : (blend s).fs = s.fs := rfl
@[simp] theorem blend_fsAct (s : State) : (blend s).fsAct = s.fsAct := rfl
@[simp] theorem blend_nsize (s : State) : (blend s).nsize = s.nsize := rfl
@[simp] theorem blend_hopsize (s : State) : (blend s).hopsize = s.hopsize := rfl
@[simp] theorem blend_nmin (s : State) : (blend s).nmin = s.nmin := rfl
@[simp] theorem blend_nmax (s : State) : (blend s).nmax = s.nmax := rfl
@[simp] theorem blend_mix (s : State) : (blend s).mix = s.mix := rfl
@[simp] theorem blend_shift (s : State) : (blend s).shift = s.shift := rfl
@[simp] theorem blend_tune (s : State) : (blend s).tune = s.tune := rfl
@[simp] theorem blend_amount (s : State) : (blend s).amount = s.amount := rfl
@[simp] theorem blend_glide (s : State) : (blend s).glide = s.glide := rfl
@[simp] theorem blend_persist (s : State) : (blend s).persist = s.persist := rfl
@[simp] theorem blend_root (s : State) : (blend s).root = s.root := rfl
@[simp] theorem blend_scale (s : State) : (blend s).scale = s.scale := rfl
@[simp] theorem blend_mask (s : State) : (blend s).mask = s.mask := rfl
@[simp] theorem blend_outL (s : State) : (blend s).outL = s.outL := rfl
@[simp] theorem blend_outR (s : State) : (blend s).outR = s.outR := rfl
@[simp] theorem blend_estLag (s : State) : (blend s).estLag = s.estLag := rfl
@[simp] theorem blend_estPeriod (s : State) : (blend s).estPeriod = s.estPeriod := rfl
@[simp] theorem blend_estPitch (s : State) : (blend s).estPitch = s.estPitch := rfl
@[simp] theorem blend_estConf (s : State) : (blend s).estConf = s.estConf := rfl
@[simp] theorem blend_qtarget (s : State) : (blend s).qtarget = s.qtarget := rfl
@[simp] theorem blend_correction (s : State) : (blend s).correction = s.correction := rfl
@[simp] theorem blend_ratio (s : State) : (blend s).ratio = s.ratio := rfl
@[simp] theorem blend_periodNom (s : State) : (blend s).periodNom = s.periodNom := rfl
@[simp] theorem blend_phaseInc (s : State) : (blend s).phaseInc = s.phaseInc := rfl
@[simp] theorem blend_phaseIn (s : State) : (blend s).phaseIn = s.phaseIn := rfl
@[simp] theorem blend_phaseOut (s : State) : (blend s).phaseOut = s.phaseOut := rfl
@[simp] theorem blend_fragSize (s : State) : (blend s).fragSize = s.fragSize := rfl
@[simp] theorem blend_inWr (s : State) : (blend s).inWr = s.inWr := rfl
@[simp] theorem blend_outRd (s : State) : (blend s).outRd = s.outRd := rfl
@[simp] theorem blend_sampleCount (s : State) : (blend s).sampleCount = s.sampleCount := rfl
@[simp] theorem blend_hopCount (s : State) : (blend s).hopCount = s.hopCount := rfl
@[simp] theorem blend_epoch (s : State) : (blend s).epoch = s.epoch := rfl
@[simp] theorem blend_mem (s : State) : (blend s).mem = s.mem := rfl

/-! ### glideStep -/

@[simp] theorem glideStep_par (s : State) : (glideStep s).par = s.par := rfl
@[simp] theorem glideStep_port (s : State) : (glideStep s).port = s.port := rfl
@[simp] theorem glideStep_readData (s : State) : (glideStep s).readData = s.readData := rfl
@[simp] theorem glideStep_normEn (s : State) : (glideStep s).normEn = s.normEn := rfl
@[simp] theorem glideStep_ready (s : State) : (glideStep s).ready = s.ready := rfl
@[simp] theorem glideStep_wasVoiced (s : State) : (glideStep s).wasVoiced = s.wasVoiced := rfl
@[simp] theorem glideStep_err (s : State) : (glideStep s).err = s.err := rfl
@[simp] theorem glideStep_fs (s : State) : (glideStep s).fs = s.fs := rfl
@[simp] theorem glideStep_fsAct (s : State) : (glideStep s).fsAct = s.fsAct := rfl
@[simp] theorem glideStep_nsize (s : State) : (glideStep s).nsize = s.nsize := rfl
@[simp] theorem glideStep_hopsize (s : State) : (glideStep s).hopsize = s.hopsize := rfl
@[simp] theorem glideStep_nmin (s : State) : (glideStep s).nmin = s.nmin := rfl
@[simp] theorem glideStep_nmax (s : State) : (glideStep s).nmax = s.nmax := rfl
@[simp] theorem glideStep_mix (s : State) : (glideStep s).mix = s.mix := rfl
@[simp] theorem glideStep_shift (s : State) : (glideStep s).shift = s.shift := rfl
@[simp] theorem glideStep_tune (s : State) : (glideStep s).tune = s.tune := rfl
@[simp] theorem glideStep_amount (s : State) : (glideStep s).amount = s.amount := rfl
@[simp] theorem glideStep_glide (s : State) : (glideStep s).glide = s.glide := rfl
@[simp] theorem glideStep_persist (s : State) : (glideStep s).persist = s.persist := rfl
@[simp] theorem glideStep_root (s : State) : (glideStep s).root = s.root := rfl
@[simp] theorem glideStep_scale (s : State) : (glideStep s).scale = s.scale := rfl
@[simp] theorem glideStep_mask (s : State) : (glideStep s).mask = s.mask := rfl
@[simp] theorem glideStep_outL (s : State) : (glideStep s).outL = s.outL := rfl
@[simp] theorem glideStep_outR (s : State) : (glideStep s).outR = s.outR := rfl
@[simp] theorem glideStep_estLag (s : State) : (glideStep s).estLag = s.estLag := rfl
@[simp] theorem glideStep_estPeriod (s : State) : (glideStep s).estPeriod = s.estPeriod := rfl
@[simp] theorem glideStep_estPitch (s : State) : (glideStep s).estPitch = s.estPitch := rfl
@[simp] theorem glideStep_estConf (s : State) : (glideStep s).estConf = s.estConf := rfl
@[simp] theorem glideStep_qtarget (s : State) : (glideStep s).qtarget = s.qtarget := rfl
@[simp] theorem glideStep_persistAmt (s : State) : (glideStep s).persistAmt = s.persistAmt := rfl
@[simp] theorem glideStep_correction (s : State) : (glideStep s).correction = s.correction := rfl
@[simp] theorem glideStep_ratio (s : State) : (glideStep s).ratio = s.ratio := rfl
@[simp] theorem glideStep_periodNom (s : State) : (glideStep s).periodNom = s.periodNom := rfl
@[simp] theorem glideStep_phaseInc (s : State) : (glideStep s).phaseInc = s.phaseInc := rfl
@[simp] theorem glideStep_phaseIn (s : State) : (glideStep s).phaseIn = s.phaseIn := rfl
@[simp] theorem glideStep_phaseOut (s : State) : (glideStep s).phaseOut = s.phaseOut := rfl
@[simp] theorem glideStep_fragSize (s : State) : (glideStep s).fragSize = s.fragSize := rfl
@[simp] theorem glideStep_inWr (s : State) : (glideStep s).inWr = s.inWr := rfl
@[simp] theorem glideStep_outRd (s : State) : (glideStep s).outRd = s.outRd := rfl
@[simp] theorem glideStep_sampleCount (s : State) : (glideStep s).sampleCount = s.sampleCount := rfl
@[simp] theorem glideStep_hopCount (s : State) : (glideStep s).hopCount = s.hopCount := rfl
@[simp] theorem glideStep_epoch (s : State) : (glideStep s).epoch = s.epoch := rfl
@[simp] theorem glideStep_mem (s : State) : (glideStep s).mem = s.mem := rfl

/-! ### persistDecay -/

@[simp] theorem persistDecay_par (s : State) : (persistDecay s).par = s.par := rfl
@[simp] theorem persistDecay_port (s : State) : (persistDecay s).port = s.port := rfl
@[simp] theorem persistDecay_readData (s : State) : (persistDecay s).readData = s.readData := rfl
@[simp] theorem persistDecay_normEn (s : State) : (persistDecay s).normEn = s.normEn := rfl
@[simp] theorem persistDecay_ready (s : State) : (persistDecay s).ready = s.ready := rfl
@[simp] theorem persistDecay_wasVoiced (s : State) : (persistDecay s).wasVoiced = s.wasVoiced := rfl
@[simp] theorem persistDecay_err (s : State) : (persistDecay s).err = s.err := rfl
@[simp] theorem persistDecay_fs (s : State) : (persistDecay s).fs = s.fs := rfl
@[simp] theorem persistDecay_fsAct (s : State) : (persistDecay s).fsAct = s.fsAct := rfl
@[simp] theorem persistDecay_nsize (s : State) : (persistDecay s).nsize = s.nsize := rfl
@[simp] theorem persistDecay_hopsize (s : State) : (persistDecay s).hopsize = s.hopsize := rfl
@[simp] theorem persistDecay_nmin (s : State) : (persistDecay s).nmin = s.nmin := rfl
@[simp] theorem persistDecay_nmax (s : State) : (persistDecay s).nmax = s.nmax := rfl
@[simp] theorem persistDecay_mix (s : State) : (persistDecay s).mix = s.mix := rfl
@[simp] theorem persistDecay_shift (s : State) : (persistDecay s).shift = s.shift := rfl
@[simp] theorem persistDecay_tune (s : State) : (persistDecay s).tune = s.tune := rfl
@[simp] theorem persistDecay_amount (s : State) : (persistDecay s).amount = s.amount := rfl
@[simp] theorem persistDecay_glide (s : State) : (persistDecay s).glide = s.glide := rfl
@[simp] theorem persistDecay_persist (s : State) : (persistDecay s).persist = s.persist := rfl
@[simp] theorem persistDecay_root (s : State) : (persistDecay s).root = s.root := rfl
@[simp] theorem persistDecay_scale (s : State) : (persistDecay s).scale = s.scale := rfl
@[simp] theorem persistDecay_mask (s : State) : (persistDecay s).mask = s.mask := rfl
@[simp] theorem persistDecay_outL (s : State) : (persistDecay s).outL = s.outL := rfl
@[simp] theorem persistDecay_outR (s : State) : (persistDecay s).outR = s.outR := rfl
@[simp] theorem persistDecay_estLag (s : State) : (persistDecay s).estLag = s.estLag := rfl
@[simp] theorem persistDecay_estPeriod (s : State) : (persistDecay s).estPeriod = s.estPeriod := rfl
@[simp] theorem persistDecay_estPitch (s : State) : (persistDecay s).estPitch = s.estPitch := rfl
@[simp] theorem persistDecay_estConf (s : State) : (persistDecay s).estConf = s.estConf := rfl
@[simp] theorem persistDecay_qtarget (s : State) : (persistDecay s).qtarget = s.qtarget := rfl
@[simp] theorem persistDecay_smooth (s : State) : (persistDecay s).smooth = s.smooth := rfl
@[simp] theorem persistDecay_correction (s : State) : (persistDecay s).correction = s.correction := rfl
@[simp] theorem persistDecay_ratio (s : State) : (persistDecay s).ratio = s.ratio := rfl
@[simp] theorem persistDecay_periodNom (s : State) : (persistDecay s).periodNom = s.periodNom := rfl
@[simp] theorem persistDecay_phaseInc (s : State) : (persistDecay s).phaseInc = s.phaseInc := rfl
@[simp] theorem persistDecay_phaseIn (s : State) : (persistDecay s).phaseIn = s.phaseIn := rfl
@[simp] theorem persistDecay_phaseOut (s : State) : (persistDecay s).phaseOut = s.phaseOut := rfl
@[simp] theorem persistDecay_fragSize (s : State) : (persistDecay s).fragSize = s.fragSize := rfl
@[simp] theorem persistDecay_inWr (s : State) : (persistDecay s).inWr = s.inWr := rfl
@[simp] theorem persistDecay_outRd (s : State) : (persistDecay s).outRd = s.outRd := rfl
@[simp] theorem persistDecay_sampleCount (s : State) : (persistDecay s).sampleCount = s.sampleCount := rfl
@[simp] theorem persistDecay_hopCount (s : State) : (persistDecay s).hopCount = s.hopCount := rfl
@[simp] theorem persistDecay_epoch (s : State) : (persistDecay s).epoch = s.epoch := rfl
@[simp] theorem persistDecay_mem (s : State) : (persistDecay s).mem = s.mem := rfl

/-! ### recordVoicing -/

@[simp] theorem recordVoicing_par (v : Bool) (s : State) : (recordVoicing v s).par = s.par := rfl
@[simp] theorem recordVoicing_port (v : Bool) (s : State) : (recordVoicing v s).port = s.port := rfl
@[simp] theorem recordVoicing_readData (v : Bool) (s : State) : (recordVoicing v s).readData = s.readData := rfl
@[simp] theorem recordVoicing_normEn (v : Bool) (s : State) : (recordVoicing v s).normEn = s.normEn := rfl
@[simp] theorem recordVoicing_ready (v : Bool) (s : State) : (recordVoicing v s).ready = s.ready := rfl
@[simp] theorem recordVoicing_err (v : Bool) (s : State) : (recordVoicing v s).err = s.err := rfl
@[simp] theorem recordVoicing_fs (v : Bool) (s : State) : (recordVoicing v s).fs = s.fs := rfl
@[simp] theorem recordVoicing_fsAct (v : Bool) (s : State) : (recordVoicing v s).fsAct = s.fsAct := rfl
@[simp] theorem recordVoicing_nsize (v : Bool) (s : State) : (recordVoicing v s).nsize = s.nsize := rfl
@[simp] theorem recordVoicing_hopsize (v : Bool) (s : State) : (recordVoicing v s).hopsize = s.hopsize := rfl
@[simp] theorem recordVoicing_nmin (v : Bool) (s : State) : (recordVoicing v s).nmin = s.nmin := rfl
@[simp] theorem recordVoicing_nmax (v : Bool) (s : State) : (recordVoicing v s).nmax = s.nmax := rfl
@[simp] theorem recordVoicing_mix (v : Bool) (s : State) : (recordVoicing v s).mix = s.mix := rfl
@[simp] theorem recordVoicing_shift (v : Bool) (s : State) : (recordVoicing v s).shift = s.shift := rfl
@[simp] theorem recordVoicing_tune (v : Bool) (s : State) : (recordVoicing v s).tune = s.tune := rfl
@[simp] theorem recordVoicing_amount (v : Bool) (s : State) : (recordVoicing v s).amount = s.amount := rfl
@[simp] theorem recordVoicing_glide (v : Bool) (s : State) : (recordVoicing v s).glide = s.glide := rfl
@[simp] theorem recordVoicing_persist (v : Bool) (s : State) : (recordVoicing v s).persist = s.persist := rfl
@[simp] theorem recordVoicing_root (v : Bool) (s : State) : (recordVoicing v s).root = s.root := rfl
@[simp] theorem recordVoicing_scale (v : Bool) (s : State) : (recordVoicing v s).scale = s.scale := rfl
@[simp] theorem recordVoicing_mask (v : Bool) (s : State) : (recordVoicing v s).mask = s.mask := rfl
@[simp] theorem recordVoicing_outL (v : Bool) (s : State) : (recordVoicing v s).outL = s.outL := rfl
@[simp] theorem recordVoicing_outR (v : Bool) (s : State) : (recordVoicing v s).outR = s.outR := rfl
@[simp] theorem recordVoicing_estLag (v : Bool) (s : State) : (recordVoicing v s).estLag = s.estLag := rfl
@[simp] theorem recordVoicing_estPeriod (v : Bool) (s : State) : (recordVoicing v s).estPeriod = s.estPeriod := rfl
@[simp] theorem recordVoicing_estPitch (v : Bool) (s : State) : (recordVoicing v s).estPitch = s.estPitch := rfl
@[simp] theorem recordVoicing_estConf (v : Bool) (s : State) : (recordVoicing v s).estConf = s.estConf := rfl
@[simp] theorem recordVoicing_qtarget (v : Bool) (s : State) : (recordVoicing v s).qtarget = s.qtarget := rfl
@[simp] theorem recordVoicing_persistAmt (v : Bool) (s : State) : (recordVoicing v s).persistAmt = s.persistAmt := rfl
@[simp] theorem recordVoicing_correction (v : Bool) (s : State) : (recordVoicing v s).correction = s.correction := rfl
@[simp] theorem recordVoicing_ratio (v : Bool) (s : State) : (recordVoicing v s).ratio = s.ratio := rfl
@[simp] theorem recordVoicing_periodNom (v : Bool) (s : State) : (recordVoicing v s).periodNom = s.periodNom := rfl
@[simp] theorem recordVoicing_phaseInc (v : Bool) (s : State) : (recordVoicing v s).phaseInc = s.phaseInc := rfl
@[simp] theorem recordVoicing_phaseIn (v : Bool) (s : State) : (recordVoicing v s).phaseIn = s.phaseIn := rfl
@[simp] theorem recordVoicing_phaseOut (v : Bool) (s : State) : (recordVoicing v s).phaseOut = s.phaseOut := rfl
@[simp] theorem recordVoicing_fragSize (v : Bool) (s : State) : (recordVoicing v s).fragSize = s.fragSize := rfl
@[simp] theorem recordVoicing_inWr (v : Bool) (s : State) : (recordVoicing v s).inWr = s.inWr := rfl
@[simp] theorem recordVoicing_outRd (v : Bool) (s : State) : (recordVoicing v s).outRd = s.outRd := rfl
@[simp] theorem recordVoicing_sampleCount (v : Bool) (s : State) : (recordVoicing v s).sampleCount = s.sampleCount := rfl
@[simp] theorem recordVoicing_hopCount (v : Bool) (s : State) : (recordVoicing v s).hopCount = s.hopCount := rfl
@[simp] theorem recordVoicing_epoch (v : Bool) (s : State) : (recordVoicing v s).epoch = s.epoch := rfl
@[simp] theorem recordVoicing_mem (v : Bool) (s : State) : (recordVoicing v s).mem = s.mem := rfl

/-! ### setOutputs -/

@[simp] theorem setOutputs_par (y : Num) (s : State) : (setOutputs y s).par = s.par := rfl
@[simp] theorem setOutputs_port (y : Num) (s : State) : (setOutputs y s).port = s.port := rfl
@[simp] theorem setOutputs_readData (y : Num) (s : State) : (setOutputs y s).readData = s.readData := rfl
@[simp] theorem setOutputs_normEn (y : Num) (s : State) : (setOutputs y s).normEn = s.normEn := rfl
@[simp] theorem setOutputs_ready (y : Num) (s : State) : (setOutputs y s).ready = s.ready := rfl
@[simp] theorem setOutputs_wasVoiced (y : Num) (s : State) : (setOutputs y s).wasVoiced = s.wasVoiced := rfl
@[simp] theorem setOutputs_err (y : Num) (s : State) : (setOutputs y s).err = s.err := rfl
@[simp] theorem setOutputs_fs (y : Num) (s : State) : (setOutputs y s).fs = s.fs := rfl
@[simp] theorem setOutputs_fsAct (y : Num) (s : State) : (setOutputs y s).fsAct = s.fsAct := rfl
@[simp] theorem setOutputs_nsize (y : Num) (s : State) : (setOutputs y s).nsize = s.nsize := rfl
@[simp] theorem setOutputs_hopsize (y : Num) (s : State) : (setOutputs y s).hopsize = s.hopsize := rfl
@[simp] theorem setOutputs_nmin (y : Num) (s : State) : (setOutputs y s).nmin = s.nmin := rfl
@[simp] theorem setOutputs_nmax (y : Num) (s : State) : (setOutputs y s).nmax = s.nmax := rfl
@[simp] theorem setOutputs_mix (y : Num) (s : State) : (setOutputs y s).mix = s.mix := rfl
@[simp] theorem setOutputs_shift (y : Num) (s : State) : (setOutputs y s).shift = s.shift := rfl
@[simp] theorem setOutputs_tune (y : Num) (s : State) : (setOutputs y s).tune = s.tune := rfl
@[simp] theorem setOutputs_amount (y : Num) (s : State) : (setOutputs y s).amount = s.amount := rfl
@[simp] theorem setOutputs_glide (y : Num) (s : State) : (setOutputs y s).glide = s.glide := rfl
@[simp] theorem setOutputs_persist (y : Num) (s : State) : (setOutputs y s).persist = s.persist := rfl
@[simp] theorem setOutputs_root (y : Num) (s : State) : (setOutputs y s).root = s.root := rfl
@[simp] theorem setOutputs_scale (y : Num) (s : State) : (setOutputs y s).scale = s.scale := rfl
@[simp] theorem setOutputs_mask (y : Num) (s : State) : (setOutputs y s).mask = s.mask := rfl
@[simp] theorem setOutputs_estLag (y : Num) (s : State) : (setOutputs y s).estLag = s.estLag := rfl
@[simp] theorem setOutputs_estPeriod (y : Num) (s : State) : (setOutputs y s).estPeriod = s.estPeriod := rfl
@[simp] theorem setOutputs_estPitch (y : Num) (s : State) : (setOutputs y s).estPitch = s.estPitch := rfl
@[simp] theorem setOutputs_estConf (y : Num) (s : State) : (setOutputs y s).estConf = s.estConf := rfl
@[simp] theorem setOutputs_qtarget (y : Num) (s : State) : (setOutputs y s).qtarget = s.qtarget := rfl
@[simp] theorem setOutputs_smooth (y : Num) (s : State) : (setOutputs y s).smooth = s.smooth := rfl
@[simp] theorem setOutputs_persistAmt (y : Num) (s : State) : (setOutputs y s).persistAmt = s.persistAmt := rfl
@[simp] theorem setOutputs_correction (y : Num) (s : State) : (setOutputs y s).correction = s.correction := rfl
@[simp] theorem setOutputs_ratio (y : Num) (s : State) : (setOutputs y s).ratio = s.ratio := rfl
@[simp] theorem setOutputs_periodNom (y : Num) (s : State) : (setOutputs y s).periodNom = s.periodNom := rfl
@[simp] theorem setOutputs_phaseInc (y : Num) (s : State) : (setOutputs y s).phaseInc = s.phaseInc := rfl
@[simp] theorem setOutputs_phaseIn (y : Num) (s : State) : (setOutputs y s).phaseIn = s.phaseIn := rfl
@[simp] theorem setOutputs_phaseOut (y : Num) (s : State) : (setOutputs y s).phaseOut = s.phaseOut := rfl
@[simp] theorem setOutputs_fragSize (y : Num) (s : State) : (setOutputs y s).fragSize = s.fragSize := rfl
@[simp] theorem setOutputs_inWr (y : Num) (s : State) : (setOutputs y s).inWr = s.inWr := rfl
@[simp] theorem setOutputs_outRd (y : Num) (s : State) : (setOutputs y s).outRd = s.outRd := rfl
@[simp] theorem setOutputs_sampleCount (y : Num) (s : State) : (setOutputs y s).sampleCount = s.sampleCount := rfl
@[simp] theorem setOutputs_hopCount (y : Num) (s : State) : (setOutputs y s).hopCount = s.hopCount := rfl
@[simp] theorem setOutputs_epoch (y : Num) (s : State) : (setOutputs y s).epoch = s.epoch := rfl
@[simp] theorem setOutputs_mem (y : Num) (s : State) : (setOutputs y s).mem = s.mem := rfl

/-! ### setRatio -/

@[simp] theorem setRatio_par (v : Bool) (s : State) : (setRatio v s).par = s.par := rfl
@[simp] theorem setRatio_port (v : Bool) (s : State) : (setRatio v s).port = s.port := rfl
@[simp] theorem setRatio_readData (v : Bool) (s : State) : (setRatio v s).readData = s.readData := rfl
@[simp] theorem setRatio_normEn (v : Bool) (s : State) : (setRatio v s).normEn = s.normEn := rfl
@[simp] theorem setRatio_ready (v : Bool) (s : State) : (setRatio v s).ready = s.ready := rfl
@[simp] theorem setRatio_wasVoiced (v : Bool) (s : State) : (setRatio v s).wasVoiced = s.wasVoiced := rfl
@[simp] theorem setRatio_err (v : Bool) (s : State) : (setRatio v s).err = s.err := rfl
@[simp] theorem setRatio_fs (v : Bool) (s : State) : (setRatio v s).fs = s.fs := rfl
@[simp] theorem setRatio_fsAct (v : Bool) (s : State) : (setRatio v s).fsAct = s.fsAct := rfl
@[simp] theorem setRatio_nsize (v : Bool) (s : State) : (setRatio v s).nsize = s.nsize := rfl
@[simp] theorem setRatio_hopsize (v : Bool) (s : State) : (setRatio v s).hopsize = s.hopsize := rfl
@[simp] theorem setRatio_nmin (v : Bool) (s : State) : (setRatio v s).nmin = s.nmin := rfl
@[simp] theorem setRatio_nmax (v : Bool) (s : State) : (setRatio v s).nmax = s.nmax := rfl
@[simp] theorem setRatio_mix (v : Bool) (s : State) : (setRatio v s).mix = s.mix := rfl
@[simp] theorem setRatio_shift (v : Bool) (s : State) : (setRatio v s).shift = s.shift := rfl
@[simp] theorem setRatio_tune (v : Bool) (s : State) : (setRatio v s).tune = s.tune := rfl
@[simp] theorem setRatio_amount (v : Bool) (s : State) : (setRatio v s).amount = s.amount := rfl
@[simp] theorem setRatio_glide (v : Bool) (s : State) : (setRatio v s).glide = s.glide := rfl
@[simp] theorem setRatio_persist (v : Bool) (s : State) : (setRatio v s).persist = s.persist := rfl
@[simp] theorem setRatio_root (v : Bool) (s : State) : (setRatio v s).root = s.root := rfl
@[simp] theorem setRatio_scale (v : Bool) (s : State) : (setRatio v s).scale = s.scale := rfl
@[simp] theorem setRatio_mask (v : Bool) (s : State) : (setRatio v s).mask = s.mask := rfl
@[simp] theorem setRatio_outL (v : Bool) (s : State) : (setRatio v s).outL = s.outL := rfl
@[simp] theorem setRatio_outR (v : Bool) (s : State) : (setRatio v s).outR = s.outR := rfl
@[simp] theorem setRatio_estLag (v : Bool) (s : State) : (setRatio v s).estLag = s.estLag := rfl
@[simp] theorem setRatio_estPeriod (v : Bool) (s : State) : (setRatio v s).estPeriod = s.estPeriod := rfl
@[simp] theorem setRatio_estPitch (v : Bool) (s : State) : (setRatio v s).estPitch = s.estPitch := rfl
@[simp] theorem setRatio_estConf (v : Bool) (s : State) : (setRatio v s).estConf = s.estConf := rfl
@[simp] theorem setRatio_qtarget (v : Bool) (s : State) : (setRatio v s).qtarget = s.qtarget := rfl
@[simp] theorem setRatio_smooth (v : Bool) (s : State) : (setRatio v s).smooth = s.smooth := rfl
@[simp] theorem setRatio_persistAmt (v : Bool) (s : State) : (setRatio v s).persistAmt = s.persistAmt := rfl
@[simp] theorem setRatio_periodNom (v : Bool) (s : State) : (setRatio v s).periodNom = s.periodNom := rfl
@[simp] theorem setRatio_phaseInc (v : Bool) (s : State) : (setRatio v s).phaseInc = s.phaseInc := rfl
@[simp] theorem setRatio_phaseIn (v : Bool) (s : State) : (setRatio v s).phaseIn = s.phaseIn := rfl
@[simp] theorem setRatio_phaseOut (v : Bool) (s : State) : (setRatio v s).phaseOut = s.phaseOut := rfl
@[simp] theorem setRatio_fragSize (v : Bool) (s : State) : (setRatio v s).fragSize = s.fragSize := rfl
@[simp] theorem setRatio_inWr (v : Bool) (s : State) : (setRatio v s).inWr = s.inWr := rfl
@[simp] theorem setRatio_outRd (v : Bool) (s : State) : (setRatio v s).outRd = s.outRd := rfl
@[simp] theorem setRatio_sampleCount (v : Bool) (s : State) : (setRatio v s).sampleCount = s.sampleCount := rfl
@[simp] theorem setRatio_hopCount (v : Bool) (s : State) : (setRatio v s).hopCount = s.hopCount := rfl
@[simp] theorem setRatio_epoch (v : Bool) (s : State) : (setRatio v s).epoch = s.epoch := rfl
@[simp] theorem setRatio_mem (v : Bool) (s : State) : (setRatio v s).mem = s.mem := rfl

end Sys2Proof.Machine
end

