-- ==== Sys2Proof/Laws/Frame.lean ====
section
/-! SUPPORT. The frames of the composed operations: what a hop, a grain extraction, a grain placement and a read-back leave
as they were (spec/46_sample_step.md R1100, R1104, spec/45_shifter.md R1002 to R1011). -/

namespace Sys2Proof.Machine

/-! ### voicingBranch -/

@[simp] theorem voicingBranch_par (v : Bool) (s : State) : (voicingBranch v s).par = s.par := by
  unfold voicingBranch; split <;> simp
@[simp] theorem voicingBranch_port (v : Bool) (s : State) : (voicingBranch v s).port = s.port := by
  unfold voicingBranch; split <;> simp
@[simp] theorem voicingBranch_readData (v : Bool) (s : State) : (voicingBranch v s).readData = s.readData := by
  unfold voicingBranch; split <;> simp
@[simp] theorem voicingBranch_normEn (v : Bool) (s : State) : (voicingBranch v s).normEn = s.normEn := by
  unfold voicingBranch; split <;> simp
@[simp] theorem voicingBranch_ready (v : Bool) (s : State) : (voicingBranch v s).ready = s.ready := by
  unfold voicingBranch; split <;> simp
@[simp] theorem voicingBranch_wasVoiced (v : Bool) (s : State) : (voicingBranch v s).wasVoiced = s.wasVoiced := by
  unfold voicingBranch; split <;> simp
@[simp] theorem voicingBranch_err (v : Bool) (s : State) : (voicingBranch v s).err = s.err := by
  unfold voicingBranch; split <;> simp
@[simp] theorem voicingBranch_fs (v : Bool) (s : State) : (voicingBranch v s).fs = s.fs := by
  unfold voicingBranch; split <;> simp
@[simp] theorem voicingBranch_fsAct (v : Bool) (s : State) : (voicingBranch v s).fsAct = s.fsAct := by
  unfold voicingBranch; split <;> simp
@[simp] theorem voicingBranch_nsize (v : Bool) (s : State) : (voicingBranch v s).nsize = s.nsize := by
  unfold voicingBranch; split <;> simp
@[simp] theorem voicingBranch_hopsize (v : Bool) (s : State) : (voicingBranch v s).hopsize = s.hopsize := by
  unfold voicingBranch; split <;> simp
@[simp] theorem voicingBranch_nmin (v : Bool) (s : State) : (voicingBranch v s).nmin = s.nmin := by
  unfold voicingBranch; split <;> simp
@[simp] theorem voicingBranch_nmax (v : Bool) (s : State) : (voicingBranch v s).nmax = s.nmax := by
  unfold voicingBranch; split <;> simp
@[simp] theorem voicingBranch_mix (v : Bool) (s : State) : (voicingBranch v s).mix = s.mix := by
  unfold voicingBranch; split <;> simp
@[simp] theorem voicingBranch_shift (v : Bool) (s : State) : (voicingBranch v s).shift = s.shift := by
  unfold voicingBranch; split <;> simp
@[simp] theorem voicingBranch_tune (v : Bool) (s : State) : (voicingBranch v s).tune = s.tune := by
  unfold voicingBranch; split <;> simp
@[simp] theorem voicingBranch_amount (v : Bool) (s : State) : (voicingBranch v s).amount = s.amount := by
  unfold voicingBranch; split <;> simp
@[simp] theorem voicingBranch_glide (v : Bool) (s : State) : (voicingBranch v s).glide = s.glide := by
  unfold voicingBranch; split <;> simp
@[simp] theorem voicingBranch_persist (v : Bool) (s : State) : (voicingBranch v s).persist = s.persist := by
  unfold voicingBranch; split <;> simp
@[simp] theorem voicingBranch_root (v : Bool) (s : State) : (voicingBranch v s).root = s.root := by
  unfold voicingBranch; split <;> simp
@[simp] theorem voicingBranch_scale (v : Bool) (s : State) : (voicingBranch v s).scale = s.scale := by
  unfold voicingBranch; split <;> simp
@[simp] theorem voicingBranch_mask (v : Bool) (s : State) : (voicingBranch v s).mask = s.mask := by
  unfold voicingBranch; split <;> simp
@[simp] theorem voicingBranch_outL (v : Bool) (s : State) : (voicingBranch v s).outL = s.outL := by
  unfold voicingBranch; split <;> simp
@[simp] theorem voicingBranch_outR (v : Bool) (s : State) : (voicingBranch v s).outR = s.outR := by
  unfold voicingBranch; split <;> simp
@[simp] theorem voicingBranch_estLag (v : Bool) (s : State) : (voicingBranch v s).estLag = s.estLag := by
  unfold voicingBranch; split <;> simp
@[simp] theorem voicingBranch_estPeriod (v : Bool) (s : State) : (voicingBranch v s).estPeriod = s.estPeriod := by
  unfold voicingBranch; split <;> simp
@[simp] theorem voicingBranch_estPitch (v : Bool) (s : State) : (voicingBranch v s).estPitch = s.estPitch := by
  unfold voicingBranch; split <;> simp
@[simp] theorem voicingBranch_estConf (v : Bool) (s : State) : (voicingBranch v s).estConf = s.estConf := by
  unfold voicingBranch; split <;> simp
@[simp] theorem voicingBranch_qtarget (v : Bool) (s : State) : (voicingBranch v s).qtarget = s.qtarget := by
  unfold voicingBranch; split <;> simp
@[simp] theorem voicingBranch_correction (v : Bool) (s : State) : (voicingBranch v s).correction = s.correction := by
  unfold voicingBranch; split <;> simp
@[simp] theorem voicingBranch_ratio (v : Bool) (s : State) : (voicingBranch v s).ratio = s.ratio := by
  unfold voicingBranch; split <;> simp
@[simp] theorem voicingBranch_periodNom (v : Bool) (s : State) : (voicingBranch v s).periodNom = s.periodNom := by
  unfold voicingBranch; split <;> simp
@[simp] theorem voicingBranch_phaseInc (v : Bool) (s : State) : (voicingBranch v s).phaseInc = s.phaseInc := by
  unfold voicingBranch; split <;> simp
@[simp] theorem voicingBranch_phaseIn (v : Bool) (s : State) : (voicingBranch v s).phaseIn = s.phaseIn := by
  unfold voicingBranch; split <;> simp
@[simp] theorem voicingBranch_phaseOut (v : Bool) (s : State) : (voicingBranch v s).phaseOut = s.phaseOut := by
  unfold voicingBranch; split <;> simp
@[simp] theorem voicingBranch_fragSize (v : Bool) (s : State) : (voicingBranch v s).fragSize = s.fragSize := by
  unfold voicingBranch; split <;> simp
@[simp] theorem voicingBranch_inWr (v : Bool) (s : State) : (voicingBranch v s).inWr = s.inWr := by
  unfold voicingBranch; split <;> simp
@[simp] theorem voicingBranch_outRd (v : Bool) (s : State) : (voicingBranch v s).outRd = s.outRd := by
  unfold voicingBranch; split <;> simp
@[simp] theorem voicingBranch_sampleCount (v : Bool) (s : State) : (voicingBranch v s).sampleCount = s.sampleCount := by
  unfold voicingBranch; split <;> simp
@[simp] theorem voicingBranch_hopCount (v : Bool) (s : State) : (voicingBranch v s).hopCount = s.hopCount := by
  unfold voicingBranch; split <;> simp
@[simp] theorem voicingBranch_epoch (v : Bool) (s : State) : (voicingBranch v s).epoch = s.epoch := by
  unfold voicingBranch; split <;> simp
@[simp] theorem voicingBranch_mem (v : Bool) (s : State) : (voicingBranch v s).mem = s.mem := by
  unfold voicingBranch; split <;> simp

/-! ### refreshPeriod -/

@[simp] theorem refreshPeriod_par (v : Bool) (s : State) : (refreshPeriod v s).par = s.par := by
  unfold refreshPeriod; split <;> rfl
@[simp] theorem refreshPeriod_port (v : Bool) (s : State) : (refreshPeriod v s).port = s.port := by
  unfold refreshPeriod; split <;> rfl
@[simp] theorem refreshPeriod_readData (v : Bool) (s : State) : (refreshPeriod v s).readData = s.readData := by
  unfold refreshPeriod; split <;> rfl
@[simp] theorem refreshPeriod_normEn (v : Bool) (s : State) : (refreshPeriod v s).normEn = s.normEn := by
  unfold refreshPeriod; split <;> rfl
@[simp] theorem refreshPeriod_ready (v : Bool) (s : State) : (refreshPeriod v s).ready = s.ready := by
  unfold refreshPeriod; split <;> rfl
@[simp] theorem refreshPeriod_wasVoiced (v : Bool) (s : State) : (refreshPeriod v s).wasVoiced = s.wasVoiced := by
  unfold refreshPeriod; split <;> rfl
@[simp] theorem refreshPeriod_err (v : Bool) (s : State) : (refreshPeriod v s).err = s.err := by
  unfold refreshPeriod; split <;> rfl
@[simp] theorem refreshPeriod_fs (v : Bool) (s : State) : (refreshPeriod v s).fs = s.fs := by
  unfold refreshPeriod; split <;> rfl
@[simp] theorem refreshPeriod_fsAct (v : Bool) (s : State) : (refreshPeriod v s).fsAct = s.fsAct := by
  unfold refreshPeriod; split <;> rfl
@[simp] theorem refreshPeriod_nsize (v : Bool) (s : State) : (refreshPeriod v s).nsize = s.nsize := by
  unfold refreshPeriod; split <;> rfl
@[simp] theorem refreshPeriod_hopsize (v : Bool) (s : State) : (refreshPeriod v s).hopsize = s.hopsize := by
  unfold refreshPeriod; split <;> rfl
@[simp] theorem refreshPeriod_nmin (v : Bool) (s : State) : (refreshPeriod v s).nmin = s.nmin := by
  unfold refreshPeriod; split <;> rfl
@[simp] theorem refreshPeriod_nmax (v : Bool) (s : State) : (refreshPeriod v s).nmax = s.nmax := by
  unfold refreshPeriod; split <;> rfl
@[simp] theorem refreshPeriod_mix (v : Bool) (s : State) : (refreshPeriod v s).mix = s.mix := by
  unfold refreshPeriod; split <;> rfl
@[simp] theorem refreshPeriod_shift (v : Bool) (s : State) : (refreshPeriod v s).shift = s.shift := by
  unfold refreshPeriod; split <;> rfl
@[simp] theorem refreshPeriod_tune (v : Bool) (s : State) : (refreshPeriod v s).tune = s.tune := by
  unfold refreshPeriod; split <;> rfl
@[simp] theorem refreshPeriod_amount (v : Bool) (s : State) : (refreshPeriod v s).amount = s.amount := by
  unfold refreshPeriod; split <;> rfl
@[simp] theorem refreshPeriod_glide (v : Bool) (s : State) : (refreshPeriod v s).glide = s.glide := by
  unfold refreshPeriod; split <;> rfl
@[simp] theorem refreshPeriod_persist (v : Bool) (s : State) : (refreshPeriod v s).persist = s.persist := by
  unfold refreshPeriod; split <;> rfl
@[simp] theorem refreshPeriod_root (v : Bool) (s : State) : (refreshPeriod v s).root = s.root := by
  unfold refreshPeriod; split <;> rfl
@[simp] theorem refreshPeriod_scale (v : Bool) (s : State) : (refreshPeriod v s).scale = s.scale := by
  unfold refreshPeriod; split <;> rfl
@[simp] theorem refreshPeriod_mask (v : Bool) (s : State) : (refreshPeriod v s).mask = s.mask := by
  unfold refreshPeriod; split <;> rfl
@[simp] theorem refreshPeriod_outL (v : Bool) (s : State) : (refreshPeriod v s).outL = s.outL := by
  unfold refreshPeriod; split <;> rfl
@[simp] theorem refreshPeriod_outR (v : Bool) (s : State) : (refreshPeriod v s).outR = s.outR := by
  unfold refreshPeriod; split <;> rfl
@[simp] theorem refreshPeriod_estLag (v : Bool) (s : State) : (refreshPeriod v s).estLag = s.estLag := by
  unfold refreshPeriod; split <;> rfl
@[simp] theorem refreshPeriod_estPeriod (v : Bool) (s : State) : (refreshPeriod v s).estPeriod = s.estPeriod := by
  unfold refreshPeriod; split <;> rfl
@[simp] theorem refreshPeriod_estPitch (v : Bool) (s : State) : (refreshPeriod v s).estPitch = s.estPitch := by
  unfold refreshPeriod; split <;> rfl
@[simp] theorem refreshPeriod_estConf (v : Bool) (s : State) : (refreshPeriod v s).estConf = s.estConf := by
  unfold refreshPeriod; split <;> rfl
@[simp] theorem refreshPeriod_qtarget (v : Bool) (s : State) : (refreshPeriod v s).qtarget = s.qtarget := by
  unfold refreshPeriod; split <;> rfl
@[simp] theorem refreshPeriod_smooth (v : Bool) (s : State) : (refreshPeriod v s).smooth = s.smooth := by
  unfold refreshPeriod; split <;> rfl
@[simp] theorem refreshPeriod_persistAmt (v : Bool) (s : State) : (refreshPeriod v s).persistAmt = s.persistAmt := by
  unfold refreshPeriod; split <;> rfl
@[simp] theorem refreshPeriod_correction (v : Bool) (s : State) : (refreshPeriod v s).correction = s.correction := by
  unfold refreshPeriod; split <;> rfl
@[simp] theorem refreshPeriod_ratio (v : Bool) (s : State) : (refreshPeriod v s).ratio = s.ratio := by
  unfold refreshPeriod; split <;> rfl
@[simp] theorem refreshPeriod_phaseIn (v : Bool) (s : State) : (refreshPeriod v s).phaseIn = s.phaseIn := by
  unfold refreshPeriod; split <;> rfl
@[simp] theorem refreshPeriod_phaseOut (v : Bool) (s : State) : (refreshPeriod v s).phaseOut = s.phaseOut := by
  unfold refreshPeriod; split <;> rfl
@[simp] theorem refreshPeriod_fragSize (v : Bool) (s : State) : (refreshPeriod v s).fragSize = s.fragSize := by
  unfold refreshPeriod; split <;> rfl
@[simp] theorem refreshPeriod_inWr (v : Bool) (s : State) : (refreshPeriod v s).inWr = s.inWr := by
  unfold refreshPeriod; split <;> rfl
@[simp] theorem refreshPeriod_outRd (v : Bool) (s : State) : (refreshPeriod v s).outRd = s.outRd := by
  unfold refreshPeriod; split <;> rfl
@[simp] theorem refreshPeriod_sampleCount (v : Bool) (s : State) : (refreshPeriod v s).sampleCount = s.sampleCount := by
  unfold refreshPeriod; split <;> rfl
@[simp] theorem refreshPeriod_hopCount (v : Bool) (s : State) : (refreshPeriod v s).hopCount = s.hopCount := by
  unfold refreshPeriod; split <;> rfl
@[simp] theorem refreshPeriod_epoch (v : Bool) (s : State) : (refreshPeriod v s).epoch = s.epoch := by
  unfold refreshPeriod; split <;> rfl
@[simp] theorem refreshPeriod_mem (v : Bool) (s : State) : (refreshPeriod v s).mem = s.mem := by
  unfold refreshPeriod; split <;> rfl

/-! ### onHop -/

@[simp] theorem onHop_par (s : State) : (onHop s).par = s.par := by
  simp [onHop]
@[simp] theorem onHop_port (s : State) : (onHop s).port = s.port := by
  simp [onHop]
@[simp] theorem onHop_readData (s : State) : (onHop s).readData = s.readData := by
  simp [onHop]
@[simp] theorem onHop_normEn (s : State) : (onHop s).normEn = s.normEn := by
  simp [onHop]
@[simp] theorem onHop_ready (s : State) : (onHop s).ready = s.ready := by
  simp [onHop]
@[simp] theorem onHop_err (s : State) : (onHop s).err = s.err := by
  simp [onHop]
@[simp] theorem onHop_fs (s : State) : (onHop s).fs = s.fs := by
  simp [onHop]
@[simp] theorem onHop_fsAct (s : State) : (onHop s).fsAct = s.fsAct := by
  simp [onHop]
@[simp] theorem onHop_nsize (s : State) : (onHop s).nsize = s.nsize := by
  simp [onHop]
@[simp] theorem onHop_hopsize (s : State) : (onHop s).hopsize = s.hopsize := by
  simp [onHop]
@[simp] theorem onHop_nmin (s : State) : (onHop s).nmin = s.nmin := by
  simp [onHop]
@[simp] theorem onHop_nmax (s : State) : (onHop s).nmax = s.nmax := by
  simp [onHop]
@[simp] theorem onHop_mix (s : State) : (onHop s).mix = s.mix := by
  simp [onHop]
@[simp] theorem onHop_shift (s : State) : (onHop s).shift = s.shift := by
  simp [onHop]
@[simp] theorem onHop_tune (s : State) : (onHop s).tune = s.tune := by
  simp [onHop]
@[simp] theorem onHop_amount (s : State) : (onHop s).amount = s.amount := by
  simp [onHop]
@[simp] theorem onHop_glide (s : State) : (onHop s).glide = s.glide := by
  simp [onHop]
@[simp] theorem onHop_persist (s : State) : (onHop s).persist = s.persist := by
  simp [onHop]
@[simp] theorem onHop_root (s : State) : (onHop s).root = s.root := by
  simp [onHop]
@[simp] theorem onHop_scale (s : State) : (onHop s).scale = s.scale := by
  simp [onHop]
@[simp] theorem onHop_mask (s : State) : (onHop s).mask = s.mask := by
  simp [onHop]
@[simp] theorem onHop_outL (s : State) : (onHop s).outL = s.outL := by
  simp [onHop]
@[simp] theorem onHop_outR (s : State) : (onHop s).outR = s.outR := by
  simp [onHop]
@[simp] theorem onHop_phaseIn (s : State) : (onHop s).phaseIn = s.phaseIn := by
  simp [onHop]
@[simp] theorem onHop_phaseOut (s : State) : (onHop s).phaseOut = s.phaseOut := by
  simp [onHop]
@[simp] theorem onHop_fragSize (s : State) : (onHop s).fragSize = s.fragSize := by
  simp [onHop]
@[simp] theorem onHop_inWr (s : State) : (onHop s).inWr = s.inWr := by
  simp [onHop]
@[simp] theorem onHop_outRd (s : State) : (onHop s).outRd = s.outRd := by
  simp [onHop]
@[simp] theorem onHop_sampleCount (s : State) : (onHop s).sampleCount = s.sampleCount := by
  simp [onHop]
@[simp] theorem onHop_hopCount (s : State) : (onHop s).hopCount = s.hopCount := by
  simp [onHop]
@[simp] theorem onHop_epoch (s : State) : (onHop s).epoch = s.epoch := by
  simp [onHop]
@[simp] theorem onHop_mem (s : State) : (onHop s).mem = s.mem := by
  simp [onHop]

/-! ### hopIfDue -/

@[simp] theorem hopIfDue_par (s : State) : (hopIfDue s).par = s.par := by
  unfold hopIfDue; split <;> simp
@[simp] theorem hopIfDue_port (s : State) : (hopIfDue s).port = s.port := by
  unfold hopIfDue; split <;> simp
@[simp] theorem hopIfDue_readData (s : State) : (hopIfDue s).readData = s.readData := by
  unfold hopIfDue; split <;> simp
@[simp] theorem hopIfDue_normEn (s : State) : (hopIfDue s).normEn = s.normEn := by
  unfold hopIfDue; split <;> simp
@[simp] theorem hopIfDue_ready (s : State) : (hopIfDue s).ready = s.ready := by
  unfold hopIfDue; split <;> simp
@[simp] theorem hopIfDue_err (s : State) : (hopIfDue s).err = s.err := by
  unfold hopIfDue; split <;> simp
@[simp] theorem hopIfDue_fs (s : State) : (hopIfDue s).fs = s.fs := by
  unfold hopIfDue; split <;> simp
@[simp] theorem hopIfDue_fsAct (s : State) : (hopIfDue s).fsAct = s.fsAct := by
  unfold hopIfDue; split <;> simp
@[simp] theorem hopIfDue_nsize (s : State) : (hopIfDue s).nsize = s.nsize := by
  unfold hopIfDue; split <;> simp
@[simp] theorem hopIfDue_hopsize (s : State) : (hopIfDue s).hopsize = s.hopsize := by
  unfold hopIfDue; split <;> simp
@[simp] theorem hopIfDue_nmin (s : State) : (hopIfDue s).nmin = s.nmin := by
  unfold hopIfDue; split <;> simp
@[simp] theorem hopIfDue_nmax (s : State) : (hopIfDue s).nmax = s.nmax := by
  unfold hopIfDue; split <;> simp
@[simp] theorem hopIfDue_mix (s : State) : (hopIfDue s).mix = s.mix := by
  unfold hopIfDue; split <;> simp
@[simp] theorem hopIfDue_shift (s : State) : (hopIfDue s).shift = s.shift := by
  unfold hopIfDue; split <;> simp
@[simp] theorem hopIfDue_tune (s : State) : (hopIfDue s).tune = s.tune := by
  unfold hopIfDue; split <;> simp
@[simp] theorem hopIfDue_amount (s : State) : (hopIfDue s).amount = s.amount := by
  unfold hopIfDue; split <;> simp
@[simp] theorem hopIfDue_glide (s : State) : (hopIfDue s).glide = s.glide := by
  unfold hopIfDue; split <;> simp
@[simp] theorem hopIfDue_persist (s : State) : (hopIfDue s).persist = s.persist := by
  unfold hopIfDue; split <;> simp
@[simp] theorem hopIfDue_root (s : State) : (hopIfDue s).root = s.root := by
  unfold hopIfDue; split <;> simp
@[simp] theorem hopIfDue_scale (s : State) : (hopIfDue s).scale = s.scale := by
  unfold hopIfDue; split <;> simp
@[simp] theorem hopIfDue_mask (s : State) : (hopIfDue s).mask = s.mask := by
  unfold hopIfDue; split <;> simp
@[simp] theorem hopIfDue_outL (s : State) : (hopIfDue s).outL = s.outL := by
  unfold hopIfDue; split <;> simp
@[simp] theorem hopIfDue_outR (s : State) : (hopIfDue s).outR = s.outR := by
  unfold hopIfDue; split <;> simp
@[simp] theorem hopIfDue_phaseIn (s : State) : (hopIfDue s).phaseIn = s.phaseIn := by
  unfold hopIfDue; split <;> simp
@[simp] theorem hopIfDue_phaseOut (s : State) : (hopIfDue s).phaseOut = s.phaseOut := by
  unfold hopIfDue; split <;> simp
@[simp] theorem hopIfDue_fragSize (s : State) : (hopIfDue s).fragSize = s.fragSize := by
  unfold hopIfDue; split <;> simp
@[simp] theorem hopIfDue_inWr (s : State) : (hopIfDue s).inWr = s.inWr := by
  unfold hopIfDue; split <;> simp
@[simp] theorem hopIfDue_outRd (s : State) : (hopIfDue s).outRd = s.outRd := by
  unfold hopIfDue; split <;> simp
@[simp] theorem hopIfDue_sampleCount (s : State) : (hopIfDue s).sampleCount = s.sampleCount := by
  unfold hopIfDue; split <;> simp
@[simp] theorem hopIfDue_epoch (s : State) : (hopIfDue s).epoch = s.epoch := by
  unfold hopIfDue; split <;> simp
@[simp] theorem hopIfDue_mem (s : State) : (hopIfDue s).mem = s.mem := by
  unfold hopIfDue; split <;> simp

/-! ### inputWrap -/

@[simp] theorem inputWrap_par (s : State) : (inputWrap s).par = s.par := by
  unfold inputWrap; split <;> simp
@[simp] theorem inputWrap_port (s : State) : (inputWrap s).port = s.port := by
  unfold inputWrap; split <;> simp
@[simp] theorem inputWrap_readData (s : State) : (inputWrap s).readData = s.readData := by
  unfold inputWrap; split <;> simp
@[simp] theorem inputWrap_normEn (s : State) : (inputWrap s).normEn = s.normEn := by
  unfold inputWrap; split <;> simp
@[simp] theorem inputWrap_ready (s : State) : (inputWrap s).ready = s.ready := by
  unfold inputWrap; split <;> simp
@[simp] theorem inputWrap_wasVoiced (s : State) : (inputWrap s).wasVoiced = s.wasVoiced := by
  unfold inputWrap; split <;> simp
@[simp] theorem inputWrap_err (s : State) : (inputWrap s).err = s.err := by
  unfold inputWrap; split <;> simp
@[simp] theorem inputWrap_fs (s : State) : (inputWrap s).fs = s.fs := by
  unfold inputWrap; split <;> simp
@[simp] theorem inputWrap_fsAct (s : State) : (inputWrap s).fsAct = s.fsAct := by
  unfold inputWrap; split <;> simp
@[simp] theorem inputWrap_nsize (s : State) : (inputWrap s).nsize = s.nsize := by
  unfold inputWrap; split <;> simp
@[simp] theorem inputWrap_hopsize (s : State) : (inputWrap s).hopsize = s.hopsize := by
  unfold inputWrap; split <;> simp
@[simp] theorem inputWrap_nmin (s : State) : (inputWrap s).nmin = s.nmin := by
  unfold inputWrap; split <;> simp
@[simp] theorem inputWrap_nmax (s : State) : (inputWrap s).nmax = s.nmax := by
  unfold inputWrap; split <;> simp
@[simp] theorem inputWrap_mix (s : State) : (inputWrap s).mix = s.mix := by
  unfold inputWrap; split <;> simp
@[simp] theorem inputWrap_shift (s : State) : (inputWrap s).shift = s.shift := by
  unfold inputWrap; split <;> simp
@[simp] theorem inputWrap_tune (s : State) : (inputWrap s).tune = s.tune := by
  unfold inputWrap; split <;> simp
@[simp] theorem inputWrap_amount (s : State) : (inputWrap s).amount = s.amount := by
  unfold inputWrap; split <;> simp
@[simp] theorem inputWrap_glide (s : State) : (inputWrap s).glide = s.glide := by
  unfold inputWrap; split <;> simp
@[simp] theorem inputWrap_persist (s : State) : (inputWrap s).persist = s.persist := by
  unfold inputWrap; split <;> simp
@[simp] theorem inputWrap_root (s : State) : (inputWrap s).root = s.root := by
  unfold inputWrap; split <;> simp
@[simp] theorem inputWrap_scale (s : State) : (inputWrap s).scale = s.scale := by
  unfold inputWrap; split <;> simp
@[simp] theorem inputWrap_mask (s : State) : (inputWrap s).mask = s.mask := by
  unfold inputWrap; split <;> simp
@[simp] theorem inputWrap_outL (s : State) : (inputWrap s).outL = s.outL := by
  unfold inputWrap; split <;> simp
@[simp] theorem inputWrap_outR (s : State) : (inputWrap s).outR = s.outR := by
  unfold inputWrap; split <;> simp
@[simp] theorem inputWrap_estLag (s : State) : (inputWrap s).estLag = s.estLag := by
  unfold inputWrap; split <;> simp
@[simp] theorem inputWrap_estPeriod (s : State) : (inputWrap s).estPeriod = s.estPeriod := by
  unfold inputWrap; split <;> simp
@[simp] theorem inputWrap_estPitch (s : State) : (inputWrap s).estPitch = s.estPitch := by
  unfold inputWrap; split <;> simp
@[simp] theorem inputWrap_estConf (s : State) : (inputWrap s).estConf = s.estConf := by
  unfold inputWrap; split <;> simp
@[simp] theorem inputWrap_qtarget (s : State) : (inputWrap s).qtarget = s.qtarget := by
  unfold inputWrap; split <;> simp
@[simp] theorem inputWrap_smooth (s : State) : (inputWrap s).smooth = s.smooth := by
  unfold inputWrap; split <;> simp
@[simp] theorem inputWrap_persistAmt (s : State) : (inputWrap s).persistAmt = s.persistAmt := by
  unfold inputWrap; split <;> simp
@[simp] theorem inputWrap_correction (s : State) : (inputWrap s).correction = s.correction := by
  unfold inputWrap; split <;> simp
@[simp] theorem inputWrap_ratio (s : State) : (inputWrap s).ratio = s.ratio := by
  unfold inputWrap; split <;> simp
@[simp] theorem inputWrap_periodNom (s : State) : (inputWrap s).periodNom = s.periodNom := by
  unfold inputWrap; split <;> simp
@[simp] theorem inputWrap_phaseInc (s : State) : (inputWrap s).phaseInc = s.phaseInc := by
  unfold inputWrap; split <;> simp
@[simp] theorem inputWrap_phaseOut (s : State) : (inputWrap s).phaseOut = s.phaseOut := by
  unfold inputWrap; split <;> simp
@[simp] theorem inputWrap_fragSize (s : State) : (inputWrap s).fragSize = s.fragSize := by
  unfold inputWrap; split <;> simp
@[simp] theorem inputWrap_inWr (s : State) : (inputWrap s).inWr = s.inWr := by
  unfold inputWrap; split <;> simp
@[simp] theorem inputWrap_outRd (s : State) : (inputWrap s).outRd = s.outRd := by
  unfold inputWrap; split <;> simp
@[simp] theorem inputWrap_sampleCount (s : State) : (inputWrap s).sampleCount = s.sampleCount := by
  unfold inputWrap; split <;> simp
@[simp] theorem inputWrap_hopCount (s : State) : (inputWrap s).hopCount = s.hopCount := by
  unfold inputWrap; split <;> simp
@[simp] theorem inputWrap_epoch (s : State) : (inputWrap s).epoch = s.epoch := by
  unfold inputWrap; split <;> simp
@[simp] theorem inputWrap_mem_input (s : State) : (inputWrap s).mem.input = s.mem.input := by
  unfold inputWrap; split <;> simp
@[simp] theorem inputWrap_mem_ob (s : State) : (inputWrap s).mem.ob = s.mem.ob := by
  unfold inputWrap; split <;> simp
@[simp] theorem inputWrap_mem_nb (s : State) : (inputWrap s).mem.nb = s.mem.nb := by
  unfold inputWrap; split <;> simp
@[simp] theorem inputWrap_mem_hann (s : State) : (inputWrap s).mem.hann = s.mem.hann := by
  unfold inputWrap; split <;> simp
@[simp] theorem inputWrap_mem_cbw (s : State) : (inputWrap s).mem.cbw = s.mem.cbw := by
  unfold inputWrap; split <;> simp
@[simp] theorem inputWrap_mem_acwinv (s : State) : (inputWrap s).mem.acwinv = s.mem.acwinv := by
  unfold inputWrap; split <;> simp

/-! ### placeSample -/

@[simp] theorem placeSample_par (n : Int) (s : State) (t : Int) : (placeSample n s t).par = s.par := by
  simp [placeSample]
@[simp] theorem placeSample_port (n : Int) (s : State) (t : Int) : (placeSample n s t).port = s.port := by
  simp [placeSample]
@[simp] theorem placeSample_readData (n : Int) (s : State) (t : Int) : (placeSample n s t).readData = s.readData := by
  simp [placeSample]
@[simp] theorem placeSample_normEn (n : Int) (s : State) (t : Int) : (placeSample n s t).normEn = s.normEn := by
  simp [placeSample]
@[simp] theorem placeSample_ready (n : Int) (s : State) (t : Int) : (placeSample n s t).ready = s.ready := by
  simp [placeSample]
@[simp] theorem placeSample_wasVoiced (n : Int) (s : State) (t : Int) : (placeSample n s t).wasVoiced = s.wasVoiced := by
  simp [placeSample]
@[simp] theorem placeSample_err (n : Int) (s : State) (t : Int) : (placeSample n s t).err = s.err := by
  simp [placeSample]
@[simp] theorem placeSample_fs (n : Int) (s : State) (t : Int) : (placeSample n s t).fs = s.fs := by
  simp [placeSample]
@[simp] theorem placeSample_fsAct (n : Int) (s : State) (t : Int) : (placeSample n s t).fsAct = s.fsAct := by
  simp [placeSample]
@[simp] theorem placeSample_nsize (n : Int) (s : State) (t : Int) : (placeSample n s t).nsize = s.nsize := by
  simp [placeSample]
@[simp] theorem placeSample_hopsize (n : Int) (s : State) (t : Int) : (placeSample n s t).hopsize = s.hopsize := by
  simp [placeSample]
@[simp] theorem placeSample_nmin (n : Int) (s : State) (t : Int) : (placeSample n s t).nmin = s.nmin := by
  simp [placeSample]
@[simp] theorem placeSample_nmax (n : Int) (s : State) (t : Int) : (placeSample n s t).nmax = s.nmax := by
  simp [placeSample]
@[simp] theorem placeSample_mix (n : Int) (s : State) (t : Int) : (placeSample n s t).mix = s.mix := by
  simp [placeSample]
@[simp] theorem placeSample_shift (n : Int) (s : State) (t : Int) : (placeSample n s t).shift = s.shift := by
  simp [placeSample]
@[simp] theorem placeSample_tune (n : Int) (s : State) (t : Int) : (placeSample n s t).tune = s.tune := by
  simp [placeSample]
@[simp] theorem placeSample_amount (n : Int) (s : State) (t : Int) : (placeSample n s t).amount = s.amount := by
  simp [placeSample]
@[simp] theorem placeSample_glide (n : Int) (s : State) (t : Int) : (placeSample n s t).glide = s.glide := by
  simp [placeSample]
@[simp] theorem placeSample_persist (n : Int) (s : State) (t : Int) : (placeSample n s t).persist = s.persist := by
  simp [placeSample]
@[simp] theorem placeSample_root (n : Int) (s : State) (t : Int) : (placeSample n s t).root = s.root := by
  simp [placeSample]
@[simp] theorem placeSample_scale (n : Int) (s : State) (t : Int) : (placeSample n s t).scale = s.scale := by
  simp [placeSample]
@[simp] theorem placeSample_mask (n : Int) (s : State) (t : Int) : (placeSample n s t).mask = s.mask := by
  simp [placeSample]
@[simp] theorem placeSample_outL (n : Int) (s : State) (t : Int) : (placeSample n s t).outL = s.outL := by
  simp [placeSample]
@[simp] theorem placeSample_outR (n : Int) (s : State) (t : Int) : (placeSample n s t).outR = s.outR := by
  simp [placeSample]
@[simp] theorem placeSample_estLag (n : Int) (s : State) (t : Int) : (placeSample n s t).estLag = s.estLag := by
  simp [placeSample]
@[simp] theorem placeSample_estPeriod (n : Int) (s : State) (t : Int) : (placeSample n s t).estPeriod = s.estPeriod := by
  simp [placeSample]
@[simp] theorem placeSample_estPitch (n : Int) (s : State) (t : Int) : (placeSample n s t).estPitch = s.estPitch := by
  simp [placeSample]
@[simp] theorem placeSample_estConf (n : Int) (s : State) (t : Int) : (placeSample n s t).estConf = s.estConf := by
  simp [placeSample]
@[simp] theorem placeSample_qtarget (n : Int) (s : State) (t : Int) : (placeSample n s t).qtarget = s.qtarget := by
  simp [placeSample]
@[simp] theorem placeSample_smooth (n : Int) (s : State) (t : Int) : (placeSample n s t).smooth = s.smooth := by
  simp [placeSample]
@[simp] theorem placeSample_persistAmt (n : Int) (s : State) (t : Int) : (placeSample n s t).persistAmt = s.persistAmt := by
  simp [placeSample]
@[simp] theorem placeSample_correction (n : Int) (s : State) (t : Int) : (placeSample n s t).correction = s.correction := by
  simp [placeSample]
@[simp] theorem placeSample_ratio (n : Int) (s : State) (t : Int) : (placeSample n s t).ratio = s.ratio := by
  simp [placeSample]
@[simp] theorem placeSample_periodNom (n : Int) (s : State) (t : Int) : (placeSample n s t).periodNom = s.periodNom := by
  simp [placeSample]
@[simp] theorem placeSample_phaseInc (n : Int) (s : State) (t : Int) : (placeSample n s t).phaseInc = s.phaseInc := by
  simp [placeSample]
@[simp] theorem placeSample_phaseIn (n : Int) (s : State) (t : Int) : (placeSample n s t).phaseIn = s.phaseIn := by
  simp [placeSample]
@[simp] theorem placeSample_phaseOut (n : Int) (s : State) (t : Int) : (placeSample n s t).phaseOut = s.phaseOut := by
  simp [placeSample]
@[simp] theorem placeSample_fragSize (n : Int) (s : State) (t : Int) : (placeSample n s t).fragSize = s.fragSize := by
  simp [placeSample]
@[simp] theorem placeSample_inWr (n : Int) (s : State) (t : Int) : (placeSample n s t).inWr = s.inWr := by
  simp [placeSample]
@[simp] theorem placeSample_outRd (n : Int) (s : State) (t : Int) : (placeSample n s t).outRd = s.outRd := by
  simp [placeSample]
@[simp] theorem placeSample_sampleCount (n : Int) (s : State) (t : Int) : (placeSample n s t).sampleCount = s.sampleCount := by
  simp [placeSample]
@[simp] theorem placeSample_hopCount (n : Int) (s : State) (t : Int) : (placeSample n s t).hopCount = s.hopCount := by
  simp [placeSample]
@[simp] theorem placeSample_epoch (n : Int) (s : State) (t : Int) : (placeSample n s t).epoch = s.epoch := by
  simp [placeSample]
@[simp] theorem placeSample_mem_input (n : Int) (s : State) (t : Int) : (placeSample n s t).mem.input = s.mem.input := by
  simp [placeSample]
@[simp] theorem placeSample_mem_frag (n : Int) (s : State) (t : Int) : (placeSample n s t).mem.frag = s.mem.frag := by
  simp [placeSample]
@[simp] theorem placeSample_mem_hann (n : Int) (s : State) (t : Int) : (placeSample n s t).mem.hann = s.mem.hann := by
  simp [placeSample]
@[simp] theorem placeSample_mem_cbw (n : Int) (s : State) (t : Int) : (placeSample n s t).mem.cbw = s.mem.cbw := by
  simp [placeSample]
@[simp] theorem placeSample_mem_acwinv (n : Int) (s : State) (t : Int) : (placeSample n s t).mem.acwinv = s.mem.acwinv := by
  simp [placeSample]

/-! ### placeAll -/

@[simp] theorem placeAll_par (n : Int) (l : List Int) (s : State) : (l.foldl (placeSample n) s).par = s.par := by
  induction l generalizing s with
  | nil => rfl
  | cons t l ih => rw [List.foldl_cons, ih, placeSample_par]
@[simp] theorem placeAll_port (n : Int) (l : List Int) (s : State) : (l.foldl (placeSample n) s).port = s.port := by
  induction l generalizing s with
  | nil => rfl
  | cons t l ih => rw [List.foldl_cons, ih, placeSample_port]
@[simp] theorem placeAll_readData (n : Int) (l : List Int) (s : State) : (l.foldl (placeSample n) s).readData = s.readData := by
  induction l generalizing s with
  | nil => rfl
  | cons t l ih => rw [List.foldl_cons, ih, placeSample_readData]
@[simp] theorem placeAll_normEn (n : Int) (l : List Int) (s : State) : (l.foldl (placeSample n) s).normEn = s.normEn := by
  induction l generalizing s with
  | nil => rfl
  | cons t l ih => rw [List.foldl_cons, ih, placeSample_normEn]
@[simp] theorem placeAll_ready (n : Int) (l : List Int) (s : State) : (l.foldl (placeSample n) s).ready = s.ready := by
  induction l generalizing s with
  | nil => rfl
  | cons t l ih => rw [List.foldl_cons, ih, placeSample_ready]
@[simp] theorem placeAll_wasVoiced (n : Int) (l : List Int) (s : State) : (l.foldl (placeSample n) s).wasVoiced = s.wasVoiced := by
  induction l generalizing s with
  | nil => rfl
  | cons t l ih => rw [List.foldl_cons, ih, placeSample_wasVoiced]
@[simp] theorem placeAll_err (n : Int) (l : List Int) (s : State) : (l.foldl (placeSample n) s).err = s.err := by
  induction l generalizing s with
  | nil => rfl
  | cons t l ih => rw [List.foldl_cons, ih, placeSample_err]
@[simp] theorem placeAll_fs (n : Int) (l : List Int) (s : State) : (l.foldl (placeSample n) s).fs = s.fs := by
  induction l generalizing s with
  | nil => rfl
  | cons t l ih => rw [List.foldl_cons, ih, placeSample_fs]
@[simp] theorem placeAll_fsAct (n : Int) (l : List Int) (s : State) : (l.foldl (placeSample n) s).fsAct = s.fsAct := by
  induction l generalizing s with
  | nil => rfl
  | cons t l ih => rw [List.foldl_cons, ih, placeSample_fsAct]
@[simp] theorem placeAll_nsize (n : Int) (l : List Int) (s : State) : (l.foldl (placeSample n) s).nsize = s.nsize := by
  induction l generalizing s with
  | nil => rfl
  | cons t l ih => rw [List.foldl_cons, ih, placeSample_nsize]
@[simp] theorem placeAll_hopsize (n : Int) (l : List Int) (s : State) : (l.foldl (placeSample n) s).hopsize = s.hopsize := by
  induction l generalizing s with
  | nil => rfl
  | cons t l ih => rw [List.foldl_cons, ih, placeSample_hopsize]
@[simp] theorem placeAll_nmin (n : Int) (l : List Int) (s : State) : (l.foldl (placeSample n) s).nmin = s.nmin := by
  induction l generalizing s with
  | nil => rfl
  | cons t l ih => rw [List.foldl_cons, ih, placeSample_nmin]
@[simp] theorem placeAll_nmax (n : Int) (l : List Int) (s : State) : (l.foldl (placeSample n) s).nmax = s.nmax := by
  induction l generalizing s with
  | nil => rfl
  | cons t l ih => rw [List.foldl_cons, ih, placeSample_nmax]
@[simp] theorem placeAll_mix (n : Int) (l : List Int) (s : State) : (l.foldl (placeSample n) s).mix = s.mix := by
  induction l generalizing s with
  | nil => rfl
  | cons t l ih => rw [List.foldl_cons, ih, placeSample_mix]
@[simp] theorem placeAll_shift (n : Int) (l : List Int) (s : State) : (l.foldl (placeSample n) s).shift = s.shift := by
  induction l generalizing s with
  | nil => rfl
  | cons t l ih => rw [List.foldl_cons, ih, placeSample_shift]
@[simp] theorem placeAll_tune (n : Int) (l : List Int) (s : State) : (l.foldl (placeSample n) s).tune = s.tune := by
  induction l generalizing s with
  | nil => rfl
  | cons t l ih => rw [List.foldl_cons, ih, placeSample_tune]
@[simp] theorem placeAll_amount (n : Int) (l : List Int) (s : State) : (l.foldl (placeSample n) s).amount = s.amount := by
  induction l generalizing s with
  | nil => rfl
  | cons t l ih => rw [List.foldl_cons, ih, placeSample_amount]
@[simp] theorem placeAll_glide (n : Int) (l : List Int) (s : State) : (l.foldl (placeSample n) s).glide = s.glide := by
  induction l generalizing s with
  | nil => rfl
  | cons t l ih => rw [List.foldl_cons, ih, placeSample_glide]
@[simp] theorem placeAll_persist (n : Int) (l : List Int) (s : State) : (l.foldl (placeSample n) s).persist = s.persist := by
  induction l generalizing s with
  | nil => rfl
  | cons t l ih => rw [List.foldl_cons, ih, placeSample_persist]
@[simp] theorem placeAll_root (n : Int) (l : List Int) (s : State) : (l.foldl (placeSample n) s).root = s.root := by
  induction l generalizing s with
  | nil => rfl
  | cons t l ih => rw [List.foldl_cons, ih, placeSample_root]
@[simp] theorem placeAll_scale (n : Int) (l : List Int) (s : State) : (l.foldl (placeSample n) s).scale = s.scale := by
  induction l generalizing s with
  | nil => rfl
  | cons t l ih => rw [List.foldl_cons, ih, placeSample_scale]
@[simp] theorem placeAll_mask (n : Int) (l : List Int) (s : State) : (l.foldl (placeSample n) s).mask = s.mask := by
  induction l generalizing s with
  | nil => rfl
  | cons t l ih => rw [List.foldl_cons, ih, placeSample_mask]
@[simp] theorem placeAll_outL (n : Int) (l : List Int) (s : State) : (l.foldl (placeSample n) s).outL = s.outL := by
  induction l generalizing s with
  | nil => rfl
  | cons t l ih => rw [List.foldl_cons, ih, placeSample_outL]
@[simp] theorem placeAll_outR (n : Int) (l : List Int) (s : State) : (l.foldl (placeSample n) s).outR = s.outR := by
  induction l generalizing s with
  | nil => rfl
  | cons t l ih => rw [List.foldl_cons, ih, placeSample_outR]
@[simp] theorem placeAll_estLag (n : Int) (l : List Int) (s : State) : (l.foldl (placeSample n) s).estLag = s.estLag := by
  induction l generalizing s with
  | nil => rfl
  | cons t l ih => rw [List.foldl_cons, ih, placeSample_estLag]
@[simp] theorem placeAll_estPeriod (n : Int) (l : List Int) (s : State) : (l.foldl (placeSample n) s).estPeriod = s.estPeriod := by
  induction l generalizing s with
  | nil => rfl
  | cons t l ih => rw [List.foldl_cons, ih, placeSample_estPeriod]
@[simp] theorem placeAll_estPitch (n : Int) (l : List Int) (s : State) : (l.foldl (placeSample n) s).estPitch = s.estPitch := by
  induction l generalizing s with
  | nil => rfl
  | cons t l ih => rw [List.foldl_cons, ih, placeSample_estPitch]
@[simp] theorem placeAll_estConf (n : Int) (l : List Int) (s : State) : (l.foldl (placeSample n) s).estConf = s.estConf := by
  induction l generalizing s with
  | nil => rfl
  | cons t l ih => rw [List.foldl_cons, ih, placeSample_estConf]
@[simp] theorem placeAll_qtarget (n : Int) (l : List Int) (s : State) : (l.foldl (placeSample n) s).qtarget = s.qtarget := by
  induction l generalizing s with
  | nil => rfl
  | cons t l ih => rw [List.foldl_cons, ih, placeSample_qtarget]
@[simp] theorem placeAll_smooth (n : Int) (l : List Int) (s : State) : (l.foldl (placeSample n) s).smooth = s.smooth := by
  induction l generalizing s with
  | nil => rfl
  | cons t l ih => rw [List.foldl_cons, ih, placeSample_smooth]
@[simp] theorem placeAll_persistAmt (n : Int) (l : List Int) (s : State) : (l.foldl (placeSample n) s).persistAmt = s.persistAmt := by
  induction l generalizing s with
  | nil => rfl
  | cons t l ih => rw [List.foldl_cons, ih, placeSample_persistAmt]
@[simp] theorem placeAll_correction (n : Int) (l : List Int) (s : State) : (l.foldl (placeSample n) s).correction = s.correction := by
  induction l generalizing s with
  | nil => rfl
  | cons t l ih => rw [List.foldl_cons, ih, placeSample_correction]
@[simp] theorem placeAll_ratio (n : Int) (l : List Int) (s : State) : (l.foldl (placeSample n) s).ratio = s.ratio := by
  induction l generalizing s with
  | nil => rfl
  | cons t l ih => rw [List.foldl_cons, ih, placeSample_ratio]
@[simp] theorem placeAll_periodNom (n : Int) (l : List Int) (s : State) : (l.foldl (placeSample n) s).periodNom = s.periodNom := by
  induction l generalizing s with
  | nil => rfl
  | cons t l ih => rw [List.foldl_cons, ih, placeSample_periodNom]
@[simp] theorem placeAll_phaseInc (n : Int) (l : List Int) (s : State) : (l.foldl (placeSample n) s).phaseInc = s.phaseInc := by
  induction l generalizing s with
  | nil => rfl
  | cons t l ih => rw [List.foldl_cons, ih, placeSample_phaseInc]
@[simp] theorem placeAll_phaseIn (n : Int) (l : List Int) (s : State) : (l.foldl (placeSample n) s).phaseIn = s.phaseIn := by
  induction l generalizing s with
  | nil => rfl
  | cons t l ih => rw [List.foldl_cons, ih, placeSample_phaseIn]
@[simp] theorem placeAll_phaseOut (n : Int) (l : List Int) (s : State) : (l.foldl (placeSample n) s).phaseOut = s.phaseOut := by
  induction l generalizing s with
  | nil => rfl
  | cons t l ih => rw [List.foldl_cons, ih, placeSample_phaseOut]
@[simp] theorem placeAll_fragSize (n : Int) (l : List Int) (s : State) : (l.foldl (placeSample n) s).fragSize = s.fragSize := by
  induction l generalizing s with
  | nil => rfl
  | cons t l ih => rw [List.foldl_cons, ih, placeSample_fragSize]
@[simp] theorem placeAll_inWr (n : Int) (l : List Int) (s : State) : (l.foldl (placeSample n) s).inWr = s.inWr := by
  induction l generalizing s with
  | nil => rfl
  | cons t l ih => rw [List.foldl_cons, ih, placeSample_inWr]
@[simp] theorem placeAll_outRd (n : Int) (l : List Int) (s : State) : (l.foldl (placeSample n) s).outRd = s.outRd := by
  induction l generalizing s with
  | nil => rfl
  | cons t l ih => rw [List.foldl_cons, ih, placeSample_outRd]
@[simp] theorem placeAll_sampleCount (n : Int) (l : List Int) (s : State) : (l.foldl (placeSample n) s).sampleCount = s.sampleCount := by
  induction l generalizing s with
  | nil => rfl
  | cons t l ih => rw [List.foldl_cons, ih, placeSample_sampleCount]
@[simp] theorem placeAll_hopCount (n : Int) (l : List Int) (s : State) : (l.foldl (placeSample n) s).hopCount = s.hopCount := by
  induction l generalizing s with
  | nil => rfl
  | cons t l ih => rw [List.foldl_cons, ih, placeSample_hopCount]
@[simp] theorem placeAll_epoch (n : Int) (l : List Int) (s : State) : (l.foldl (placeSample n) s).epoch = s.epoch := by
  induction l generalizing s with
  | nil => rfl
  | cons t l ih => rw [List.foldl_cons, ih, placeSample_epoch]
@[simp] theorem placeAll_mem_input (n : Int) (l : List Int) (s : State) : (l.foldl (placeSample n) s).mem.input = s.mem.input := by
  induction l generalizing s with
  | nil => rfl
  | cons t l ih => rw [List.foldl_cons, ih, placeSample_mem_input]
@[simp] theorem placeAll_mem_frag (n : Int) (l : List Int) (s : State) : (l.foldl (placeSample n) s).mem.frag = s.mem.frag := by
  induction l generalizing s with
  | nil => rfl
  | cons t l ih => rw [List.foldl_cons, ih, placeSample_mem_frag]
@[simp] theorem placeAll_mem_hann (n : Int) (l : List Int) (s : State) : (l.foldl (placeSample n) s).mem.hann = s.mem.hann := by
  induction l generalizing s with
  | nil => rfl
  | cons t l ih => rw [List.foldl_cons, ih, placeSample_mem_hann]
@[simp] theorem placeAll_mem_cbw (n : Int) (l : List Int) (s : State) : (l.foldl (placeSample n) s).mem.cbw = s.mem.cbw := by
  induction l generalizing s with
  | nil => rfl
  | cons t l ih => rw [List.foldl_cons, ih, placeSample_mem_cbw]
@[simp] theorem placeAll_mem_acwinv (n : Int) (l : List Int) (s : State) : (l.foldl (placeSample n) s).mem.acwinv = s.mem.acwinv := by
  induction l generalizing s with
  | nil => rfl
  | cons t l ih => rw [List.foldl_cons, ih, placeSample_mem_acwinv]

/-! ### placeGrain -/

@[simp] theorem placeGrain_par (s : State) : (placeGrain s).par = s.par := by
  simp [placeGrain]
@[simp] theorem placeGrain_port (s : State) : (placeGrain s).port = s.port := by
  simp [placeGrain]
@[simp] theorem placeGrain_readData (s : State) : (placeGrain s).readData = s.readData := by
  simp [placeGrain]
@[simp] theorem placeGrain_normEn (s : State) : (placeGrain s).normEn = s.normEn := by
  simp [placeGrain]
@[simp] theorem placeGrain_ready (s : State) : (placeGrain s).ready = s.ready := by
  simp [placeGrain]
@[simp] theorem placeGrain_wasVoiced (s : State) : (placeGrain s).wasVoiced = s.wasVoiced := by
  simp [placeGrain]
@[simp] theorem placeGrain_err (s : State) : (placeGrain s).err = s.err := by
  simp [placeGrain]
@[simp] theorem placeGrain_fs (s : State) : (placeGrain s).fs = s.fs := by
  simp [placeGrain]
@[simp] theorem placeGrain_fsAct (s : State) : (placeGrain s).fsAct = s.fsAct := by
  simp [placeGrain]
@[simp] theorem placeGrain_nsize (s : State) : (placeGrain s).nsize = s.nsize := by
  simp [placeGrain]
@[simp] theorem placeGrain_hopsize (s : State) : (placeGrain s).hopsize = s.hopsize := by
  simp [placeGrain]
@[simp] theorem placeGrain_nmin (s : State) : (placeGrain s).nmin = s.nmin := by
  simp [placeGrain]
@[simp] theorem placeGrain_nmax (s : State) : (placeGrain s).nmax = s.nmax := by
  simp [placeGrain]
@[simp] theorem placeGrain_mix (s : State) : (placeGrain s).mix = s.mix := by
  simp [placeGrain]
@[simp] theorem placeGrain_shift (s : State) : (placeGrain s).shift = s.shift := by
  simp [placeGrain]
@[simp] theorem placeGrain_tune (s : State) : (placeGrain s).tune = s.tune := by
  simp [placeGrain]
@[simp] theorem placeGrain_amount (s : State) : (placeGrain s).amount = s.amount := by
  simp [placeGrain]
@[simp] theorem placeGrain_glide (s : State) : (placeGrain s).glide = s.glide := by
  simp [placeGrain]
@[simp] theorem placeGrain_persist (s : State) : (placeGrain s).persist = s.persist := by
  simp [placeGrain]
@[simp] theorem placeGrain_root (s : State) : (placeGrain s).root = s.root := by
  simp [placeGrain]
@[simp] theorem placeGrain_scale (s : State) : (placeGrain s).scale = s.scale := by
  simp [placeGrain]
@[simp] theorem placeGrain_mask (s : State) : (placeGrain s).mask = s.mask := by
  simp [placeGrain]
@[simp] theorem placeGrain_outL (s : State) : (placeGrain s).outL = s.outL := by
  simp [placeGrain]
@[simp] theorem placeGrain_outR (s : State) : (placeGrain s).outR = s.outR := by
  simp [placeGrain]
@[simp] theorem placeGrain_estLag (s : State) : (placeGrain s).estLag = s.estLag := by
  simp [placeGrain]
@[simp] theorem placeGrain_estPeriod (s : State) : (placeGrain s).estPeriod = s.estPeriod := by
  simp [placeGrain]
@[simp] theorem placeGrain_estPitch (s : State) : (placeGrain s).estPitch = s.estPitch := by
  simp [placeGrain]
@[simp] theorem placeGrain_estConf (s : State) : (placeGrain s).estConf = s.estConf := by
  simp [placeGrain]
@[simp] theorem placeGrain_qtarget (s : State) : (placeGrain s).qtarget = s.qtarget := by
  simp [placeGrain]
@[simp] theorem placeGrain_smooth (s : State) : (placeGrain s).smooth = s.smooth := by
  simp [placeGrain]
@[simp] theorem placeGrain_persistAmt (s : State) : (placeGrain s).persistAmt = s.persistAmt := by
  simp [placeGrain]
@[simp] theorem placeGrain_correction (s : State) : (placeGrain s).correction = s.correction := by
  simp [placeGrain]
@[simp] theorem placeGrain_ratio (s : State) : (placeGrain s).ratio = s.ratio := by
  simp [placeGrain]
@[simp] theorem placeGrain_periodNom (s : State) : (placeGrain s).periodNom = s.periodNom := by
  simp [placeGrain]
@[simp] theorem placeGrain_phaseInc (s : State) : (placeGrain s).phaseInc = s.phaseInc := by
  simp [placeGrain]
@[simp] theorem placeGrain_phaseIn (s : State) : (placeGrain s).phaseIn = s.phaseIn := by
  simp [placeGrain]
@[simp] theorem placeGrain_phaseOut (s : State) : (placeGrain s).phaseOut = s.phaseOut := by
  simp [placeGrain]
@[simp] theorem placeGrain_inWr (s : State) : (placeGrain s).inWr = s.inWr := by
  simp [placeGrain]
@[simp] theorem placeGrain_outRd (s : State) : (placeGrain s).outRd = s.outRd := by
  simp [placeGrain]
@[simp] theorem placeGrain_sampleCount (s : State) : (placeGrain s).sampleCount = s.sampleCount := by
  simp [placeGrain]
@[simp] theorem placeGrain_hopCount (s : State) : (placeGrain s).hopCount = s.hopCount := by
  simp [placeGrain]
@[simp] theorem placeGrain_epoch (s : State) : (placeGrain s).epoch = s.epoch := by
  simp [placeGrain]
@[simp] theorem placeGrain_mem_input (s : State) : (placeGrain s).mem.input = s.mem.input := by
  simp [placeGrain]
@[simp] theorem placeGrain_mem_frag (s : State) : (placeGrain s).mem.frag = s.mem.frag := by
  simp [placeGrain]
@[simp] theorem placeGrain_mem_hann (s : State) : (placeGrain s).mem.hann = s.mem.hann := by
  simp [placeGrain]
@[simp] theorem placeGrain_mem_cbw (s : State) : (placeGrain s).mem.cbw = s.mem.cbw := by
  simp [placeGrain]
@[simp] theorem placeGrain_mem_acwinv (s : State) : (placeGrain s).mem.acwinv = s.mem.acwinv := by
  simp [placeGrain]

/-! ### outputWrap -/

@[simp] theorem outputWrap_par (s : State) : (outputWrap s).par = s.par := by
  unfold outputWrap; split <;> simp
@[simp] theorem outputWrap_port (s : State) : (outputWrap s).port = s.port := by
  unfold outputWrap; split <;> simp
@[simp] theorem outputWrap_readData (s : State) : (outputWrap s).readData = s.readData := by
  unfold outputWrap; split <;> simp
@[simp] theorem outputWrap_normEn (s : State) : (outputWrap s).normEn = s.normEn := by
  unfold outputWrap; split <;> simp
@[simp] theorem outputWrap_ready (s : State) : (outputWrap s).ready = s.ready := by
  unfold outputWrap; split <;> simp
@[simp] theorem outputWrap_wasVoiced (s : State) : (outputWrap s).wasVoiced = s.wasVoiced := by
  unfold outputWrap; split <;> simp
@[simp] theorem outputWrap_err (s : State) : (outputWrap s).err = s.err := by
  unfold outputWrap; split <;> simp
@[simp] theorem outputWrap_fs (s : State) : (outputWrap s).fs = s.fs := by
  unfold outputWrap; split <;> simp
@[simp] theorem outputWrap_fsAct (s : State) : (outputWrap s).fsAct = s.fsAct := by
  unfold outputWrap; split <;> simp
@[simp] theorem outputWrap_nsize (s : State) : (outputWrap s).nsize = s.nsize := by
  unfold outputWrap; split <;> simp
@[simp] theorem outputWrap_hopsize (s : State) : (outputWrap s).hopsize = s.hopsize := by
  unfold outputWrap; split <;> simp
@[simp] theorem outputWrap_nmin (s : State) : (outputWrap s).nmin = s.nmin := by
  unfold outputWrap; split <;> simp
@[simp] theorem outputWrap_nmax (s : State) : (outputWrap s).nmax = s.nmax := by
  unfold outputWrap; split <;> simp
@[simp] theorem outputWrap_mix (s : State) : (outputWrap s).mix = s.mix := by
  unfold outputWrap; split <;> simp
@[simp] theorem outputWrap_shift (s : State) : (outputWrap s).shift = s.shift := by
  unfold outputWrap; split <;> simp
@[simp] theorem outputWrap_tune (s : State) : (outputWrap s).tune = s.tune := by
  unfold outputWrap; split <;> simp
@[simp] theorem outputWrap_amount (s : State) : (outputWrap s).amount = s.amount := by
  unfold outputWrap; split <;> simp
@[simp] theorem outputWrap_glide (s : State) : (outputWrap s).glide = s.glide := by
  unfold outputWrap; split <;> simp
@[simp] theorem outputWrap_persist (s : State) : (outputWrap s).persist = s.persist := by
  unfold outputWrap; split <;> simp
@[simp] theorem outputWrap_root (s : State) : (outputWrap s).root = s.root := by
  unfold outputWrap; split <;> simp
@[simp] theorem outputWrap_scale (s : State) : (outputWrap s).scale = s.scale := by
  unfold outputWrap; split <;> simp
@[simp] theorem outputWrap_mask (s : State) : (outputWrap s).mask = s.mask := by
  unfold outputWrap; split <;> simp
@[simp] theorem outputWrap_outL (s : State) : (outputWrap s).outL = s.outL := by
  unfold outputWrap; split <;> simp
@[simp] theorem outputWrap_outR (s : State) : (outputWrap s).outR = s.outR := by
  unfold outputWrap; split <;> simp
@[simp] theorem outputWrap_estLag (s : State) : (outputWrap s).estLag = s.estLag := by
  unfold outputWrap; split <;> simp
@[simp] theorem outputWrap_estPeriod (s : State) : (outputWrap s).estPeriod = s.estPeriod := by
  unfold outputWrap; split <;> simp
@[simp] theorem outputWrap_estPitch (s : State) : (outputWrap s).estPitch = s.estPitch := by
  unfold outputWrap; split <;> simp
@[simp] theorem outputWrap_estConf (s : State) : (outputWrap s).estConf = s.estConf := by
  unfold outputWrap; split <;> simp
@[simp] theorem outputWrap_qtarget (s : State) : (outputWrap s).qtarget = s.qtarget := by
  unfold outputWrap; split <;> simp
@[simp] theorem outputWrap_smooth (s : State) : (outputWrap s).smooth = s.smooth := by
  unfold outputWrap; split <;> simp
@[simp] theorem outputWrap_persistAmt (s : State) : (outputWrap s).persistAmt = s.persistAmt := by
  unfold outputWrap; split <;> simp
@[simp] theorem outputWrap_correction (s : State) : (outputWrap s).correction = s.correction := by
  unfold outputWrap; split <;> simp
@[simp] theorem outputWrap_ratio (s : State) : (outputWrap s).ratio = s.ratio := by
  unfold outputWrap; split <;> simp
@[simp] theorem outputWrap_periodNom (s : State) : (outputWrap s).periodNom = s.periodNom := by
  unfold outputWrap; split <;> simp
@[simp] theorem outputWrap_phaseInc (s : State) : (outputWrap s).phaseInc = s.phaseInc := by
  unfold outputWrap; split <;> simp
@[simp] theorem outputWrap_phaseIn (s : State) : (outputWrap s).phaseIn = s.phaseIn := by
  unfold outputWrap; split <;> simp
@[simp] theorem outputWrap_inWr (s : State) : (outputWrap s).inWr = s.inWr := by
  unfold outputWrap; split <;> simp
@[simp] theorem outputWrap_outRd (s : State) : (outputWrap s).outRd = s.outRd := by
  unfold outputWrap; split <;> simp
@[simp] theorem outputWrap_sampleCount (s : State) : (outputWrap s).sampleCount = s.sampleCount := by
  unfold outputWrap; split <;> simp
@[simp] theorem outputWrap_hopCount (s : State) : (outputWrap s).hopCount = s.hopCount := by
  unfold outputWrap; split <;> simp
@[simp] theorem outputWrap_epoch (s : State) : (outputWrap s).epoch = s.epoch := by
  unfold outputWrap; split <;> simp
@[simp] theorem outputWrap_mem_input (s : State) : (outputWrap s).mem.input = s.mem.input := by
  unfold outputWrap; split <;> simp
@[simp] theorem outputWrap_mem_frag (s : State) : (outputWrap s).mem.frag = s.mem.frag := by
  unfold outputWrap; split <;> simp
@[simp] theorem outputWrap_mem_hann (s : State) : (outputWrap s).mem.hann = s.mem.hann := by
  unfold outputWrap; split <;> simp
@[simp] theorem outputWrap_mem_cbw (s : State) : (outputWrap s).mem.cbw = s.mem.cbw := by
  unfold outputWrap; split <;> simp
@[simp] theorem outputWrap_mem_acwinv (s : State) : (outputWrap s).mem.acwinv = s.mem.acwinv := by
  unfold outputWrap; split <;> simp

/-! ### readBackAndMix -/

@[simp] theorem readBackAndMix_par (s : State) : (readBackAndMix s).par = s.par := by
  simp [readBackAndMix, ringReadBack]
@[simp] theorem readBackAndMix_port (s : State) : (readBackAndMix s).port = s.port := by
  simp [readBackAndMix, ringReadBack]
@[simp] theorem readBackAndMix_readData (s : State) : (readBackAndMix s).readData = s.readData := by
  simp [readBackAndMix, ringReadBack]
@[simp] theorem readBackAndMix_normEn (s : State) : (readBackAndMix s).normEn = s.normEn := by
  simp [readBackAndMix, ringReadBack]
@[simp] theorem readBackAndMix_ready (s : State) : (readBackAndMix s).ready = s.ready := by
  simp [readBackAndMix, ringReadBack]
@[simp] theorem readBackAndMix_wasVoiced (s : State) : (readBackAndMix s).wasVoiced = s.wasVoiced := by
  simp [readBackAndMix, ringReadBack]
@[simp] theorem readBackAndMix_err (s : State) : (readBackAndMix s).err = s.err := by
  simp [readBackAndMix, ringReadBack]
@[simp] theorem readBackAndMix_fs (s : State) : (readBackAndMix s).fs = s.fs := by
  simp [readBackAndMix, ringReadBack]
@[simp] theorem readBackAndMix_fsAct (s : State) : (readBackAndMix s).fsAct = s.fsAct := by
  simp [readBackAndMix, ringReadBack]
@[simp] theorem readBackAndMix_nsize (s : State) : (readBackAndMix s).nsize = s.nsize := by
  simp [readBackAndMix, ringReadBack]
@[simp] theorem readBackAndMix_hopsize (s : State) : (readBackAndMix s).hopsize = s.hopsize := by
  simp [readBackAndMix, ringReadBack]
@[simp] theorem readBackAndMix_nmin (s : State) : (readBackAndMix s).nmin = s.nmin := by
  simp [readBackAndMix, ringReadBack]
@[simp] theorem readBackAndMix_nmax (s : State) : (readBackAndMix s).nmax = s.nmax := by
  simp [readBackAndMix, ringReadBack]
@[simp] theorem readBackAndMix_mix (s : State) : (readBackAndMix s).mix = s.mix := by
  simp [readBackAndMix, ringReadBack]
@[simp] theorem readBackAndMix_shift (s : State) : (readBackAndMix s).shift = s.shift := by
  simp [readBackAndMix, ringReadBack]
@[simp] theorem readBackAndMix_tune (s : State) : (readBackAndMix s).tune = s.tune := by
  simp [readBackAndMix, ringReadBack]
@[simp] theorem readBackAndMix_amount (s : State) : (readBackAndMix s).amount = s.amount := by
  simp [readBackAndMix, ringReadBack]
@[simp] theorem readBackAndMix_glide (s : State) : (readBackAndMix s).glide = s.glide := by
  simp [readBackAndMix, ringReadBack]
@[simp] theorem readBackAndMix_persist (s : State) : (readBackAndMix s).persist = s.persist := by
  simp [readBackAndMix, ringReadBack]
@[simp] theorem readBackAndMix_root (s : State) : (readBackAndMix s).root = s.root := by
  simp [readBackAndMix, ringReadBack]
@[simp] theorem readBackAndMix_scale (s : State) : (readBackAndMix s).scale = s.scale := by
  simp [readBackAndMix, ringReadBack]
@[simp] theorem readBackAndMix_mask (s : State) : (readBackAndMix s).mask = s.mask := by
  simp [readBackAndMix, ringReadBack]
@[simp] theorem readBackAndMix_estLag (s : State) : (readBackAndMix s).estLag = s.estLag := by
  simp [readBackAndMix, ringReadBack]
@[simp] theorem readBackAndMix_estPeriod (s : State) : (readBackAndMix s).estPeriod = s.estPeriod := by
  simp [readBackAndMix, ringReadBack]
@[simp] theorem readBackAndMix_estPitch (s : State) : (readBackAndMix s).estPitch = s.estPitch := by
  simp [readBackAndMix, ringReadBack]
@[simp] theorem readBackAndMix_estConf (s : State) : (readBackAndMix s).estConf = s.estConf := by
  simp [readBackAndMix, ringReadBack]
@[simp] theorem readBackAndMix_qtarget (s : State) : (readBackAndMix s).qtarget = s.qtarget := by
  simp [readBackAndMix, ringReadBack]
@[simp] theorem readBackAndMix_smooth (s : State) : (readBackAndMix s).smooth = s.smooth := by
  simp [readBackAndMix, ringReadBack]
@[simp] theorem readBackAndMix_persistAmt (s : State) : (readBackAndMix s).persistAmt = s.persistAmt := by
  simp [readBackAndMix, ringReadBack]
@[simp] theorem readBackAndMix_correction (s : State) : (readBackAndMix s).correction = s.correction := by
  simp [readBackAndMix, ringReadBack]
@[simp] theorem readBackAndMix_ratio (s : State) : (readBackAndMix s).ratio = s.ratio := by
  simp [readBackAndMix, ringReadBack]
@[simp] theorem readBackAndMix_periodNom (s : State) : (readBackAndMix s).periodNom = s.periodNom := by
  simp [readBackAndMix, ringReadBack]
@[simp] theorem readBackAndMix_phaseInc (s : State) : (readBackAndMix s).phaseInc = s.phaseInc := by
  simp [readBackAndMix, ringReadBack]
@[simp] theorem readBackAndMix_phaseIn (s : State) : (readBackAndMix s).phaseIn = s.phaseIn := by
  simp [readBackAndMix, ringReadBack]
@[simp] theorem readBackAndMix_phaseOut (s : State) : (readBackAndMix s).phaseOut = s.phaseOut := by
  simp [readBackAndMix, ringReadBack]
@[simp] theorem readBackAndMix_fragSize (s : State) : (readBackAndMix s).fragSize = s.fragSize := by
  simp [readBackAndMix, ringReadBack]
@[simp] theorem readBackAndMix_inWr (s : State) : (readBackAndMix s).inWr = s.inWr := by
  simp [readBackAndMix, ringReadBack]
@[simp] theorem readBackAndMix_sampleCount (s : State) : (readBackAndMix s).sampleCount = s.sampleCount := by
  simp [readBackAndMix, ringReadBack]
@[simp] theorem readBackAndMix_hopCount (s : State) : (readBackAndMix s).hopCount = s.hopCount := by
  simp [readBackAndMix, ringReadBack]
@[simp] theorem readBackAndMix_epoch (s : State) : (readBackAndMix s).epoch = s.epoch := by
  simp [readBackAndMix, ringReadBack]
@[simp] theorem readBackAndMix_mem_input (s : State) : (readBackAndMix s).mem.input = s.mem.input := by
  simp [readBackAndMix, ringReadBack]
@[simp] theorem readBackAndMix_mem_frag (s : State) : (readBackAndMix s).mem.frag = s.mem.frag := by
  simp [readBackAndMix, ringReadBack]
@[simp] theorem readBackAndMix_mem_hann (s : State) : (readBackAndMix s).mem.hann = s.mem.hann := by
  simp [readBackAndMix, ringReadBack]
@[simp] theorem readBackAndMix_mem_cbw (s : State) : (readBackAndMix s).mem.cbw = s.mem.cbw := by
  simp [readBackAndMix, ringReadBack]
@[simp] theorem readBackAndMix_mem_acwinv (s : State) : (readBackAndMix s).mem.acwinv = s.mem.acwinv := by
  simp [readBackAndMix, ringReadBack]

end Sys2Proof.Machine
end

