-- ==== Sys2Proof/Laws/Interval.lean ====
section
/-! SUPPORT. Every interval operation encloses the real it names (log 4). -/

namespace Sys2Proof

variable {H : Nat}

/-- The interval holds the real: its ends are in units of 2^-(2H). -/
def Ival.Holds (H : Nat) (i : Ival) (x : ℝ) : Prop := (i.lo : ℝ) ≤ x * 2 ^ (2 * H) ∧ x * 2 ^ (2 * H) ≤ (i.hi : ℝ)

theorem unitsPerOne_pos : (0 : Int) < unitsPerOne H := by unfold unitsPerOne; positivity

theorem unitsPerOne_cast : ((unitsPerOne H : Int) : ℝ) = 2 ^ (2 * H) := by unfold unitsPerOne; push_cast; rfl

theorem divDown_le {a b : Int} (hb : 0 < b) : ((divDown a b : Int) : ℝ) ≤ (a : ℝ) / b := by
  have hb' : (0 : ℝ) < b := by exact_mod_cast hb
  rw [le_div_iff₀ hb']
  exact_mod_cast Int.ediv_mul_le a hb.ne'

theorem le_divUp {a b : Int} (hb : 0 < b) : (a : ℝ) / b ≤ ((divUp a b : Int) : ℝ) := by
  have h := divDown_le (a := -a) hb
  simp only [divDown, divUp] at *
  push_cast at *
  linarith [neg_div (b : ℝ) (a : ℝ)]

theorem Ival.holds_ofRat (q : Rat) : (Ival.ofRat H q).Holds H (q : ℝ) := by
  have hd : (0 : Int) < (q.den : Int) := by exact_mod_cast q.den_pos
  have e : (q : ℝ) * 2 ^ (2 * H) = ((q.num * unitsPerOne H : Int) : ℝ) / ((q.den : Int) : ℝ) := by
    push_cast
    rw [unitsPerOne_cast, Rat.cast_def]
    ring
  exact ⟨by rw [e]; exact divDown_le hd, by rw [e]; exact le_divUp hd⟩

theorem sqrtDown_sq_le (n : Nat) : sqrtDown n * sqrtDown n ≤ n := by
  unfold sqrtDown; split <;> simp_all

theorem le_sqrtUp_sq (n : Nat) : n ≤ sqrtUp n * sqrtUp n := by
  unfold sqrtUp
  split
  · assumption
  · split
    · assumption
    · exact Nat.le_mul_self n

/-- A root of a number of units, from below. -/
theorem sqrtDown_units {n : Nat} {x : ℝ} (h : (n : ℝ) ≤ x * 2 ^ (2 * H)) :
    ((sqrtDown (n * 2 ^ (2 * H)) : Nat) : ℝ) ≤ √x * 2 ^ (2 * H) := by
  have q : (0 : ℝ) < 2 ^ (2 * H) := by positivity
  have x0 : 0 ≤ x := by
    by_contra c
    have := mul_neg_of_neg_of_pos (not_le.1 c) q
    linarith [Nat.cast_nonneg (α := ℝ) n]
  have sq : ((sqrtDown (n * 2 ^ (2 * H)) : Nat) : ℝ) * (sqrtDown (n * 2 ^ (2 * H)) : Nat) ≤ n * 2 ^ (2 * H) := by
    exact_mod_cast sqrtDown_sq_le (n * 2 ^ (2 * H))
  refine (mul_self_le_mul_self_iff (Nat.cast_nonneg _) (by positivity)).2 (sq.trans ?_)
  calc (n : ℝ) * 2 ^ (2 * H) ≤ x * 2 ^ (2 * H) * 2 ^ (2 * H) := mul_le_mul_of_nonneg_right h q.le
    _ = √x * √x * (2 ^ (2 * H) * 2 ^ (2 * H)) := by rw [Real.mul_self_sqrt x0]; ring
    _ = _ := by ring

/-- A root of a number of units, from above. -/
theorem le_sqrtUp_units {n : Nat} {x : ℝ} (h : x * 2 ^ (2 * H) ≤ (n : ℝ)) :
    √x * 2 ^ (2 * H) ≤ ((sqrtUp (n * 2 ^ (2 * H)) : Nat) : ℝ) := by
  have q : (0 : ℝ) < 2 ^ (2 * H) := by positivity
  rcases le_or_gt x 0 with x0 | x0
  · rw [Real.sqrt_eq_zero_of_nonpos x0, zero_mul]; positivity
  have sq : (n : ℝ) * 2 ^ (2 * H) ≤ ((sqrtUp (n * 2 ^ (2 * H)) : Nat) : ℝ) * (sqrtUp (n * 2 ^ (2 * H)) : Nat) := by
    exact_mod_cast le_sqrtUp_sq (n * 2 ^ (2 * H))
  refine (mul_self_le_mul_self_iff (by positivity) (Nat.cast_nonneg _)).2 (le_trans ?_ sq)
  calc √x * 2 ^ (2 * H) * (√x * 2 ^ (2 * H)) = √x * √x * (2 ^ (2 * H) * 2 ^ (2 * H)) := by ring
    _ = x * 2 ^ (2 * H) * 2 ^ (2 * H) := by rw [Real.mul_self_sqrt x0.le]; ring
    _ ≤ _ := mul_le_mul_of_nonneg_right h q.le

theorem rootsDown_le (n : Nat) : ((rootsDown H n : Nat) : ℝ) ≤ Real.sqrtTwoAddSeries 0 n * 2 ^ (2 * H) := by
  induction n with
  | zero => simp [rootsDown]
  | succ n ih =>
    rw [rootsDown, Real.sqrtTwoAddSeries]
    apply sqrtDown_units
    push_cast
    linarith

theorem le_rootsUp (n : Nat) : Real.sqrtTwoAddSeries 0 n * 2 ^ (2 * H) ≤ ((rootsUp H n : Nat) : ℝ) := by
  induction n with
  | zero => simp [rootsUp]
  | succ n ih =>
    rw [rootsUp, Real.sqrtTwoAddSeries]
    apply le_sqrtUp_units
    push_cast
    linarith

theorem natSub_cast_le {a b : Nat} {y : ℝ} (y0 : 0 ≤ y) (h : (a : ℝ) - b ≤ y) : ((a - b : Nat) : ℝ) ≤ y := by
  rcases le_total b a with c | c
  · rwa [Nat.cast_sub c]
  · rwa [Nat.sub_eq_zero_of_le c, Nat.cast_zero]

theorem le_natSub_cast {a b : Nat} {y : ℝ} (h : y ≤ (a : ℝ) - b) : y ≤ ((a - b : Nat) : ℝ) := by
  rcases le_total b a with c | c
  · rwa [Nat.cast_sub c]
  · rw [Nat.sub_eq_zero_of_le c, Nat.cast_zero]
    have : (a : ℝ) ≤ b := by exact_mod_cast c
    linarith

theorem Ival.holds_pi : (Ival.pi H).Holds H Real.pi := by
  have p : (0 : ℝ) < 2 ^ (2 * H) := by positivity
  unfold Ival.pi
  split
  · have lo := (Ival.holds_ofRat (H := H) (314159265358979323846 / 10 ^ 20)).1
    have hi := (Ival.holds_ofRat (H := H) (314159265358979323847 / 10 ^ 20)).2
    have h20 := Real.pi_gt_d20
    have h20' := Real.pi_lt_d20
    refine ⟨lo.trans (mul_le_mul_of_nonneg_right ?_ p.le), (mul_le_mul_of_nonneg_right ?_ p.le).trans hi⟩
    · push_cast; norm_num at *; linarith
    · push_cast; norm_num at *; linarith
  · generalize H / 2 = n
    have s2 : Real.sqrtTwoAddSeries 0 n ≤ 2 := (Real.sqrtTwoAddSeries_lt_two n).le
    constructor
    · have d : ((2 * 2 ^ (2 * H) - rootsUp H n : Nat) : ℝ) ≤ (2 - Real.sqrtTwoAddSeries 0 n) * 2 ^ (2 * H) := by
        apply natSub_cast_le (mul_nonneg (by linarith) p.le)
        have := le_rootsUp (H := H) n
        push_cast
        linarith
      have r := sqrtDown_units d
      have g := Real.pi_gt_sqrtTwoAddSeries n
      push_cast
      calc (2 : ℝ) ^ (n + 1) * _ ≤ 2 ^ (n + 1) * (√(2 - Real.sqrtTwoAddSeries 0 n) * 2 ^ (2 * H)) :=
            mul_le_mul_of_nonneg_left r (by positivity)
        _ ≤ _ := by rw [← mul_assoc]; exact mul_le_mul_of_nonneg_right g.le p.le
    · have d : (2 - Real.sqrtTwoAddSeries 0 n) * 2 ^ (2 * H) ≤ ((2 * 2 ^ (2 * H) - rootsDown H n : Nat) : ℝ) := by
        apply le_natSub_cast
        have := rootsDown_le (H := H) n
        push_cast
        linarith
      have r := le_sqrtUp_units d
      have g := Real.pi_lt_sqrtTwoAddSeries n
      have u := le_divUp (a := unitsPerOne H) (b := 4 ^ n) (by positivity)
      rw [unitsPerOne_cast] at u
      push_cast at u ⊢
      calc Real.pi * 2 ^ (2 * H) ≤ (2 ^ (n + 1) * √(2 - Real.sqrtTwoAddSeries 0 n) + 1 / 4 ^ n) * 2 ^ (2 * H) :=
            mul_le_mul_of_nonneg_right g.le p.le
        _ = 2 ^ (n + 1) * (√(2 - Real.sqrtTwoAddSeries 0 n) * 2 ^ (2 * H)) + 2 ^ (2 * H) / 4 ^ n := by ring
        _ ≤ _ := add_le_add (mul_le_mul_of_nonneg_left r (by positivity)) u

theorem Ival.holds_add {x y : Ival} {a b : ℝ} (hx : x.Holds H a) (hy : y.Holds H b) : (x.add y).Holds H (a + b) := by
  obtain ⟨h1, h2⟩ := hx
  obtain ⟨h3, h4⟩ := hy
  constructor <;> simp only [Ival.add] <;> push_cast <;> linarith

/-- A product of two bounded reals lies between the least and the greatest product of the bounds. -/
theorem mul_between {x y a b c d : ℝ} (h1 : a ≤ x) (h2 : x ≤ b) (h3 : c ≤ y) (h4 : y ≤ d) :
    min (min (a * c) (a * d)) (min (b * c) (b * d)) ≤ x * y ∧
    x * y ≤ max (max (a * c) (a * d)) (max (b * c) (b * d)) := by
  have lin (u v w t : ℝ) (hu : u ≤ w) (hv : w ≤ v) : min (u * t) (v * t) ≤ w * t ∧ w * t ≤ max (u * t) (v * t) := by
    rcases le_total 0 t with ht | ht
    · exact ⟨(min_le_left _ _).trans (mul_le_mul_of_nonneg_right hu ht),
        (mul_le_mul_of_nonneg_right hv ht).trans (le_max_right _ _)⟩
    · exact ⟨(min_le_right _ _).trans (mul_le_mul_of_nonpos_right hv ht),
        (mul_le_mul_of_nonpos_right hu ht).trans (le_max_left _ _)⟩
  have hxy := lin a b x y h1 h2
  have ha := lin c d y a h3 h4
  have hb := lin c d y b h3 h4
  simp only [mul_comm _ a, mul_comm _ b] at ha hb
  constructor
  · exact (min_le_min ha.1 hb.1).trans (by simpa only [mul_comm y a, mul_comm y b] using hxy.1)
  · exact (by simpa only [mul_comm y a, mul_comm y b] using hxy.2 : x * y ≤ max (a * y) (b * y)).trans
      (max_le_max ha.2 hb.2)

theorem Ival.holds_mul {x y : Ival} {a b : ℝ} (hx : x.Holds H a) (hy : y.Holds H b) : (Ival.mul H x y).Holds H (a * b) := by
  have h := mul_between hx.1 hx.2 hy.1 hy.2
  have u : (0 : Int) < unitsPerOne H := unitsPerOne_pos
  have e : a * b * 2 ^ (2 * H) = (a * 2 ^ (2 * H)) * (b * 2 ^ (2 * H)) / (unitsPerOne H : Int) := by
    rw [unitsPerOne_cast]; field_simp
  have p : (0 : ℝ) < ((unitsPerOne H : Int) : ℝ) := by exact_mod_cast u
  constructor
  · rw [e]
    refine (divDown_le u).trans (div_le_div_of_nonneg_right ?_ p.le)
    push_cast
    exact h.1
  · rw [e]
    refine le_trans (div_le_div_of_nonneg_right ?_ p.le) (le_divUp u)
    push_cast
    exact h.2

theorem Ival.holds_inv {y i : Ival} {b : ℝ} (hy : y.Holds H b) (h : Ival.inv H y = some i) : i.Holds H (1 / b) := by
  obtain ⟨h3, h4⟩ := hy
  have u : (0 : Int) < unitsPerOne H := unitsPerOne_pos
  have P : (0 : ℝ) < 2 ^ (2 * H) := by positivity
  have uu : ((unitsPerOne H * unitsPerOne H : Int) : ℝ) = 2 ^ (2 * H) * 2 ^ (2 * H) := by push_cast; rw [unitsPerOne_cast]
  unfold Ival.inv at h
  split at h
  · rename_i pos
    cases h
    have lo : (0 : ℝ) < y.lo := by exact_mod_cast pos
    have bp : 0 < b * 2 ^ (2 * H) := lo.trans_le h3
    have hi : (0 : ℝ) < y.hi := bp.trans_le h4
    have e : 1 / b * 2 ^ (2 * H) = (2 ^ (2 * H) * 2 ^ (2 * H)) / (b * 2 ^ (2 * H)) := by
      have : b ≠ 0 := by rintro rfl; simp at bp
      field_simp
    constructor
    · refine (divDown_le (by exact_mod_cast hi)).trans ?_
      rw [e, uu]
      exact div_le_div_of_nonneg_left (by positivity) bp h4
    · refine le_trans ?_ (le_divUp pos)
      rw [e, uu]
      exact div_le_div_of_nonneg_left (by positivity) lo h3
  · split at h
    · rename_i neg
      cases h
      have hi : (y.hi : ℝ) < 0 := by exact_mod_cast neg
      have bn : b * 2 ^ (2 * H) < 0 := h4.trans_lt hi
      have lo : (y.lo : ℝ) < 0 := h3.trans_lt bn
      have e : 1 / b * 2 ^ (2 * H) = -((2 ^ (2 * H) * 2 ^ (2 * H)) / (-(b * 2 ^ (2 * H)))) := by
        have : b ≠ 0 := by rintro rfl; simp at bn
        field_simp
      have d1 := le_divUp (a := unitsPerOne H * unitsPerOne H) (b := -y.hi) (by omega)
      have d2 := divDown_le (a := unitsPerOne H * unitsPerOne H) (b := -y.lo) (by exact_mod_cast (by linarith : (0:ℝ) < -y.lo))
      rw [uu] at d1 d2
      push_cast at d1 d2
      constructor
      · rw [e]
        push_cast
        have := div_le_div_of_nonneg_left (a := (2 ^ (2 * H) * 2 ^ (2 * H) : ℝ)) (by positivity)
          (by linarith : (0 : ℝ) < -y.hi) (by linarith : -(y.hi : ℝ) ≤ -(b * 2 ^ (2 * H)))
        linarith
      · rw [e]
        push_cast
        have := div_le_div_of_nonneg_left (a := (2 ^ (2 * H) * 2 ^ (2 * H) : ℝ)) (by positivity)
          (by linarith : (0 : ℝ) < -(b * 2 ^ (2 * H))) (by linarith : -(b * 2 ^ (2 * H)) ≤ -(y.lo : ℝ))
        linarith
    · cases h

theorem Ival.holds_div {x y i : Ival} {a b : ℝ} (hx : x.Holds H a) (hy : y.Holds H b) (h : Ival.div H x y = some i) :
    i.Holds H (a / b) := by
  unfold Ival.div at h
  obtain ⟨v, hv, rfl⟩ := Option.map_eq_some_iff.1 h
  simpa [div_eq_mul_inv] using Ival.holds_mul hx (Ival.holds_inv hy hv)

/-! ### The cosine -/

theorem Ival.holds_doubleAngle {c : Ival} {a : ℝ} (h : c.Holds H (Real.cos a)) : (Ival.doubleAngle H c).Holds H (Real.cos (2 * a)) := by
  have m := Ival.holds_mul h h
  have e : Real.cos (2 * a) * 2 ^ (2 * H) = 2 * (Real.cos a * Real.cos a * 2 ^ (2 * H)) - 2 ^ (2 * H) := by
    rw [Real.cos_two_mul]; ring
  have sq : (0 : ℝ) ≤ Real.cos a * Real.cos a * 2 ^ (2 * H) := mul_nonneg (mul_self_nonneg _) (by positivity)
  obtain ⟨m1, m2⟩ := m
  unfold Ival.doubleAngle
  constructor
  · rw [e]
    simp only
    split <;> push_cast <;> rw [unitsPerOne_cast] <;> linarith
  · rw [e]
    push_cast
    rw [unitsPerOne_cast]
    linarith

theorem Ival.holds_doubleAngles (k : Nat) : ∀ {c : Ival} {a : ℝ}, c.Holds H (Real.cos a) →
    (Ival.doubleAngles H k c).Holds H (Real.cos (2 ^ k * a)) := by
  induction k with
  | zero => intro c a h; simpa [Ival.doubleAngles] using h
  | succ k ih =>
    intro c a h
    have := ih (Ival.holds_doubleAngle h)
    rwa [show (2 : ℝ) ^ (k + 1) * a = 2 ^ k * (2 * a) by ring]

theorem Ival.abs_le_bound {x : Ival} {a : ℝ} (h : x.Holds H a) :
    |a * 2 ^ (2 * H)| ≤ ((max x.lo.natAbs x.hi.natAbs : Nat) : ℝ) := by
  obtain ⟨h1, h2⟩ := h
  have b1 : -(x.lo : ℝ) ≤ ((max x.lo.natAbs x.hi.natAbs : Nat) : ℝ) := by
    have : -x.lo ≤ ((max x.lo.natAbs x.hi.natAbs : Nat) : Int) := by omega
    simpa using (Int.cast_le (R := ℝ)).2 this
  have b2 : (x.hi : ℝ) ≤ ((max x.lo.natAbs x.hi.natAbs : Nat) : ℝ) := by
    have : x.hi ≤ ((max x.lo.natAbs x.hi.natAbs : Nat) : Int) := by omega
    simpa using (Int.cast_le (R := ℝ)).2 this
  rw [abs_le]
  constructor <;> linarith

theorem Ival.near_le_abs {x : Ival} {a : ℝ} (h : x.Holds H a) :
    0 ≤ (if 0 < x.lo then x.lo else if x.hi < 0 then -x.hi else 0) ∧
    (((if 0 < x.lo then x.lo else if x.hi < 0 then -x.hi else 0) : Int) : ℝ) ≤ |a * 2 ^ (2 * H)| := by
  obtain ⟨h1, h2⟩ := h
  split
  · rename_i p
    exact ⟨p.le, h1.trans (le_abs_self _)⟩
  · split
    · rename_i p
      refine ⟨by omega, ?_⟩
      push_cast
      linarith [neg_abs_le (a * 2 ^ (2 * H))]
    · simp

theorem Ival.holds_cos {x i : Ival} {a : ℝ} (hx : x.Holds H a) (h : Ival.cos H x = some i) : i.Holds H (Real.cos a) := by
  have hb := Ival.abs_le_bound hx
  have hn := Ival.near_le_abs hx
  unfold Ival.cos at h
  generalize (max x.lo.natAbs x.hi.natAbs : Nat) = bound at *
  generalize ((if 0 < x.lo then x.lo else if x.hi < 0 then -x.hi else 0) : Int) = near at *
  dsimp only at h
  split at h
  · rename_i small
    rw [← Option.some.inj h]
    have small' : (bound : ℝ) ≤ 8 * 2 ^ (2 * H) := by
      rw [← unitsPerOne_cast]; exact_mod_cast small
    have eight : (8 : ℝ) ≤ 2 ^ (H / 2 + 3) := by
      rw [pow_add]
      have : (1 : ℝ) ≤ 2 ^ (H / 2) := one_le_pow₀ (by norm_num)
      linarith
    have four : (4 : ℝ) ^ (H / 2 + 3) = (2 ^ (H / 2 + 3)) ^ 2 := by
      rw [← pow_mul, mul_comm (H / 2 + 3) 2, pow_mul]; norm_num
    set y : ℝ := a / 2 ^ (H / 2 + 3) with hy
    set t : ℝ := y ^ 2 with ht
    have hay : a = 2 ^ (H / 2 + 3) * y := by rw [hy]; field_simp
    have ha : |a| ≤ 8 := by
      have : |a| * 2 ^ (2 * H) ≤ 8 * 2 ^ (2 * H) := by
        rw [abs_mul, abs_of_pos (by positivity : (0 : ℝ) < 2 ^ (2 * H))] at hb
        exact hb.trans small'
      exact le_of_mul_le_mul_right this (by positivity)
    have hy1 : |y| ≤ 1 := by
      rw [hy, abs_div, abs_of_pos (by positivity : (0 : ℝ) < 2 ^ (H / 2 + 3)), div_le_one (by positivity)]
      exact ha.trans eight
    have bd := Real.cos_bound hy1
    have t4 : |y| ^ 4 = t ^ 2 := by rw [ht, ← pow_mul, ← abs_pow]; exact abs_of_nonneg (by positivity)
    rw [t4, abs_le] at bd
    have sq : t * 2 ^ (2 * H) = (a * 2 ^ (2 * H)) ^ 2 / (2 ^ (2 * H) * 4 ^ (H / 2 + 3)) := by
      rw [ht, hy, four]; field_simp
    have sqa : (a * 2 ^ (2 * H)) ^ 2 = |a * 2 ^ (2 * H)| ^ 2 := (sq_abs _).symm
    have den : (0 : Int) < unitsPerOne H * 4 ^ (H / 2 + 3) := mul_pos unitsPerOne_pos (by positivity)
    have denr : ((unitsPerOne H * 4 ^ (H / 2 + 3) : Int) : ℝ) = 2 ^ (2 * H) * 4 ^ (H / 2 + 3) := by
      rw [Int.cast_mul, unitsPerOne_cast]; norm_num
    have tHi : t * 2 ^ (2 * H) ≤ ((divUp ((bound : Int) * bound) (unitsPerOne H * 4 ^ (H / 2 + 3)) : Int) : ℝ) := by
      refine le_trans ?_ (le_divUp den)
      rw [sq, sqa, denr]
      push_cast
      refine div_le_div_of_nonneg_right ?_ (by positivity)
      nlinarith [abs_nonneg (a * 2 ^ (2 * H))]
    have tLo : ((divDown (near * near) (unitsPerOne H * 4 ^ (H / 2 + 3)) : Int) : ℝ) ≤ t * 2 ^ (2 * H) := by
      refine (divDown_le den).trans ?_
      rw [sq, sqa, denr]
      push_cast
      refine div_le_div_of_nonneg_right ?_ (by positivity)
      have : (0 : ℝ) ≤ near := by exact_mod_cast hn.1
      nlinarith [hn.2]
    generalize divUp ((bound : Int) * bound) (unitsPerOne H * 4 ^ (H / 2 + 3)) = T at *
    generalize divDown (near * near) (unitsPerOne H * 4 ^ (H / 2 + 3)) = L at *
    have t0 : 0 ≤ t := by rw [ht]; positivity
    have den96 : (0 : Int) < 96 * unitsPerOne H := mul_pos (by norm_num) unitsPerOne_pos
    have eBig : 5 / 96 * t ^ 2 * 2 ^ (2 * H) ≤ ((divUp (5 * (T * T)) (96 * unitsPerOne H) : Int) : ℝ) := by
      refine le_trans ?_ (le_divUp den96)
      push_cast
      rw [unitsPerOne_cast, le_div_iff₀ (by positivity)]
      have : (t * 2 ^ (2 * H)) * (t * 2 ^ (2 * H)) ≤ (T : ℝ) * T := mul_le_mul tHi tHi (by positivity) (le_trans (by positivity) tHi)
      nlinarith
    generalize divUp (5 * (T * T)) (96 * unitsPerOne H) = E at *
    have d1 := le_divUp (a := T) (b := 2) (by norm_num)
    have d2 := divDown_le (a := L) (b := 2) (by norm_num)
    push_cast at d1 d2
    rw [hay]
    apply Ival.holds_doubleAngles (H / 2 + 3)
    constructor
    · push_cast
      rw [unitsPerOne_cast]
      nlinarith [bd.1]
    · push_cast
      rw [unitsPerOne_cast]
      nlinarith [bd.2]
  · cases h

/-! ### Logarithm and power of two -/

theorem natDiv_le (a b : Nat) : ((a / b : Nat) : ℝ) ≤ (a : ℝ) / b := Nat.cast_div_le

theorem le_natDivUp {a b : Nat} (hb : 0 < b) : (a : ℝ) / b ≤ (((a + (b - 1)) / b : Nat) : ℝ) := by
  have hb' : (0 : ℝ) < b := by exact_mod_cast hb
  rw [div_le_iff₀ hb']
  have h := Nat.lt_div_mul_add hb (a := a + (b - 1))
  have : a ≤ (a + (b - 1)) / b * b := by omega
  exact_mod_cast this

/-- The binary logarithm of `y` units. -/
noncomputable def lgUnits (H : Nat) (y : ℝ) : ℝ := Real.logb 2 (y / 2 ^ (2 * H))

theorem lgUnits_mono {x y : ℝ} (hx : 0 < x) (h : x ≤ y) : lgUnits H x ≤ lgUnits H y :=
  Real.logb_le_logb_of_le (by norm_num) (by positivity) (by gcongr)

theorem lgUnits_sq {y : ℝ} (hy : 0 < y) : lgUnits H (y * y / 2 ^ (2 * H)) = 2 * lgUnits H y := by
  unfold lgUnits
  rw [show y * y / 2 ^ (2 * H) / 2 ^ (2 * H) = (y / 2 ^ (2 * H)) ^ 2 by field_simp, Real.logb_pow]
  norm_num

theorem lgUnits_half {y : ℝ} (hy : 0 < y) : lgUnits H (y / 2) = lgUnits H y - 1 := by
  unfold lgUnits
  rw [show y / 2 / 2 ^ (2 * H) = y / 2 ^ (2 * H) / 2 by ring, Real.logb_div (by positivity) (by norm_num),
    Real.logb_self_eq_one (by norm_num)]

theorem lgUnits_one : lgUnits H (2 ^ (2 * H)) = 0 := by
  unfold lgUnits; rw [div_self (by positivity), Real.logb_one]

theorem logDown_le (k : Nat) : ∀ y : Nat, 2 ^ (2 * H) ≤ y → ((logDown H k y : Nat) : ℝ) ≤ 2 ^ k * lgUnits H y := by
  induction k with
  | zero =>
    intro y hy
    have : lgUnits H (2 ^ (2 * H)) ≤ lgUnits H y := lgUnits_mono (by positivity) (by exact_mod_cast hy)
    rw [lgUnits_one] at this
    simpa [logDown] using this
  | succ k ih =>
    intro y hy
    have yr : (2 : ℝ) ^ (2 * H) ≤ y := by exact_mod_cast hy
    have y0 : (0 : ℝ) < y := lt_of_lt_of_le (by positivity) yr
    have hz : 2 ^ (2 * H) ≤ y * y / 2 ^ (2 * H) := by
      rw [Nat.le_div_iff_mul_le (by positivity)]
      exact Nat.mul_le_mul hy hy
    have zr : ((y * y / 2 ^ (2 * H) : Nat) : ℝ) ≤ (y : ℝ) * y / 2 ^ (2 * H) := by
      have := natDiv_le (y * y) (2 ^ (2 * H))
      rwa [Nat.cast_mul, Nat.cast_pow, Nat.cast_ofNat] at this
    have z0 : (0 : ℝ) < ((y * y / 2 ^ (2 * H) : Nat) : ℝ) := by
      have : 0 < y * y / 2 ^ (2 * H) := lt_of_lt_of_le (by positivity) hz
      exact_mod_cast this
    have step : lgUnits H ((y * y / 2 ^ (2 * H) : Nat) : ℝ) ≤ 2 * lgUnits H y := by
      rw [← lgUnits_sq y0]; exact lgUnits_mono z0 zr
    unfold logDown
    generalize y * y / 2 ^ (2 * H) = z at *
    dsimp only
    split
    · rename_i big
      have h2 : 2 ^ (2 * H) ≤ z / 2 := by
        rw [Nat.le_div_iff_mul_le (by norm_num)]; exact big
      have w0 : (0 : ℝ) < ((z / 2 : Nat) : ℝ) := by
        have : 0 < z / 2 := lt_of_lt_of_le (by positivity) h2
        exact_mod_cast this
      have wr : ((z / 2 : Nat) : ℝ) ≤ (z : ℝ) / 2 := by
        have := natDiv_le z 2
        push_cast at this
        exact this
      have := (lgUnits_mono (H := H) w0 wr).trans_eq (lgUnits_half z0)
      have ih' := ih _ h2
      push_cast
      have p : (0 : ℝ) < 2 ^ k := by positivity
      rw [pow_succ]
      nlinarith
    · have ih' := ih _ hz
      have p : (0 : ℝ) < 2 ^ k := by positivity
      rw [pow_succ]
      nlinarith

theorem le_logUp (k : Nat) : ∀ y : Nat, 2 ^ (2 * H) ≤ y → y ≤ 2 ^ (2 * H + 1) → 2 ^ k * lgUnits H y ≤ ((logUp H k y : Nat) : ℝ) := by
  induction k with
  | zero =>
    intro y hy hy'
    have : lgUnits H y ≤ lgUnits H (2 ^ (2 * H + 1)) :=
      lgUnits_mono (lt_of_lt_of_le (by positivity) (by exact_mod_cast hy : (2 : ℝ) ^ (2 * H) ≤ y)) (by exact_mod_cast hy')
    have e : lgUnits H (2 ^ (2 * H + 1)) = 1 := by
      unfold lgUnits
      rw [show (2 : ℝ) ^ (2 * H + 1) / 2 ^ (2 * H) = 2 by rw [pow_succ]; field_simp, Real.logb_self_eq_one (by norm_num)]
    simpa [logUp, e] using this
  | succ k ih =>
    intro y hy hy'
    have yr : (2 : ℝ) ^ (2 * H) ≤ y := by exact_mod_cast hy
    have y0 : (0 : ℝ) < y := lt_of_lt_of_le (by positivity) yr
    have zr : (y : ℝ) * y / 2 ^ (2 * H) ≤ (((y * y + (2 ^ (2 * H) - 1)) / 2 ^ (2 * H) : Nat) : ℝ) := by
      have := le_natDivUp (a := y * y) (b := 2 ^ (2 * H)) (by positivity)
      rwa [Nat.cast_mul, Nat.cast_pow, Nat.cast_ofNat] at this
    have hz : 2 ^ (2 * H) ≤ (y * y + (2 ^ (2 * H) - 1)) / 2 ^ (2 * H) := by
      rw [Nat.le_div_iff_mul_le (by positivity)]
      exact (Nat.mul_le_mul hy hy).trans (Nat.le_add_right _ _)
    have hz' : (y * y + (2 ^ (2 * H) - 1)) / 2 ^ (2 * H) ≤ 2 ^ (2 * H + 2) := by
      rw [Nat.div_le_iff_le_mul_add_pred (by positivity)]
      have := Nat.mul_le_mul hy' hy'
      have e : (2 : Nat) ^ (2 * H + 1) * 2 ^ (2 * H + 1) = 2 ^ (2 * H) * 2 ^ (2 * H + 2) := by ring
      omega
    have step : 2 * lgUnits H y ≤ lgUnits H (((y * y + (2 ^ (2 * H) - 1)) / 2 ^ (2 * H) : Nat) : ℝ) := by
      rw [← lgUnits_sq y0]; exact lgUnits_mono (by positivity) zr
    unfold logUp
    generalize (y * y + (2 ^ (2 * H) - 1)) / 2 ^ (2 * H) = z at *
    have z0 : (0 : ℝ) < z := lt_of_lt_of_le (by positivity) (by exact_mod_cast hz : (2 : ℝ) ^ (2 * H) ≤ z)
    have p : (0 : ℝ) < 2 ^ k := by positivity
    dsimp only
    split
    · rename_i big
      have wr : (z : ℝ) / 2 ≤ (((z + 1) / 2 : Nat) : ℝ) := by
        have := le_natDivUp (a := z) (b := 2) (by norm_num)
        push_cast at this
        exact_mod_cast this
      have := (lgUnits_half (H := H) z0).symm.trans_le (lgUnits_mono (by positivity) wr)
      have e1 : (2 : Nat) ^ (2 * H + 1) = 2 * 2 ^ (2 * H) := by ring
      have e2 : (2 : Nat) ^ (2 * H + 2) = 4 * 2 ^ (2 * H) := by ring
      have ih' := ih ((z + 1) / 2) (by omega) (by omega)
      push_cast
      rw [pow_succ]
      nlinarith
    · have ih' := ih z hz (by omega)
      rw [pow_succ]
      nlinarith

theorem lgUnits_split {n : Nat} (h : 0 < n) (L : Nat) :
    lgUnits H n = ((L : ℝ) - 2 * H) + lgUnits H ((n : ℝ) * 2 ^ (2 * H) / 2 ^ L) := by
  have n0 : (0 : ℝ) < n := by exact_mod_cast h
  unfold lgUnits
  rw [show (n : ℝ) * 2 ^ (2 * H) / 2 ^ L / 2 ^ (2 * H) = n / 2 ^ L by field_simp, Real.logb_div n0.ne' (by positivity),
    Real.logb_div n0.ne' (by positivity), Real.logb_pow, Real.logb_pow, Real.logb_self_eq_one (by norm_num)]
  push_cast
  ring

theorem units_down {l d m g : ℝ} (h : d ≤ 2 ^ H * m) (h' : m ≤ g) :
    (l - 2 * H) * 2 ^ (2 * H) + d * 2 ^ H ≤ (l - 2 * H + g) * 2 ^ (2 * H) := by
  have e : (2 : ℝ) ^ (2 * H) = 2 ^ H * 2 ^ H := by rw [two_mul, pow_add]
  have p : (0 : ℝ) < 2 ^ H := by positivity
  rw [e]
  generalize (2 : ℝ) ^ H = a at *
  nlinarith [mul_le_mul_of_nonneg_right h p.le, mul_le_mul_of_nonneg_left h' (mul_pos p p).le]

theorem units_up {l u m g : ℝ} (h : 2 ^ H * m ≤ u) (h' : g ≤ m) :
    (l - 2 * H + g) * 2 ^ (2 * H) ≤ (l - 2 * H) * 2 ^ (2 * H) + u * 2 ^ H := by
  have e : (2 : ℝ) ^ (2 * H) = 2 ^ H * 2 ^ H := by rw [two_mul, pow_add]
  have p : (0 : ℝ) < 2 ^ H := by positivity
  rw [e]
  generalize (2 : ℝ) ^ H = a at *
  nlinarith [mul_le_mul_of_nonneg_right h p.le, mul_le_mul_of_nonneg_left h' (mul_pos p p).le]

theorem Ival.log2Down_le {n : Nat} (h : 0 < n) : ((Ival.log2Down H n : Int) : ℝ) ≤ lgUnits H n * 2 ^ (2 * H) := by
  have hlog := Nat.log2_self_le h.ne'
  have m1 : 2 ^ (2 * H) ≤ n * 2 ^ (2 * H) / 2 ^ Nat.log2 n := by
    rw [Nat.le_div_iff_mul_le (by positivity)]
    nlinarith [Nat.pos_of_ne_zero (show (2 : Nat) ^ (2 * H) ≠ 0 by positivity)]
  have mr := natDiv_le (n * 2 ^ (2 * H)) (2 ^ Nat.log2 n)
  have m0 : (0 : ℝ) < ((n * 2 ^ (2 * H) / 2 ^ Nat.log2 n : Nat) : ℝ) := by
    have : 0 < n * 2 ^ (2 * H) / 2 ^ Nat.log2 n := lt_of_lt_of_le (by positivity) m1
    exact_mod_cast this
  have d := logDown_le H _ m1
  have mono := lgUnits_mono (H := H) m0 mr
  rw [lgUnits_split h (Nat.log2 n)]
  unfold Ival.log2Down
  generalize n * 2 ^ (2 * H) / 2 ^ Nat.log2 n = m at *
  rw [Nat.cast_mul, Nat.cast_pow, Nat.cast_pow, Nat.cast_ofNat] at mono
  rw [Int.cast_add, Int.cast_mul, Int.cast_mul, unitsPerOne_cast, Int.cast_sub, Int.cast_pow]
  push_cast
  generalize lgUnits H ((n : ℝ) * 2 ^ (2 * H) / 2 ^ Nat.log2 n) = g at *
  exact units_down d mono

theorem Ival.le_log2Up {n : Nat} (h : 0 < n) : lgUnits H n * 2 ^ (2 * H) ≤ ((Ival.log2Up H n : Int) : ℝ) := by
  have hlog := Nat.log2_self_le h.ne'
  have hlog' := Nat.lt_log2_self (n := n)
  have q : 0 < 2 ^ Nat.log2 n := by positivity
  have m1 : 2 ^ (2 * H) ≤ (n * 2 ^ (2 * H) + (2 ^ Nat.log2 n - 1)) / 2 ^ Nat.log2 n := by
    rw [Nat.le_div_iff_mul_le q]
    nlinarith [Nat.pos_of_ne_zero (show (2 : Nat) ^ (2 * H) ≠ 0 by positivity)]
  have m2 : (n * 2 ^ (2 * H) + (2 ^ Nat.log2 n - 1)) / 2 ^ Nat.log2 n ≤ 2 ^ (2 * H + 1) := by
    rw [Nat.div_le_iff_le_mul_add_pred q]
    have : n * 2 ^ (2 * H) ≤ 2 ^ Nat.log2 n * 2 ^ (2 * H + 1) := by
      rw [show 2 ^ Nat.log2 n * 2 ^ (2 * H + 1) = 2 ^ (Nat.log2 n + 1) * 2 ^ (2 * H) by ring]
      exact Nat.mul_le_mul_right _ hlog'.le
    exact Nat.add_le_add_right this _
  have mr := le_natDivUp (a := n * 2 ^ (2 * H)) q
  have d := le_logUp H _ m1 m2
  have n0 : (0 : ℝ) < n := by exact_mod_cast h
  rw [lgUnits_split h (Nat.log2 n)]
  have mono := lgUnits_mono (H := H) (by rw [Nat.cast_mul, Nat.cast_pow, Nat.cast_pow]; positivity) mr
  unfold Ival.log2Up
  generalize (n * 2 ^ (2 * H) + (2 ^ Nat.log2 n - 1)) / 2 ^ Nat.log2 n = m at *
  rw [Nat.cast_mul, Nat.cast_pow, Nat.cast_pow, Nat.cast_ofNat] at mono
  rw [Int.cast_add, Int.cast_mul, Int.cast_mul, unitsPerOne_cast, Int.cast_sub, Int.cast_pow]
  push_cast
  generalize lgUnits H ((n : ℝ) * 2 ^ (2 * H) / 2 ^ Nat.log2 n) = g at *
  exact units_up d mono

theorem Ival.holds_log2 {x i : Ival} {a : ℝ} (hx : x.Holds H a) (h : Ival.log2 H x = some i) :
    i.Holds H (Real.logb 2 a) := by
  obtain ⟨h1, h2⟩ := hx
  unfold Ival.log2 at h
  split at h
  · rename_i pos
    rw [← Option.some.inj h]
    have lo : ((x.lo.toNat : Nat) : ℝ) = x.lo := by
      have : ((x.lo.toNat : Nat) : Int) = x.lo := Int.toNat_of_nonneg pos.le
      exact_mod_cast this
    have lor : (0 : ℝ) < x.lo := by exact_mod_cast pos
    have hipos : (0 : ℝ) < x.hi := lor.trans_le (h1.trans h2)
    have hip : 0 < x.hi := by exact_mod_cast hipos
    have hi : ((x.hi.toNat : Nat) : ℝ) = x.hi := by
      have : ((x.hi.toNat : Nat) : Int) = x.hi := Int.toNat_of_nonneg hip.le
      exact_mod_cast this
    have d := Ival.log2Down_le (H := H) (n := x.lo.toNat) (by omega)
    have u := Ival.le_log2Up (H := H) (n := x.hi.toNat) (by omega)
    rw [lo] at d
    rw [hi] at u
    have mid : lgUnits H (a * 2 ^ (2 * H)) = Real.logb 2 a := by
      unfold lgUnits; rw [mul_div_assoc, div_self (by positivity), mul_one]
    have b1 := lgUnits_mono (H := H) lor h1
    have b2 := lgUnits_mono (H := H) (lor.trans_le h1) h2
    rw [mid] at b1 b2
    constructor
    · exact d.trans (mul_le_mul_of_nonneg_right b1 (by positivity))
    · exact (mul_le_mul_of_nonneg_right b2 (by positivity)).trans u
  · cases h

/-- `2^(f / 2^k)`. -/
noncomputable def twoPow (k f : Nat) : ℝ := (2 : ℝ) ^ ((f : ℝ) / 2 ^ k)

theorem twoPow_succ_sq (k f : Nat) : twoPow (k + 1) f * twoPow (k + 1) f = 2 ^ (f / 2 ^ k) * twoPow k (f % 2 ^ k) := by
  unfold twoPow
  rw [← Real.rpow_add (by norm_num), ← Real.rpow_natCast 2 (f / 2 ^ k), ← Real.rpow_add (by norm_num)]
  congr 1
  have h : (f : ℝ) = 2 ^ k * ((f / 2 ^ k : Nat) : ℝ) + ((f % 2 ^ k : Nat) : ℝ) := by
    exact_mod_cast (Nat.div_add_mod f (2 ^ k)).symm
  rw [pow_succ]
  field_simp
  linarith

theorem twoPow_pos (k f : Nat) : 0 < twoPow k f := Real.rpow_pos_of_pos (by norm_num) _

theorem expDown_le (k : Nat) : ∀ f : Nat, ((expDown H k f : Nat) : ℝ) ≤ twoPow k f * 2 ^ (2 * H) := by
  induction k with
  | zero => intro f; rw [expDown, twoPow]; norm_num
  | succ k ih =>
    intro f
    unfold expDown
    have sq := sqrtDown_sq_le (2 ^ (f / 2 ^ k) * expDown H k (f % 2 ^ k) * 2 ^ (2 * H))
    generalize hr : sqrtDown (2 ^ (f / 2 ^ k) * expDown H k (f % 2 ^ k) * 2 ^ (2 * H)) = r at *
    have sqr : (r : ℝ) * r ≤ 2 ^ (f / 2 ^ k) * (expDown H k (f % 2 ^ k) : ℝ) * 2 ^ (2 * H) := by exact_mod_cast sq
    have e := twoPow_succ_sq k f
    have p : (0 : ℝ) < 2 ^ (f / 2 ^ k) := by positivity
    have q : (0 : ℝ) < 2 ^ (2 * H) := by positivity
    have bound : (r : ℝ) * r ≤ (twoPow (k + 1) f * 2 ^ (2 * H)) * (twoPow (k + 1) f * 2 ^ (2 * H)) := by
      have : (2 : ℝ) ^ (f / 2 ^ k) * (expDown H k (f % 2 ^ k) : ℝ) * 2 ^ (2 * H) ≤
          2 ^ (f / 2 ^ k) * (twoPow k (f % 2 ^ k) * 2 ^ (2 * H)) * 2 ^ (2 * H) :=
        mul_le_mul_of_nonneg_right (mul_le_mul_of_nonneg_left (ih _) p.le) q.le
      calc (r : ℝ) * r ≤ _ := sqr.trans this
        _ = (twoPow (k + 1) f * twoPow (k + 1) f) * (2 ^ (2 * H) * 2 ^ (2 * H)) := by rw [e]; ring
        _ = _ := by ring
    exact (mul_self_le_mul_self_iff (Nat.cast_nonneg _) (mul_nonneg (twoPow_pos _ _).le q.le)).2 bound

theorem le_expUp (k : Nat) : ∀ f : Nat, twoPow k f * 2 ^ (2 * H) ≤ ((expUp H k f : Nat) : ℝ) := by
  induction k with
  | zero => intro f; rw [expUp, twoPow]; norm_num
  | succ k ih =>
    intro f
    unfold expUp
    have sq := le_sqrtUp_sq (2 ^ (f / 2 ^ k) * expUp H k (f % 2 ^ k) * 2 ^ (2 * H))
    generalize hr : sqrtUp (2 ^ (f / 2 ^ k) * expUp H k (f % 2 ^ k) * 2 ^ (2 * H)) = r at *
    have sqr : 2 ^ (f / 2 ^ k) * (expUp H k (f % 2 ^ k) : ℝ) * 2 ^ (2 * H) ≤ (r : ℝ) * r := by exact_mod_cast sq
    have e := twoPow_succ_sq k f
    have p : (0 : ℝ) < 2 ^ (f / 2 ^ k) := by positivity
    have q : (0 : ℝ) < 2 ^ (2 * H) := by positivity
    have bound : (twoPow (k + 1) f * 2 ^ (2 * H)) * (twoPow (k + 1) f * 2 ^ (2 * H)) ≤ (r : ℝ) * r := by
      have : 2 ^ (f / 2 ^ k) * (twoPow k (f % 2 ^ k) * 2 ^ (2 * H)) * 2 ^ (2 * H) ≤
          (2 : ℝ) ^ (f / 2 ^ k) * (expUp H k (f % 2 ^ k) : ℝ) * 2 ^ (2 * H) :=
        mul_le_mul_of_nonneg_right (mul_le_mul_of_nonneg_left (ih _) p.le) q.le
      calc _ = (twoPow (k + 1) f * twoPow (k + 1) f) * (2 ^ (2 * H) * 2 ^ (2 * H)) := by ring
        _ = 2 ^ (f / 2 ^ k) * (twoPow k (f % 2 ^ k) * 2 ^ (2 * H)) * 2 ^ (2 * H) := by rw [e]; ring
        _ ≤ _ := this.trans sqr
    exact (mul_self_le_mul_self_iff (mul_nonneg (twoPow_pos _ _).le q.le) (Nat.cast_nonneg _)).2 bound

theorem rpow_units {x : Int} (c : ℝ) (h : ((x % unitsPerOne H : Int) : ℝ) / 2 ^ (2 * H) = c) :
    (2 : ℝ) ^ ((x : ℝ) / 2 ^ (2 * H)) = (2 : ℝ) ^ (x / unitsPerOne H) * (2 : ℝ) ^ c := by
  rw [← Real.rpow_intCast, ← Real.rpow_add (by norm_num)]
  congr 1
  have e : (x : ℝ) = (unitsPerOne H : Int) * ((x / unitsPerOne H : Int) : ℝ) + ((x % unitsPerOne H : Int) : ℝ) := by
    exact_mod_cast (Int.mul_ediv_add_emod x (unitsPerOne H)).symm
  rw [unitsPerOne_cast] at e
  rw [← h]
  field_simp
  linarith

theorem twoPow_of_units (f : Nat) :
    twoPow H f = (2 : ℝ) ^ (((f : ℝ) * 2 ^ H) / 2 ^ (2 * H)) := by
  unfold twoPow
  congr 1
  rw [show (2 : ℝ) ^ (2 * H) = 2 ^ H * 2 ^ H by rw [two_mul, pow_add]]
  field_simp

theorem zpow_shift_down {n : Int} {r : Nat} :
    (((if 0 ≤ n then (r : Int) * 2 ^ n.toNat else divDown r (2 ^ (-n).toNat)) : Int) : ℝ) ≤ (2 : ℝ) ^ n * r := by
  split
  · rename_i h
    obtain ⟨k, rfl⟩ := Int.eq_ofNat_of_zero_le h
    simp [mul_comm]
  · rename_i h
    obtain ⟨k, hk⟩ := Int.eq_ofNat_of_zero_le (show 0 ≤ -n by omega)
    obtain rfl : n = -(k : Int) := by omega
    refine (divDown_le (by positivity)).trans_eq ?_
    simp [div_eq_mul_inv, mul_comm]

theorem zpow_shift_up {n : Int} {r : Nat} :
    (2 : ℝ) ^ n * r ≤ (((if 0 ≤ n then (r : Int) * 2 ^ n.toNat else divUp r (2 ^ (-n).toNat)) : Int) : ℝ) := by
  split
  · rename_i h
    obtain ⟨k, rfl⟩ := Int.eq_ofNat_of_zero_le h
    simp [mul_comm]
  · rename_i h
    obtain ⟨k, hk⟩ := Int.eq_ofNat_of_zero_le (show 0 ≤ -n by omega)
    obtain rfl : n = -(k : Int) := by omega
    refine le_trans (le_of_eq ?_) (le_divUp (by positivity))
    simp [div_eq_mul_inv, mul_comm]

theorem Ival.exp2Down_le (x : Int) : ((Ival.exp2Down H x : Int) : ℝ) ≤ (2 : ℝ) ^ ((x : ℝ) / 2 ^ (2 * H)) * 2 ^ (2 * H) := by
  have m0 : 0 ≤ x % unitsPerOne H := Int.emod_nonneg _ unitsPerOne_pos.ne'
  have mr : (((x % unitsPerOne H).toNat : Nat) : ℝ) = ((x % unitsPerOne H : Int) : ℝ) := by
    have : (((x % unitsPerOne H).toNat : Nat) : Int) = x % unitsPerOne H := Int.toNat_of_nonneg m0
    exact_mod_cast this
  have fr := natDiv_le (x % unitsPerOne H).toNat (2 ^ H)
  rw [Nat.cast_pow, Nat.cast_ofNat, le_div_iff₀ (by positivity), mr] at fr
  unfold Ival.exp2Down
  rw [rpow_units _ rfl]
  generalize (x % unitsPerOne H).toNat / 2 ^ H = f at *
  have d := expDown_le (H := H) H f
  have t : twoPow H f ≤ (2 : ℝ) ^ (((x % unitsPerOne H : Int) : ℝ) / 2 ^ (2 * H)) := by
    rw [twoPow_of_units]
    exact Real.rpow_le_rpow_of_exponent_le (by norm_num) (div_le_div_of_nonneg_right fr (by positivity))
  have z : (0 : ℝ) < (2 : ℝ) ^ (x / unitsPerOne H) := by positivity
  refine zpow_shift_down.trans ?_
  rw [mul_assoc]
  exact mul_le_mul_of_nonneg_left (d.trans (mul_le_mul_of_nonneg_right t (by positivity))) z.le

theorem Ival.le_exp2Up (x : Int) : (2 : ℝ) ^ ((x : ℝ) / 2 ^ (2 * H)) * 2 ^ (2 * H) ≤ ((Ival.exp2Up H x : Int) : ℝ) := by
  have m0 : 0 ≤ x % unitsPerOne H := Int.emod_nonneg _ unitsPerOne_pos.ne'
  have mr : (((x % unitsPerOne H).toNat : Nat) : ℝ) = ((x % unitsPerOne H : Int) : ℝ) := by
    have : (((x % unitsPerOne H).toNat : Nat) : Int) = x % unitsPerOne H := Int.toNat_of_nonneg m0
    exact_mod_cast this
  have fr : (((x % unitsPerOne H).toNat : Nat) : ℝ) ≤ (((x % unitsPerOne H).toNat / 2 ^ H + 1 : Nat) : ℝ) * 2 ^ H := by
    have : (x % unitsPerOne H).toNat ≤ ((x % unitsPerOne H).toNat / 2 ^ H + 1) * 2 ^ H := by
      have := Nat.div_add_mod (x % unitsPerOne H).toNat (2 ^ H)
      have := Nat.mod_lt (x % unitsPerOne H).toNat (show 0 < 2 ^ H by positivity)
      rw [Nat.add_mul, one_mul, mul_comm _ (2 ^ H)]
      omega
    exact_mod_cast this
  rw [mr] at fr
  unfold Ival.exp2Up
  rw [rpow_units _ rfl]
  generalize (x % unitsPerOne H).toNat / 2 ^ H + 1 = f at *
  have d := le_expUp (H := H) H f
  have t : (2 : ℝ) ^ (((x % unitsPerOne H : Int) : ℝ) / 2 ^ (2 * H)) ≤ twoPow H f := by
    rw [twoPow_of_units]
    exact Real.rpow_le_rpow_of_exponent_le (by norm_num) (div_le_div_of_nonneg_right fr (by positivity))
  have z : (0 : ℝ) < (2 : ℝ) ^ (x / unitsPerOne H) := by positivity
  refine le_trans ?_ zpow_shift_up
  rw [mul_assoc]
  exact mul_le_mul_of_nonneg_left ((mul_le_mul_of_nonneg_right t (by positivity)).trans d) z.le

theorem Ival.holds_exp2 {x : Ival} {a : ℝ} (hx : x.Holds H a) : (Ival.exp2 H x).Holds H ((2 : ℝ) ^ a) := by
  obtain ⟨h1, h2⟩ := hx
  have q : (0 : ℝ) < 2 ^ (2 * H) := by positivity
  unfold Ival.exp2
  constructor
  · dsimp only
    split
    · refine (Ival.exp2Down_le _).trans (mul_le_mul_of_nonneg_right ?_ q.le)
      exact Real.rpow_le_rpow_of_exponent_le (by norm_num) ((div_le_iff₀ q).2 h1)
    · rw [Int.cast_zero]
      positivity
  · dsimp only
    split
    · refine le_trans (mul_le_mul_of_nonneg_right ?_ q.le) (Ival.le_exp2Up _)
      exact Real.rpow_le_rpow_of_exponent_le (by norm_num) ((le_div_iff₀ q).2 h2)
    · rename_i small
      have hs : (x.hi : ℝ) ≤ -(2 * H : Nat) * 2 ^ (2 * H) := by
        have := (Int.cast_le (R := ℝ)).2 (not_le.1 small).le
        rwa [Int.cast_mul, unitsPerOne_cast, Int.cast_neg, Int.cast_natCast] at this
      have ha : a ≤ -((2 * H : Nat) : ℝ) := le_of_mul_le_mul_right (h2.trans hs) q
      have : (2 : ℝ) ^ a ≤ (2 : ℝ) ^ (-((2 * H : Nat) : ℝ)) := Real.rpow_le_rpow_of_exponent_le (by norm_num) ha
      have e : (2 : ℝ) ^ (-((2 * H : Nat) : ℝ)) * 2 ^ (2 * H) = 1 := by
        rw [Real.rpow_neg (by norm_num), Real.rpow_natCast, inv_mul_cancel₀ q.ne']
      rw [Int.cast_one, ← e]
      exact mul_le_mul_of_nonneg_right this q.le

/-- Units as a real. -/
theorem mkRat_units_cast (n : Int) : ((mkRat n (2 ^ (2 * H)) : Rat) : ℝ) = n / 2 ^ (2 * H) := by
  rw [Rat.mkRat_eq_div]; push_cast; rfl

end Sys2Proof
end

