-- ==== Sys2Proof/Laws/Numeric.lean ====
section
/-! SUPPORT. What the numeric operations denote under ARITH = exact (spec/00_scope.md R9, log 4): the building blocks of
their proofs. -/

namespace Sys2Proof

@[simp] theorem Num.val_zero : Num.zero.val = 0 := by
  rw [Num.zero, Num.val]; exact real32_zero

theorem dec32_one : dec32 0x3F800000 = 1 := by decide +kernel

@[simp] theorem Num.val_one : Num.one.val = 1 := by
  rw [Num.one, Num.val, real32, dec32_one, Rat.cast_one]

@[simp] theorem Num.val_ofRatExact (q : Rat) : (Num.ofRatExact q).val = (q : ℝ) := by
  unfold Num.ofRatExact
  split
  · rename_i h
    rw [Bool.and_eq_true, decide_eq_true_eq] at h
    rw [Num.val, real32, h.2]
  · rfl

theorem Num.val_of_asRat {a : Num} {q : Rat} (h : a.asRat = some q) : a.val = (q : ℝ) := by
  cases a <;> simp only [Num.asRat, Option.some.injEq, reduceCtorEq] at h
  · rw [Num.val, real32, h]
  · rw [Num.val, h]

@[simp] theorem Num.asRat_ofRatExact (q : Rat) : (Num.ofRatExact q).asRat = some q := by
  unfold Num.ofRatExact
  split
  · rename_i h
    rw [Bool.and_eq_true, decide_eq_true_eq] at h
    rw [Num.asRat, h.2]
  · rfl

theorem Num.val_term (r : Rat) (u : Num) : (Num.term r u).val = r * u.val := by
  unfold Num.term
  split
  · simp_all
  · split
    · simp_all
    · split <;> simp [Num.val, mul_assoc]

/-- A term is its coefficient times the rest. -/
theorem Num.val_coeff (a : Num) : a.val = a.coeff.1 * a.coeff.2.val := by
  unfold Num.coeff
  split
  · simp [Num.val]
  · split
    · rename_i h; simp only [Num.val]; rw [Num.val_of_asRat h]
    · simp
  · simp

theorem Num.val_join (s t : Num) : (Num.join s t).val = s.val + t.val := by
  unfold Num.join
  split
  · simp_all
  · split
    · simp_all
    · rfl

theorem Num.val_scale (r : Rat) (a : Num) : (Num.scale r a).val = r * a.val := by
  have one (a : Num) : (Num.term (r * a.coeff.1) a.coeff.2).val = r * a.val := by
    rw [Num.val_term, Num.val_coeff a]; push_cast; ring
  induction a with
  | bits w => rw [Num.scale, Num.val_ofRatExact, Num.val, Rat.cast_mul]
  | rat q => rw [Num.scale, Num.val_ofRatExact, Num.val, Rat.cast_mul]
  | sum s t ihs iht =>
    rw [Num.scale]
    split
    · simp_all
    · split
      · simp_all
      · simp only [Num.val, ihs, iht, mul_add]
  | _ => exact one _

/-- An enclosure holds the real that the value denotes. -/
theorem enclose_holds {H : Nat} : ∀ (a : Num) {i : Ival}, enclose H a = some i → i.Holds H a.val
  | .bits w, i, h => by
    rw [enclose, Option.some.injEq] at h; subst h; exact Ival.holds_ofRat _
  | .rat q, i, h => by
    rw [enclose, Option.some.injEq] at h; subst h; exact Ival.holds_ofRat _
  | .piTimes q, i, h => by
    rw [enclose, Option.some.injEq] at h; subst h; exact Ival.holds_mul (Ival.holds_ofRat _) Ival.holds_pi
  | .sum a b, i, h => by
    simp only [enclose, Option.bind_eq_bind, Option.bind_eq_some_iff, Option.pure_def, Option.some.injEq] at h
    obtain ⟨x, hx, y, hy, rfl⟩ := h
    exact Ival.holds_add (enclose_holds a hx) (enclose_holds b hy)
  | .prod a b, i, h => by
    simp only [enclose, Option.bind_eq_bind, Option.bind_eq_some_iff, Option.pure_def, Option.some.injEq] at h
    obtain ⟨x, hx, y, hy, rfl⟩ := h
    exact Ival.holds_mul (enclose_holds a hx) (enclose_holds b hy)
  | .quot a b, i, h => by
    simp only [enclose, Option.bind_eq_bind, Option.bind_eq_some_iff] at h
    obtain ⟨x, hx, y, hy, h⟩ := h
    exact Ival.holds_div (enclose_holds a hx) (enclose_holds b hy) h
  | .cosOf a, i, h => by
    simp only [enclose, Option.bind_eq_bind, Option.bind_eq_some_iff] at h
    obtain ⟨x, hx, h⟩ := h
    exact Ival.holds_cos (enclose_holds a hx) h
  | .log2Of a, i, h => by
    simp only [enclose, Option.bind_eq_bind, Option.bind_eq_some_iff] at h
    obtain ⟨x, hx, h⟩ := h
    exact Ival.holds_log2 (enclose_holds a hx) h
  | .exp2Of a, i, h => by
    simp only [enclose, Option.bind_eq_bind, Option.bind_eq_some_iff, Option.pure_def, Option.some.injEq] at h
    obtain ⟨x, hx, rfl⟩ := h
    exact Ival.holds_exp2 (enclose_holds a hx)
  | .powOf a b, i, h => by
    simp only [enclose, Option.bind_eq_bind, Option.bind_eq_some_iff, Option.pure_def, Option.some.injEq] at h
    obtain ⟨y, hy, x, hx, l, hl, rfl⟩ := h
    have ha := enclose_holds a hx
    have pos : 0 < a.val := by
      have lo : 0 < x.lo := by
        unfold Ival.log2 at hl
        split at hl
        · assumption
        · cases hl
      have : (0 : ℝ) < a.val * 2 ^ (2 * H) := lt_of_lt_of_le (by exact_mod_cast lo) ha.1
      exact pos_of_mul_pos_left this (by positivity)
    have m := Ival.holds_exp2 (Ival.holds_mul (enclose_holds b hy) (Ival.holds_log2 ha hl))
    rw [mul_comm, Real.rpow_mul (by norm_num), Real.rpow_logb (by norm_num) (by norm_num) pos] at m
    exact m

/-- What `settle` answers, `read` gives of some enclosure of the value. -/
theorem Num.settle_read {α : Type} {read : Nat → Ival → Option α} {a : Num} {x : α} : ∀ {l : List Nat},
    Num.settle read a l = some x → ∃ H i, enclose H a = some i ∧ i.Holds H a.val ∧ read H i = some x
  | [], h => by cases h
  | H :: l, h => by
    unfold Num.settle at h
    split at h
    · rename_i y e
      cases h
      obtain ⟨i, hi, hr⟩ := Option.bind_eq_some_iff.1 e
      exact ⟨H, i, hi, enclose_holds a hi, hr⟩
    · exact Num.settle_read h

/-- The sign that an enclosure of a real decides is the real's. -/
theorem Num.readNegative_sound {H : Nat} {i : Ival} {x : ℝ} {b : Bool} (h : i.Holds H x)
    (r : Num.readNegative H i = some b) : b = true ↔ x < 0 := by
  have q : (0 : ℝ) < 2 ^ (2 * H) := by positivity
  unfold Num.readNegative at r
  split at r
  · rename_i neg
    have : x * 2 ^ (2 * H) < 0 := h.2.trans_lt (by exact_mod_cast neg)
    simpa [← Option.some.inj r] using neg_of_mul_neg_left this q.le
  · split at r
    · rename_i pos
      have : 0 ≤ x * 2 ^ (2 * H) := le_trans (by exact_mod_cast pos) h.1
      simpa [← Option.some.inj r] using nonneg_of_mul_nonneg_left this q
    · cases r

theorem divDown_units_floor {H : Nat} (n : Int) : divDown n (unitsPerOne H) = ⌊(n : ℝ) / 2 ^ (2 * H)⌋ := by
  have e : (n : ℝ) / 2 ^ (2 * H) = (((n : ℚ) / ((2 ^ (2 * H) : Nat) : ℚ) : ℚ) : ℝ) := by push_cast; rfl
  rw [e, Rat.floor_cast, Rat.floor_intCast_div_natCast, divDown, unitsPerOne]
  push_cast
  rfl

/-- The floor that an enclosure of a real decides is the real's. -/
theorem Num.readFloor_sound {H : Nat} {i : Ival} {x : ℝ} {n : Int} (h : i.Holds H x)
    (r : Num.readFloor H i = some n) : n = ⌊x⌋ := by
  have q : (0 : ℝ) < 2 ^ (2 * H) := by positivity
  have lo : ⌊(i.lo : ℝ) / 2 ^ (2 * H)⌋ ≤ ⌊x⌋ := Int.floor_mono ((div_le_iff₀ q).2 h.1)
  have hi : ⌊x⌋ ≤ ⌊(i.hi : ℝ) / 2 ^ (2 * H)⌋ := Int.floor_mono ((le_div_iff₀ q).2 h.2)
  unfold Num.readFloor at r
  rw [divDown_units_floor, divDown_units_floor] at r
  split at r
  · rename_i e
    rw [← Option.some.inj r]
    omega
  · cases r

/-- The pattern that an enclosure of a real decides is the real's. -/
theorem Num.readEnc_sound {H : Nat} {i : Ival} {x : ℝ} {w : Word} (h : i.Holds H x)
    (r : Num.readEnc H i = some w) : w = encReal x := by
  have q : (0 : ℝ) < 2 ^ (2 * H) := by positivity
  unfold Num.readEnc at r
  split at r
  · rename_i e
    rw [← Option.some.inj r]
    refine (encReal_between ?_ ?_ e).symm
    · rw [Num.ratOfUnits, mkRat_units_cast]; exact (div_le_iff₀ q).2 h.1
    · rw [Num.ratOfUnits, mkRat_units_cast]; exact (le_div_iff₀ q).2 h.2
  · cases r

/-! ### Reals that exist (log 23) -/

theorem Num.defined_zero : Num.zero.Defined := trivial

theorem Num.defined_one : Num.one.Defined := trivial

theorem Num.defined_of_asRat {a : Num} {q : Rat} (h : a.asRat = some q) : a.Defined := by
  cases a <;> simp_all [Num.asRat, Num.Defined]

theorem Num.defined_ofRatExact (q : Rat) : (Num.ofRatExact q).Defined := by
  unfold Num.ofRatExact; split <;> trivial

theorem Num.defined_term (r : Rat) {u : Num} (h : u.Defined) : (Num.term r u).Defined := by
  unfold Num.term
  split
  · trivial
  · split
    · exact h
    · split
      · trivial
      · exact ⟨Num.defined_ofRatExact _, h⟩

theorem Num.defined_coeff {a : Num} (h : a.Defined) : a.coeff.2.Defined := by
  unfold Num.coeff
  split
  · trivial
  · split
    · exact h.2
    · exact h
  · exact h

theorem Num.defined_join {s t : Num} (hs : s.Defined) (ht : t.Defined) : (Num.join s t).Defined := by
  unfold Num.join
  split
  · exact hs
  · split
    · exact ht
    · exact ⟨hs, ht⟩

theorem Num.defined_scale (r : Rat) : ∀ {a : Num}, a.Defined → (Num.scale r a).Defined := by
  intro a
  induction a with
  | bits w => intro _; exact Num.defined_ofRatExact _
  | rat q => intro _; exact Num.defined_ofRatExact _
  | sum s t ihs iht =>
    intro h
    rw [Num.scale]
    split
    · trivial
    · split
      · exact h
      · exact ⟨ihs h.1, iht h.2⟩
  | _ => intro h; exact Num.defined_term _ (Num.defined_coeff h)

theorem Num.defined_addTerm (r : Rat) {u : Num} (hu : u.Defined) : ∀ {a : Num}, a.Defined → (Num.addTerm r u a).Defined := by
  have one {a : Num} (h : a.Defined) : (if (Num.asRat a).isSome then Num.join (Num.term r u) a
      else if (Num.coeff a).2 = u then Num.term ((Num.coeff a).1 + r) u
      else Num.join a (Num.term r u)).Defined := by
    split
    · exact Num.defined_join (Num.defined_term _ hu) h
    · split
      · exact Num.defined_term _ hu
      · exact Num.defined_join h (Num.defined_term _ hu)
  intro a
  induction a with
  | sum s t ihs _ =>
    intro h
    rw [Num.addTerm]
    split
    · exact Num.defined_join h.1 (Num.defined_term _ hu)
    · exact Num.defined_join (ihs h.1) h.2
  | _ => intro h; exact one h

theorem Num.defined_addRat (p : Rat) {a : Num} (h : a.Defined) : (Num.addRat p a).Defined := by
  unfold Num.addRat
  split
  · split
    · exact Num.defined_join h.1 (Num.defined_ofRatExact _)
    · exact Num.defined_join h (Num.defined_ofRatExact _)
  · split
    · exact Num.defined_ofRatExact _
    · exact Num.defined_join h (Num.defined_ofRatExact _)

theorem Num.defined_addExact {a : Num} (ha : a.Defined) : ∀ {b : Num}, b.Defined → (Num.addExact a b).Defined := by
  have one {b : Num} (hb : b.Defined) : (match Num.asRat b with
      | some q => Num.addRat q a
      | none => Num.addTerm (Num.coeff b).1 (Num.coeff b).2 a).Defined := by
    split
    · exact Num.defined_addRat _ ha
    · exact Num.defined_addTerm _ (Num.defined_coeff hb) ha
  intro b
  induction b with
  | sum s t ihs _ =>
    intro h
    rw [Num.addExact]
    split
    · exact Num.defined_addRat _ (ihs h.1)
    · exact Num.defined_addTerm _ (Num.defined_coeff h.2) (ihs h.1)
  | _ => intro h; exact one h

theorem Num.defined_sumExact {a b : Num} (ha : a.Defined) (hb : b.Defined) : (Num.sumExact a b).Defined := by
  unfold Num.sumExact
  split
  · exact Num.defined_ofRatExact _
  · exact Num.defined_join ha hb

theorem Num.defined_subExact {a b : Num} (ha : a.Defined) (hb : b.Defined) : (Num.subExact a b).Defined := by
  unfold Num.subExact
  split
  · trivial
  · exact Num.defined_addExact ha (Num.defined_scale _ hb)

theorem Num.defined_mulPowers {v u : Num} (hv : v.Defined) (hu : u.Defined) : (Num.mulPowers v u).Defined := by
  unfold Num.mulPowers
  split
  · split
    · split
      · exact ⟨hv.1, Num.defined_ofRatExact _, hv.2.2⟩
      · exact ⟨hv, hu⟩
    · exact ⟨hv, hu⟩
  · exact ⟨hv, hu⟩

theorem Num.defined_mulTerm (r : Rat) {u : Num} (hu : u.Defined) : ∀ {a : Num}, a.Defined → (Num.mulTerm r u a).Defined := by
  have one {a : Num} (h : a.Defined) : (match Num.asRat a with
      | some q => Num.term (q * r) u
      | none => Num.term ((Num.coeff a).1 * r) (Num.mulPowers (Num.coeff a).2 u)).Defined := by
    split
    · exact Num.defined_term _ hu
    · exact Num.defined_term _ (Num.defined_mulPowers (Num.defined_coeff h) hu)
  intro a
  induction a with
  | sum s t ihs iht => intro h; exact Num.defined_addExact (ihs h.1) (iht h.2)
  | _ => intro h; exact one h

theorem Num.defined_mulTerms {a : Num} (ha : a.Defined) : ∀ {b : Num}, b.Defined → (Num.mulTerms a b).Defined := by
  have one {b : Num} (h : b.Defined) : (match Num.asRat b with
      | some q => Num.scale q a
      | none => Num.mulTerm (Num.coeff b).1 (Num.coeff b).2 a).Defined := by
    split
    · exact Num.defined_scale _ ha
    · exact Num.defined_mulTerm _ (Num.defined_coeff h) ha
  intro b
  induction b with
  | sum s t ihs iht => intro h; exact Num.defined_addExact (ihs h.1) (iht h.2)
  | _ => intro h; exact one h

theorem Num.defined_mulExact {a b : Num} (ha : a.Defined) (hb : b.Defined) : (Num.mulExact a b).Defined := by
  unfold Num.mulExact
  split
  · exact Num.defined_ofRatExact _
  · exact Num.defined_scale _ hb
  · exact Num.defined_scale _ ha
  · split
    · exact Num.defined_mulTerms ha hb
    · split
      · exact Num.defined_mulTerms hb ha
      · exact ⟨ha, hb⟩

theorem Num.defined_divExact {a b : Num} (ha : a.Defined) (hb : b.Defined) (h : b.val ≠ 0) : (Num.divExact a b).Defined := by
  unfold Num.divExact
  split
  · split
    · exact ⟨ha, hb, h⟩
    · exact Num.defined_ofRatExact _
  · split
    · trivial
    · exact ⟨ha, hb, h⟩
  · split
    · exact ⟨ha, hb, h⟩
    · exact Num.defined_scale _ ha
  · exact ⟨ha, hb, h⟩

theorem Num.defined_cosPi (q : Rat) : (Num.cosPi q).Defined := by
  have acute (q : Rat) : (Num.cosAcute q).Defined := by
    unfold Num.cosAcute
    split
    · trivial
    · split
      · exact Num.defined_ofRatExact _
      · split <;> trivial
  unfold Num.cosPi
  split
  · exact Num.defined_scale _ (acute _)
  · exact acute _

theorem Num.defined_cosExact {a : Num} (h : a.Defined) : (Num.cosExact a).Defined := by
  unfold Num.cosExact
  split
  · exact Num.defined_cosPi _
  · split
    · trivial
    · exact h

theorem Num.defined_log2Rat {q : Rat} (h : 0 < q) : (Num.log2Rat q).Defined := by
  unfold Num.log2Rat
  split
  · exact Num.defined_ofRatExact _
  · exact ⟨Num.defined_ofRatExact _, by rw [Num.val_ofRatExact]; exact_mod_cast h⟩

theorem Num.defined_log2Exact {a : Num} (h : a.Defined) (pos : 0 < a.val) : (Num.log2Exact a).Defined := by
  unfold Num.log2Exact
  split
  · rename_i q hq
    rw [Num.val_of_asRat hq] at pos
    exact Num.defined_log2Rat (by exact_mod_cast pos)
  · have hc := Num.defined_coeff h
    split
    · rename_i r x e
      rw [e] at hc
      split
      · rename_i hr
        have hx : x.Defined := hc
        exact Num.defined_addExact hx (Num.defined_log2Rat hr)
      · exact ⟨h, pos⟩
    · exact ⟨h, pos⟩

theorem Num.defined_exp2Split : ∀ {a : Num}, a.Defined → (Num.exp2Split a).2.Defined := by
  intro a
  induction a with
  | sum s t ihs _ =>
    intro h
    rw [Num.exp2Split]
    split
    · exact ihs h.1
    · exact Num.defined_join (ihs h.1) h.2
  | _ =>
    intro h
    rw [Num.exp2Split]
    · split
      · trivial
      · exact h
    · nofun

theorem Num.defined_exp2Exact {a : Num} (h : a.Defined) : (Num.exp2Exact a).Defined := by
  unfold Num.exp2Exact
  split
  · exact Num.defined_ofRatExact _
  · exact Num.defined_term _ (Num.defined_exp2Split h)

theorem Num.defined_total {l : List Num} (h : ∀ a ∈ l, a.Defined) : (Num.total .exact l).Defined := by
  have go : ∀ (l : List Num) (z : Num), z.Defined → (∀ a ∈ l, a.Defined) → (l.foldl Num.sumExact z).Defined := by
    intro l
    induction l with
    | nil => intro z hz _; exact hz
    | cons a l ih =>
      intro z hz hl
      exact ih _ (Num.defined_sumExact hz (hl a (by simp))) fun b hb => hl b (by simp [hb])
  exact go l _ trivial h

end Sys2Proof
end

