-- ==== Sys2Proof/Laws/Store.lean ====
section
/-! SUPPORT. The internal arrays: what a read gives after a write, and that every array operation keeps the canonical form
(spec/10_state.md R20 to R27, spec/40_ring_buffers.md R500, log 13). -/

namespace Sys2Proof.Machine

/-- Cell `i` is not listed: it reads +0.0. -/
theorem Store.read_below {lo i : Nat} : ∀ {m : Store}, Store.wfFrom lo m = true → i < lo → m.read i = Num.zero
  | [], _, _ => rfl
  | (k, v) :: rest, h, hi => by
    simp only [Store.wfFrom, Bool.and_eq_true, decide_eq_true_eq] at h
    rw [Store.read, if_neg (by omega)]
    exact Store.read_below h.2 (by omega)

theorem Store.wfFrom_mono {lo lo' : Nat} (le : lo' ≤ lo) : ∀ {m : Store}, Store.wfFrom lo m = true →
    Store.wfFrom lo' m = true
  | [], _ => rfl
  | (k, v) :: rest, h => by
    simp only [Store.wfFrom, Bool.and_eq_true, decide_eq_true_eq] at h ⊢
    exact ⟨⟨by omega, h.1.2⟩, h.2⟩

@[simp] theorem Store.read_nil (i : Nat) : Store.read [] i = Num.zero := rfl

/-- A write keeps the canonical form from any bound at or below its cell. -/
theorem Store.wfFrom_write {lo i : Nat} (v : Num) : ∀ {m : Store}, Store.wfFrom lo m = true → lo ≤ i →
    Store.wfFrom lo (m.write i v) = true
  | [], _, le => by
    unfold Store.write
    split
    · rfl
    · rename_i nz
      simp only [Store.wfFrom, Bool.and_true, Bool.and_eq_true, decide_eq_true_eq]
      exact ⟨le, nz⟩
  | (k, w) :: rest, h, le => by
    simp only [Store.wfFrom, Bool.and_eq_true, decide_eq_true_eq] at h
    unfold Store.write
    split
    · simp only [Store.wfFrom, Bool.and_eq_true, decide_eq_true_eq]
      exact ⟨h.1, Store.wfFrom_write v h.2 (by omega)⟩
    · split
      · rename_i e
        split
        · exact Store.wfFrom_mono (by omega) h.2
        · rename_i nz
          simp only [Store.wfFrom, Bool.and_eq_true, decide_eq_true_eq]
          exact ⟨⟨le, nz⟩, e ▸ h.2⟩
      · split
        · simp only [Store.wfFrom, Bool.and_eq_true, decide_eq_true_eq]
          exact h
        · rename_i nz
          simp only [Store.wfFrom, Bool.and_eq_true, decide_eq_true_eq]
          exact ⟨⟨le, nz⟩, ⟨by omega, h.1.2⟩, h.2⟩

theorem Store.wf_write {m : Store} (h : m.wf = true) (i : Nat) (v : Num) : (m.write i v).wf = true :=
  Store.wfFrom_write v h (Nat.zero_le i)

/-- A read after a write to the same cell gives the value written; every other cell reads as before. -/
theorem Store.read_write_from {lo : Nat} (i j : Nat) (v : Num) : ∀ {m : Store}, Store.wfFrom lo m = true →
    (m.write i v).read j = if j = i then v else m.read j
  | [], _ => by
    unfold Store.write
    split
    · rename_i z
      split <;> simp [z]
    · simp only [Store.read]
      by_cases e : i = j
      · simp [e]
      · simp [e, Ne.symm e]
  | (k, w) :: rest, h => by
    simp only [Store.wfFrom, Bool.and_eq_true, decide_eq_true_eq] at h
    unfold Store.write
    split
    · rename_i lt
      simp only [Store.read]
      by_cases e : k = j
      · rw [if_pos e, if_pos e, if_neg (by omega)]
      · rw [if_neg e, if_neg e, Store.read_write_from i j v h.2]
    · split
      · rename_i e
        split
        · rename_i z
          simp only [Store.read]
          by_cases f : j = i
          · rw [if_pos f, z]
            exact Store.read_below h.2 (by omega)
          · rw [if_neg f, if_neg (by omega)]
        · simp only [Store.read]
          by_cases f : i = j
          · rw [if_pos f, if_pos f.symm]
          · rw [if_neg f, if_neg (Ne.symm f), if_neg (by omega)]
      · split
        · rename_i z
          simp only [Store.read]
          by_cases f : j = i
          · rw [if_pos f, if_neg (by omega), z]
            exact Store.read_below h.2 (by omega)
          · rw [if_neg f]
        · simp only [Store.read]
          by_cases f : i = j
          · rw [if_pos f, if_pos f.symm]
          · rw [if_neg f, if_neg (Ne.symm f)]

theorem Store.read_write {m : Store} (h : m.wf = true) (i j : Nat) (v : Num) :
    (m.write i v).read j = if j = i then v else m.read j := Store.read_write_from i j v h

theorem Store.read_write_same {m : Store} (h : m.wf = true) (i : Nat) (v : Num) : (m.write i v).read i = v := by
  rw [Store.read_write h, if_pos rfl]

theorem Store.read_write_other {m : Store} (h : m.wf = true) {i j : Nat} (v : Num) (ne : j ≠ i) :
    (m.write i v).read j = m.read j := by
  rw [Store.read_write h, if_neg ne]

/-- The entries a write leaves are those it found and the one it wrote. -/
theorem Store.mem_write {e : Nat × Num} {i : Nat} {v : Num} : ∀ {m : Store}, e ∈ m.write i v → e ∈ m ∨ e = (i, v)
  | [], h => by
    unfold Store.write at h
    split at h
    · cases h
    · exact .inr (List.mem_singleton.1 h)
  | (k, w) :: rest, h => by
    unfold Store.write at h
    split at h
    · obtain rfl | h := List.mem_cons.1 h
      · exact .inl (List.mem_cons_self ..)
      · exact (Store.mem_write h).imp (List.mem_cons_of_mem _) id
    · split at h
      · split at h
        · exact .inl (List.mem_cons_of_mem _ h)
        · obtain h | h := List.mem_cons.1 h
          · exact .inr h
          · exact .inl (List.mem_cons_of_mem _ h)
      · split at h
        · exact .inl h
        · obtain h | h := List.mem_cons.1 h
          · exact .inr h
          · exact .inl h

/-- The entries of a listed array are the cells of the list that are not +0.0. -/
theorem Store.mem_fromList {e : Nat × Num} : ∀ {l : List Num} {i : Nat}, e ∈ Store.fromList i l →
    i ≤ e.1 ∧ e.1 < i + l.length ∧ e.2 ∈ l
  | [], _, h => by cases h
  | v :: rest, i, h => by
    unfold Store.fromList at h
    split at h
    · have := Store.mem_fromList h
      simp only [List.length_cons, List.mem_cons]
      exact ⟨by omega, by omega, .inr this.2.2⟩
    · obtain rfl | h := List.mem_cons.1 h
      · simp
      · have := Store.mem_fromList h
        simp only [List.length_cons, List.mem_cons]
        exact ⟨by omega, by omega, .inr this.2.2⟩

theorem Store.wfFrom_fromList : ∀ (l : List Num) (i : Nat), Store.wfFrom i (Store.fromList i l) = true
  | [], _ => rfl
  | v :: rest, i => by
    unfold Store.fromList
    split
    · exact Store.wfFrom_mono (Nat.le_succ i) (Store.wfFrom_fromList rest (i + 1))
    · rename_i nz
      simp only [Store.wfFrom, Bool.and_eq_true, decide_eq_true_eq]
      exact ⟨⟨le_refl i, nz⟩, Store.wfFrom_fromList rest (i + 1)⟩

theorem Store.wf_fromList (l : List Num) : (Store.fromList 0 l).wf = true := Store.wfFrom_fromList l 0

theorem Store.wf_ofFn (n : Nat) (f : Nat → Num) : (Store.ofFn n f).wf = true := Store.wf_fromList _

/-- Cell `i + k` of a listed array holds value `k` of the list; past the list it reads +0.0. -/
theorem Store.read_fromList (k : Nat) : ∀ (l : List Num) (i : Nat),
    (Store.fromList i l).read (i + k) = l.getD k Num.zero
  | [], _ => rfl
  | v :: rest, i => by
    unfold Store.fromList
    cases k with
    | zero =>
      split
      · rename_i z
        rw [Nat.add_zero, List.getD_cons_zero, z]
        exact Store.read_below (Store.wfFrom_fromList rest (i + 1)) (by omega)
      · simp [Store.read]
    | succ k =>
      have shift : i + (k + 1) = i + 1 + k := by omega
      split
      · rw [shift, Store.read_fromList k rest (i + 1), List.getD_cons_succ]
      · rw [Store.read, if_neg (by omega), shift, Store.read_fromList k rest (i + 1), List.getD_cons_succ]

theorem Store.read_ofFn {n i : Nat} (f : Nat → Num) (h : i < n) : (Store.ofFn n f).read i = f i := by
  have := Store.read_fromList i ((List.range n).map f) 0
  rw [Nat.zero_add] at this
  rw [Store.ofFn, this]
  simp [List.getD, h]

theorem Store.read_ofFn_past {n i : Nat} (f : Nat → Num) (h : n ≤ i) : (Store.ofFn n f).read i = Num.zero := by
  have := Store.read_fromList i ((List.range n).map f) 0
  rw [Nat.zero_add] at this
  rw [Store.ofFn, this]
  simp [List.getD, h]

theorem Store.allBits_write {m : Store} (h : m.AllBits) {i : Nat} {v : Num} (hv : Num.IsBits v) :
    (m.write i v).AllBits := fun e he => (Store.mem_write he).elim (h e) (fun eq => eq ▸ hv)

theorem Store.within_write {n : Nat} {m : Store} (h : m.Within n) {i : Nat} {v : Num} (hi : i < n) :
    (m.write i v).Within n := fun e he => (Store.mem_write he).elim (h e) (fun eq => eq ▸ hi)

theorem Store.allBits_fromList {l : List Num} {i : Nat} (h : ∀ v ∈ l, Num.IsBits v) : (Store.fromList i l).AllBits :=
  fun _ he => h _ (Store.mem_fromList he).2.2

theorem Store.within_fromList {n : Nat} {l : List Num} (h : l.length ≤ n) : (Store.fromList 0 l).Within n :=
  fun _ he => by have := Store.mem_fromList he; omega

theorem Store.within_ofFn (n : Nat) (f : Nat → Num) : (Store.ofFn n f).Within n :=
  Store.within_fromList (by simp)

theorem Store.allBits_ofFn {n : Nat} {f : Nat → Num} (h : ∀ i < n, Num.IsBits (f i)) : (Store.ofFn n f).AllBits :=
  Store.allBits_fromList (by simpa using h)

/-- Every cell of an array of binary32 values reads a binary32 value. -/
theorem Store.isBits_read {m : Store} (h : m.AllBits) (i : Nat) : Num.IsBits (m.read i) := by
  induction m with
  | nil => exact ⟨0, rfl⟩
  | cons e rest ih =>
    obtain ⟨k, v⟩ := e
    rw [Store.read]
    split
    · exact h (k, v) (List.mem_cons_self ..)
    · exact ih fun e he => h e (List.mem_cons_of_mem _ he)

/-- Two canonical arrays that agree at every cell are the same data. -/
theorem Store.ext_from {lo : Nat} : ∀ {m m' : Store}, Store.wfFrom lo m = true → Store.wfFrom lo m' = true →
    (∀ i, m.read i = m'.read i) → m = m'
  | [], [], _, _, _ => rfl
  | [], (k, v) :: rest, _, h, same => by
    simp only [Store.wfFrom, Bool.and_eq_true, decide_eq_true_eq] at h
    have := same k
    rw [Store.read_nil, Store.read, if_pos rfl] at this
    exact absurd this.symm h.1.2
  | (k, v) :: rest, [], h, _, same => by
    simp only [Store.wfFrom, Bool.and_eq_true, decide_eq_true_eq] at h
    have := same k
    rw [Store.read_nil, Store.read, if_pos rfl] at this
    exact absurd this h.1.2
  | (k, v) :: rest, (k', v') :: rest', h, h', same => by
    simp only [Store.wfFrom, Bool.and_eq_true, decide_eq_true_eq] at h h'
    have key : k = k' := by
      by_contra ne
      rcases Nat.lt_or_gt_of_ne ne with lt | lt
      · have := same k
        rw [Store.read, if_pos rfl, Store.read, if_neg (by omega), Store.read_below h'.2 (by omega)] at this
        exact h.1.2 this
      · have := same k'
        rw [Store.read, if_neg (by omega), Store.read_below h.2 (by omega), Store.read, if_pos rfl] at this
        exact h'.1.2 this.symm
    subst key
    have val : v = v' := by simpa [Store.read] using same k
    subst val
    congr 1
    refine Store.ext_from h.2 h'.2 fun i => ?_
    by_cases e : k = i
    · rw [Store.read_below h.2 (by omega), Store.read_below h'.2 (by omega)]
    · simpa [Store.read, e] using same i

theorem Store.ext {m m' : Store} (h : m.wf = true) (h' : m'.wf = true) (same : ∀ i, m.read i = m'.read i) : m = m' :=
  Store.ext_from h h' same

theorem Memory.wf_iff (m : Memory) : m.wf = true ↔
    m.input.wf = true ∧ m.ob.wf = true ∧ m.nb.wf = true ∧ m.frag.wf = true ∧ m.hann.wf = true ∧ m.cbw.wf = true ∧
      m.acwinv.wf = true := by
  simp only [Memory.wf, Bool.and_eq_true, and_assoc]

theorem Memory.wf_empty : Memory.empty.wf = true := rfl

end Sys2Proof.Machine
end

