-- ==== Sys2Proof/Laws/Ops.lean ====
section
/-! SUPPORT. What the shared operations do: the ring index, the cells the ring operations leave, the canonical form they
keep, and the cases of an operation that tests something (spec/00_scope.md R8, spec/40_ring_buffers.md R500 to R506,
spec/60_exceptions.md R1301). -/

namespace Sys2Proof

/-- A floor-mod lies in [0, n) (R8). -/
theorem fmod_lt (k : Int) {n : Nat} (h : 0 < n) : fmod k n < n := by
  have := Int.emod_lt_of_pos k (Int.natCast_pos.2 h)
  have := Int.emod_nonneg k (Int.natCast_pos.2 h).ne'
  unfold fmod; omega

@[simp] theorem fmod_natCast (k n : Nat) : fmod (k : Int) n = k % n := by
  unfold fmod; omega

/-- A floor-mod differs from its argument by a multiple of n (R8). -/
theorem dvd_sub_fmod (k : Int) {n : Nat} (h : 0 < n) : (n : Int) ∣ k - fmod k n := by
  have e : ((fmod k n : Nat) : Int) = k % n := Int.toNat_of_nonneg (Int.emod_nonneg k (by omega))
  rw [e]
  exact Int.dvd_self_sub_emod

/-- The floor-mod is the one number of [0, n) that differs from its argument by a multiple of n (R8). -/
theorem fmod_unique {k : Int} {n i : Nat} (hi : i < n) (h : (n : Int) ∣ k - i) : fmod k n = i := by
  obtain ⟨c, hc⟩ := h
  have : k = i + n * c := by omega
  unfold fmod
  rw [this, Int.add_mul_emod_self_left, Int.emod_eq_of_lt (by omega) (by omega)]
  exact Int.toNat_natCast i

namespace Machine

/-! ### Errors -/

@[simp] theorem raiseError_err (b : ErrBit) (s : State) : (raiseError b s).err = s.err ||| errMask b := rfl

@[simp] theorem respond_readData (w : Word) (s : State) : (respond w s).readData = some w := rfl

/-- A write of an f32 register stores the operand of a finite word, and is refused otherwise. -/
theorem writeF32_cases (d : Word) (store : Num → State → State) (s : State) :
    (isFinite32 d = true ∧ writeF32 d store s = store (.bits d) s) ∨
    (isFinite32 d = false ∧ writeF32 d store s = raiseError .val s) := by
  unfold writeF32 operandF32
  cases h : isFinite32 d <;> simp

/-- A write of an enumerated register stores the four low bits of a legal word, and is refused otherwise. -/
theorem writeEnum_cases (top : Nat) (d : Word) (store : BitVec 4 → State → State) (s : State) :
    (d.toNat ≤ top ∧ writeEnum top d store s = store (d.extractLsb' 0 4) s) ∨
    (top < d.toNat ∧ writeEnum top d store s = raiseError .val s) := by
  unfold writeEnum operandEnum
  by_cases h : d.toNat ≤ top
  · exact .inl ⟨h, by simp [h]⟩
  · exact .inr ⟨by omega, by simp [h]⟩

/-- A PUSH is refused in UNINIT, refused for a word that is not finite, or runs the sample step. -/
theorem pushSample_cases (d : Word) (s : State) :
    (s.ready = false ∧ pushSample d s = raiseError .nrdy s) ∨
    (s.ready = true ∧ isFinite32 d = false ∧ pushSample d s = raiseError .val s) ∨
    (s.ready = true ∧ isFinite32 d = true ∧ pushSample d s = acceptSample (.bits d) s) := by
  unfold pushSample operandF32
  cases s.ready <;> cases isFinite32 d <;> simp

/-! ### The ring operations -/

@[simp] theorem ringPush_inWr (x : Num) (s : State) : (ringPush x s).inWr = (s.inWr + 1) % s.bufLen := by
  have : ((s.inWr : Int) + 1) = ((s.inWr + 1 : Nat) : Int) := by push_cast; ring
  rw [ringPush, this, fmod_natCast]

@[simp] theorem ringPush_mem_input (x : Num) (s : State) :
    (ringPush x s).mem.input = s.mem.input.write s.inWr x := rfl

@[simp] theorem takeSample_inWr (x : Num) (s : State) : (takeSample x s).inWr = (s.inWr + 1) % s.bufLen :=
  ringPush_inWr x s

@[simp] theorem takeSample_mem_input (x : Num) (s : State) :
    (takeSample x s).mem.input = s.mem.input.write s.inWr x := rfl

@[simp] theorem takeSample_sampleCount (x : Num) (s : State) :
    (takeSample x s).sampleCount = s.sampleCount + 1 := rfl

@[simp] theorem ringClear_outRd (s : State) : (ringClear s).outRd = (s.outRd + 1) % s.bufLen := by
  have : ((s.outRd : Int) + 1) = ((s.outRd + 1 : Nat) : Int) := by push_cast; ring
  rw [ringClear, this, fmod_natCast]

@[simp] theorem ringClear_mem_ob (s : State) : (ringClear s).mem.ob = s.mem.ob.write s.outRd Num.zero := rfl

@[simp] theorem ringClear_mem_nb (s : State) : (ringClear s).mem.nb = s.mem.nb.write s.outRd Num.zero := rfl

@[simp] theorem ringAccumulate_mem_ob (t : Int) (v g : Num) (s : State) : (ringAccumulate t v g s).mem.ob =
    s.mem.ob.write (placeCell s t) (Num.add s.par.arith (s.mem.ob.read (placeCell s t)) v) := rfl

@[simp] theorem ringAccumulate_mem_nb (t : Int) (v g : Num) (s : State) : (ringAccumulate t v g s).mem.nb =
    s.mem.nb.write (placeCell s t) (Num.add s.par.arith (s.mem.nb.read (placeCell s t)) g) := rfl

@[simp] theorem extractGrain_mem_frag (s : State) : (extractGrain s).mem.frag = Store.ofFn s.bufLen (grainRead s) := rfl

@[simp] theorem placeGrain_fragSize (s : State) : (placeGrain s).fragSize = 0 := rfl

@[simp] theorem readBackAndMix_outRd (s : State) : (readBackAndMix s).outRd = (s.outRd + 1) % s.bufLen :=
  ringClear_outRd s

@[simp] theorem readBackAndMix_mem (s : State) : (readBackAndMix s).mem = (ringClear s).mem := rfl

theorem readBackAndMix_outputs (s : State) : (readBackAndMix s).outL = (readBackAndMix s).outR := rfl

/-! ### The canonical form of the memory -/

theorem ringPush_wf (x : Num) {s : State} (h : s.mem.wf = true) : (ringPush x s).mem.wf = true := by
  rw [Memory.wf_iff] at h ⊢
  exact ⟨Store.wf_write h.1 _ _, h.2⟩

theorem takeSample_wf (x : Num) {s : State} (h : s.mem.wf = true) : (takeSample x s).mem.wf = true := ringPush_wf x h

theorem ringAccumulate_wf (t : Int) (v g : Num) {s : State} (h : s.mem.wf = true) :
    (ringAccumulate t v g s).mem.wf = true := by
  rw [Memory.wf_iff] at h ⊢
  exact ⟨h.1, Store.wf_write h.2.1 _ _, Store.wf_write h.2.2.1 _ _, h.2.2.2⟩

theorem ringClear_wf {s : State} (h : s.mem.wf = true) : (ringClear s).mem.wf = true := by
  rw [Memory.wf_iff] at h ⊢
  exact ⟨h.1, Store.wf_write h.2.1 _ _, Store.wf_write h.2.2.1 _ _, h.2.2.2⟩

theorem extractGrain_wf {s : State} (h : s.mem.wf = true) : (extractGrain s).mem.wf = true := by
  rw [Memory.wf_iff] at h ⊢
  exact ⟨h.1, h.2.1, h.2.2.1, Store.wf_ofFn _ _, h.2.2.2.2⟩

theorem placeSample_wf (n t : Int) {s : State} (h : s.mem.wf = true) : (placeSample n s t).mem.wf = true :=
  ringAccumulate_wf _ _ _ h

theorem placeAll_wf (n : Int) : ∀ (l : List Int) {s : State}, s.mem.wf = true →
    (l.foldl (placeSample n) s).mem.wf = true
  | [], _, h => h
  | t :: rest, _, h => placeAll_wf n rest (placeSample_wf n t h)

theorem placeGrain_wf {s : State} (h : s.mem.wf = true) : (placeGrain s).mem.wf = true := placeAll_wf _ _ h

theorem inputWrap_wf {s : State} (h : s.mem.wf = true) : (inputWrap s).mem.wf = true := by
  unfold inputWrap
  split
  · exact extractGrain_wf h
  · exact h

theorem outputWrap_wf {s : State} (h : s.mem.wf = true) : (outputWrap s).mem.wf = true := by
  unfold outputWrap
  split
  · exact placeGrain_wf h
  · exact h

theorem readBackAndMix_wf {s : State} (h : s.mem.wf = true) : (readBackAndMix s).mem.wf = true := ringClear_wf h

theorem initMemory_wf (ar : Arith) (n : Nat) : (initMemory ar n).wf = true := by
  rw [Memory.wf_iff]
  exact ⟨rfl, rfl, rfl, rfl, Store.wf_ofFn _ _, Store.wf_fromList _, Store.wf_ofFn _ _⟩

/-- Every memory operation of a PUSH keeps the canonical form. -/
theorem acceptSample_wf (x : Num) {s : State} (h : s.mem.wf = true) : (acceptSample x s).mem.wf = true := by
  refine readBackAndMix_wf (outputWrap_wf (inputWrap_wf ?_))
  rw [advancePhases_mem, hopIfDue_mem]
  exact takeSample_wf x h

/-- The memory after power-on reset is in canonical form (R1400, log 13). -/
theorem reset_memory_wf : State.reset.mem.wf = true := rfl

/-! ### The step -/

/-- A step takes the head of the port and runs it, or idles. -/
theorem step_cases (s : State) :
    (s.port = [] ∧ step s = .next s) ∨
    (∃ w rest, s.port = w :: rest ∧ (∃ e, decode w = .error e) ∧ step s = .next s) ∨
    (∃ w rest i, s.port = w :: rest ∧ decode w = .ok i ∧ step s = exec i { s with port := rest, readData := none }) := by
  unfold step takeTransaction
  split
  · rename_i i t h
    split at h
    · cases h
    · rename_i w rest e
      split at h
      · rename_i j hj
        simp only [Option.some.injEq, Prod.mk.injEq] at h
        obtain ⟨rfl, rfl⟩ := h
        exact .inr (.inr ⟨w, rest, j, e, hj, rfl⟩)
      · cases h
  · rename_i h
    split at h
    · rename_i e
      exact .inl ⟨e, rfl⟩
    · rename_i w rest e
      split at h
      · cases h
      · rename_i er hj
        exact .inr (.inl ⟨w, rest, e, ⟨er, hj⟩, rfl⟩)

/-- The state that each transaction leaves: it always completes (R1301, R1304). -/
def after (s : State) : Instr → State
  | .init => if s.fs.toNat < 1400 then raiseError .cfg s else initEngine s
  | .cmdRsvd _ => raiseError .val s
  | .wrCtrl d => { s with normEn := operandNormEn d }
  | .wrErr d => { s with err := clearErr s.err (operandClear d) }
  | .wrFs d => { s with fs := d }
  | .wrMix d => writeF32 d (fun x s => { s with mix := x }) s
  | .wrShift d => writeF32 d (fun x s => { s with shift := x }) s
  | .wrTune d => writeF32 d (fun x s => { s with tune := x }) s
  | .wrAmount d => writeF32 d (fun x s => { s with amount := x }) s
  | .wrGlide d => writeF32 d (fun x s => { s with glide := x }) s
  | .wrPersist d => writeF32 d (fun x s => { s with persist := x }) s
  | .wrRoot d => writeEnum 11 d (fun v s => recomputeMask { s with root := v }) s
  | .wrScale d => writeEnum 12 d (fun v s => recomputeMask { s with scale := v }) s
  | .push d => pushSample d s
  | .wrBad _ _ => raiseError .addr s
  | .rd a _ => match regAt a with
    | some r => respond (regWord s r) s
    | none => respond 0 (raiseError .addr s)

theorem exec_eq_after (i : Instr) (s : State) : exec i s = .next (after s i) := by
  cases i <;> try rfl
  rename_i a d
  simp only [exec, execRd, after]
  cases regAt a <;> rfl

end Machine

end Sys2Proof
end

