-- ==== Sys2Proof/Laws/PerInstr.lean ====
section
/-! SUPPORT. A statement for every transaction, with one lemma for each (spec/30_encoding.md R402, R403). -/

namespace Sys2Proof.Laws.FitsOwnRow

/-- The word of the transaction fits a row of the opcode table, and that row reads the transaction back from it, with
every field it has. -/
def Statement (i : Instr) : Prop := ∃ r ∈ opTable, r.fits (encode i) = true ∧ r.build (encode i) = i

theorem init : Statement .init := ⟨opTable[0], List.getElem_mem _, by decide, rfl⟩

/-- A specific write row fits every word with its address. -/
theorem of_row {k : Nat} (hk : k < opTable.length) (a : Addr) (d : Word)
    (hm : opTable[k].mask = 0xFF00000000#40) (hp : opTable[k].pattern = Txn.make true a 0) :
    opTable[k].fits (Txn.make true a d) = true := by
  rw [OpRow.fits, hm, hp, Txn.make_and_header]
  exact beq_self_eq_true _

theorem cmdRsvd (d : Word) : Statement (.cmdRsvd d) :=
  ⟨opTable[1], List.getElem_mem _, of_row (by decide) 0x01 d rfl rfl, congrArg Instr.cmdRsvd (Txn.data_make ..)⟩

theorem wrCtrl (d : Word) : Statement (.wrCtrl d) :=
  ⟨opTable[2], List.getElem_mem _, of_row (by decide) 0x00 d rfl rfl, congrArg Instr.wrCtrl (Txn.data_make ..)⟩

theorem wrErr (d : Word) : Statement (.wrErr d) :=
  ⟨opTable[3], List.getElem_mem _, of_row (by decide) 0x03 d rfl rfl, congrArg Instr.wrErr (Txn.data_make ..)⟩

theorem wrFs (d : Word) : Statement (.wrFs d) :=
  ⟨opTable[4], List.getElem_mem _, of_row (by decide) 0x04 d rfl rfl, congrArg Instr.wrFs (Txn.data_make ..)⟩

theorem wrMix (d : Word) : Statement (.wrMix d) :=
  ⟨opTable[5], List.getElem_mem _, of_row (by decide) 0x10 d rfl rfl, congrArg Instr.wrMix (Txn.data_make ..)⟩

theorem wrShift (d : Word) : Statement (.wrShift d) :=
  ⟨opTable[6], List.getElem_mem _, of_row (by decide) 0x11 d rfl rfl, congrArg Instr.wrShift (Txn.data_make ..)⟩

theorem wrTune (d : Word) : Statement (.wrTune d) :=
  ⟨opTable[7], List.getElem_mem _, of_row (by decide) 0x12 d rfl rfl, congrArg Instr.wrTune (Txn.data_make ..)⟩

theorem wrAmount (d : Word) : Statement (.wrAmount d) :=
  ⟨opTable[8], List.getElem_mem _, of_row (by decide) 0x13 d rfl rfl, congrArg Instr.wrAmount (Txn.data_make ..)⟩

theorem wrGlide (d : Word) : Statement (.wrGlide d) :=
  ⟨opTable[9], List.getElem_mem _, of_row (by decide) 0x14 d rfl rfl, congrArg Instr.wrGlide (Txn.data_make ..)⟩

theorem wrPersist (d : Word) : Statement (.wrPersist d) :=
  ⟨opTable[10], List.getElem_mem _, of_row (by decide) 0x15 d rfl rfl, congrArg Instr.wrPersist (Txn.data_make ..)⟩

theorem wrRoot (d : Word) : Statement (.wrRoot d) :=
  ⟨opTable[11], List.getElem_mem _, of_row (by decide) 0x16 d rfl rfl, congrArg Instr.wrRoot (Txn.data_make ..)⟩

theorem wrScale (d : Word) : Statement (.wrScale d) :=
  ⟨opTable[12], List.getElem_mem _, of_row (by decide) 0x17 d rfl rfl, congrArg Instr.wrScale (Txn.data_make ..)⟩

theorem push (d : Word) : Statement (.push d) :=
  ⟨opTable[13], List.getElem_mem _, of_row (by decide) 0x20 d rfl rfl, congrArg Instr.push (Txn.data_make ..)⟩

theorem wrBad (a : Addr) (d : Word) : Statement (.wrBad a d) := by
  refine ⟨opTable[14], List.getElem_mem _, ?_, congrArg₂ Instr.wrBad (Txn.addr_make ..) (Txn.data_make ..)⟩
  have h := Txn.make_and_write true a d
  exact beq_iff_eq.2 (h.trans rfl)

theorem rd (a : Addr) (d : Word) : Statement (.rd a d) := by
  refine ⟨opTable[15], List.getElem_mem _, ?_, congrArg₂ Instr.rd (Txn.addr_make ..) (Txn.data_make ..)⟩
  have h := Txn.make_and_write false a d
  exact beq_iff_eq.2 (h.trans rfl)

end Sys2Proof.Laws.FitsOwnRow
end

