-- ==== Sys2Proof/Tests/Slice0.lean ====
section
/-! SUPPORT. Tests: the checks of well-formedness, words written out from spec/30_encoding.md R403, the vectors of
spec/95_test_vectors.md (named by their number there), and for every statement with hypotheses a state and operands that
meet them all. -/

namespace Sys2Proof.Machine.Tests

/-! ### Well-formedness (R402, R403) -/

theorem test_cmdRsvd_with_one_is_ill_formed : (Instr.cmdRsvd 1).wf = false := by decide

theorem test_cmdRsvd_with_another_code_is_well_formed : (Instr.cmdRsvd 0).wf = true ∧ (Instr.cmdRsvd 2).wf = true := by
  decide

theorem test_wrBad_at_a_writable_address_is_ill_formed : ∀ a ∈ writableAddrs, (Instr.wrBad a 0).wf = false := by decide

theorem test_wrBad_elsewhere_is_well_formed :
    (Instr.wrBad 0x02 0).wf = true ∧ (Instr.wrBad 0x18 0).wf = true ∧ (Instr.wrBad 0x45 1).wf = true := by decide

/-! ### Decoding: one word of each row, from the bit patterns of R403 -/

theorem test_decode_init : decode 0b1000000100000000000000000000000000000001#40 = .ok .init := by rfl

theorem test_decode_cmdRsvd : decode 0b1000000100000000000000000000000000000011#40 = .ok (.cmdRsvd 3) := by rfl

theorem test_decode_wrCtrl :
    decode 0b1000000010000000000000000000000000000001#40 = .ok (.wrCtrl 0x80000001) := by rfl

theorem test_decode_wrErr : decode 0b1000001100000000000000000000000000001111#40 = .ok (.wrErr 15) := by rfl

theorem test_decode_wrFs : decode 0b1000010000000000000000001010110001000100#40 = .ok (.wrFs 44100) := by rfl

theorem test_decode_wrMix :
    decode 0b1001000000111111100000000000000000000000#40 = .ok (.wrMix 0x3F800000) := by rfl

theorem test_decode_wrShift :
    decode 0b1001000111000001010000000000000000000000#40 = .ok (.wrShift 0xC1400000) := by rfl

theorem test_decode_wrTune :
    decode 0b1001001000111111000000000000000000000000#40 = .ok (.wrTune 0x3F000000) := by rfl

theorem test_decode_wrAmount :
    decode 0b1001001100111111100000000000000000000000#40 = .ok (.wrAmount 0x3F800000) := by rfl

theorem test_decode_wrGlide :
    decode 0b1001010000111101110011001100110011001101#40 = .ok (.wrGlide 0x3DCCCCCD) := by rfl

theorem test_decode_wrPersist :
    decode 0b1001010100111111000000000000000000000000#40 = .ok (.wrPersist 0x3F000000) := by rfl

theorem test_decode_wrRoot : decode 0b1001011000000000000000000000000000001011#40 = .ok (.wrRoot 11) := by rfl

theorem test_decode_wrScale : decode 0b1001011100000000000000000000000000001100#40 = .ok (.wrScale 12) := by rfl

theorem test_decode_push : decode 0b1010000000111111100000000000000000000000#40 = .ok (.push 0x3F800000) := by rfl

theorem test_decode_wrBad : decode 0b1100010100000000000000000000000000000001#40 = .ok (.wrBad 0x45 1) := by rfl

theorem test_decode_rd :
    decode 0b0000001111111111111111111111111111111111#40 = .ok (.rd 0x03 0xFFFFFFFF) := by rfl

theorem test_table_word_forty_bits : decodeTableWord 40 0x9600000002 = some (.wrRoot 2) := by rfl

/-! ### States for the tests -/

/-- Power-on reset with every row of SCALE_ROM the 0xAB5 of the examples of R803. -/
def start : State := { State.reset with par := ⟨.exact, .raw, Vector.replicate 13 0xAB5⟩, mask := 0xAB5 }

/-- A state in READY with buffers of eight cells, so that a step on it is small. -/
def small : State :=
  { start with
    ready := true
    fsAct := 44100
    nsize := 8
    hopsize := 2
    nmin := 2
    nmax := 3
    ratio := Num.one
    phaseInc := .bits 0x3E000000
    periodNom := .rat (1 / 700) }

/-- `small` under ARITH = f32. -/
def small32 : State := { small with par := ⟨.f32, .raw, Vector.replicate 13 0xAB5⟩, periodNom := .bits 0x3ABB3EE7 }

/-- Where the tests make a decision: under ARITH = exact it does not matter. -/
def anySite : Site := ⟨0, .glide⟩

/-- An estimate of lag 198 with the confidence `conf`. -/
def heard (conf : Num) : Est := ⟨198, Num.one, conf, Num.zero⟩

/-- The state after FS is written. -/
def withRate (fs : Word) : State := { start with fs := fs }

/-! ### Host transactions (section 2.7 of spec/95_test_vectors.md) -/

theorem test_X7_init_at_44100 :
    (initEngine (withRate 44100)).nsize = 2048 ∧ (initEngine (withRate 44100)).hopsize = 512 ∧
    (initEngine (withRate 44100)).nmin = 63 ∧ (initEngine (withRate 44100)).nmax = 630 ∧
    (initEngine (withRate 44100)).ready = true := by decide

theorem test_P1_phaseInc_reads_one_over_63 : regWord (initEngine (withRate 44100)) .phaseInc = 0x3C820821 := by
  decide +kernel

theorem test_X8_init_below_1400 : exec .init (withRate 1000) = .next { withRate 1000 with err := 0b0001 } := rfl

theorem test_lag_bounds_of_section_2_3_1 :
    [nminFor 1400, nmaxFor 1400, nmaxFor 88199, nmaxFor 88200, nmaxFor 192000, nminFor 1434300, nmaxFor 1434300,
      nminFor 1435000, nmaxFor 1435000] = [2, 20, 1025, 1260, 2049, 2049, 2049, 2050, 2049] := by decide

theorem test_X13_cmdRsvd : exec (.cmdRsvd 2) start = .next { start with err := 0b0100 } := rfl

theorem test_X15_wrCtrl_ignores_reserved_bits :
    exec (.wrCtrl 0xFFFFFFFF) start = .next { start with normEn := true } ∧
    exec (.wrCtrl 0xFFFFFFFE) start = .next start := ⟨rfl, rfl⟩

theorem test_X16_wrErr :
    exec (.wrErr 0x2) { start with err := 0b0110 } = .next { start with err := 0b0100 } := rfl

theorem test_X17_wrErr_ignores_high_bits :
    exec (.wrErr 0xFFFFFFF4) { start with err := 0xD } = .next { start with err := 0x9 } := rfl

theorem test_X18_wrFs : exec (.wrFs 48000) small = .next { small with fs := 48000 } := rfl

theorem test_X20_wrMix_infinity : exec (.wrMix 0x7F800000) start = .next { start with err := 0b0100 } := rfl

theorem test_X21_wrMix_out_of_range : exec (.wrMix 0x40000000) start = .next { start with mix := .bits 0x40000000 } := rfl

theorem test_X23_wrShift : exec (.wrShift 0xC1400000) start = .next { start with shift := .bits 0xC1400000 } := rfl

theorem test_X25_wrTune_nan : exec (.wrTune 0x7FC00000) start = .next { start with err := 0b0100 } := rfl

theorem test_X26_wrAmount : exec (.wrAmount 0x3F800000) start = .next { start with amount := .bits 0x3F800000 } := rfl

theorem test_X27_wrGlide : exec (.wrGlide 0x3DCCCCCD) start = .next { start with glide := .bits 0x3DCCCCCD } := rfl

theorem test_X29_wrPersist_minus_zero :
    exec (.wrPersist 0x80000000) start = .next { start with persist := .bits 0x80000000 } := rfl

theorem test_X30_wrRoot : after start (.wrRoot 2) = { start with root := 2, mask := 0xAD6 } := by decide

theorem test_X32_wrRoot_tests_all_32_bits : exec (.wrRoot 0x80000002) start = .next { start with err := 0b0100 } := rfl

theorem test_X33_wrScale : after start (.wrScale 12) = { start with scale := 12 } := by decide

theorem test_X34_wrScale : exec (.wrScale 13) start = .next { start with err := 0b0100 } := rfl

theorem test_X36_push_in_uninit : exec (.push 0x7FC00000) start = .next { start with err := 0b0010 } := rfl

theorem test_X37_push_infinity : exec (.push 0xFF800000) small = .next { small with err := 0b0100 } := rfl

theorem test_X41_wrBad : exec (.wrBad 0x45 1) start = .next { start with err := 0b1000 } := rfl

theorem test_X46_rd_unmapped :
    exec (.rd 0x09 0) start = .next { start with err := 0b1000, readData := some 0 } := rfl

theorem test_X48_rd_err :
    exec (.rd 0x03 0xFFFFFFFF) { start with err := 0xD } = .next { start with err := 0xD, readData := some 13 } := rfl

/-! ### Rotation, distances, quantizer (section 2.4) -/

theorem test_K3_rotation_by_eleven : rotatedMask 0xAB5 11 = 0xD5A := by decide

theorem test_W2_distance_has_period_twelve :
    [wrappedDistance .exact anySite (.rat (23 / 10)) 2, wrappedDistance .exact anySite (.rat (263 / 10)) 2,
      wrappedDistance .exact anySite (.rat (-97 / 10)) 2].map Num.asRat = [some (1 / 20), some (1 / 20), some (1 / 20)] := by
  decide +kernel

theorem test_W9_equal_paths_take_minus_six :
    [wrappedSigned .exact anySite (.rat 6), wrappedSigned .exact anySite (.rat (-6)),
      wrappedSigned .exact anySite (.rat 18)].map Num.asRat = [some (-6), some (-6), some (-6)] := by decide +kernel

theorem test_Q4_Q5_ties_go_to_the_later_class :
    [quantize .exact 0 (.rat (1 / 2)) 0xFFF, quantize .exact 0 (.rat (-1 / 2)) 0xFFF] = [1, 11] := by decide +kernel

theorem test_Q7_Q8_disallowed_classes :
    [quantize .exact 0 (.rat 1) 0xAB5, quantize .exact 0 (.rat 6) 0xAB5] = [2, 7] := by decide +kernel

theorem test_R806_no_class_allowed :
    [quantize .exact 0 (.rat 0) 0x020, quantize .exact 0 (.rat 0) 0x040, quantize .exact 0 (.rat 0) 0x000] = [5, 6, 0] := by
  decide +kernel

/-! ### Smoother (section 2.5) -/

theorem test_M1_blend :
    ((blend { small with persistAmt := .rat (1 / 2), smooth := .rat 3, qtarget := 7 }).smooth.asRat) = some 5 := by
  decide +kernel

theorem test_M2_glide_snaps :
    ((recordVoicing true (glideStep { small with smooth := .rat 11, qtarget := 1 })).smooth.asRat) = some 1 := by
  decide +kernel

theorem test_M9_voicing_threshold :
    [isVoiced .exact 0 (heard (.rat (4 / 5))), isVoiced .exact 0 (heard (.bits 0x3F4CCCCC)),
      isVoiced .exact 0 (heard (.rat (99709 / 100000))),
      Num.le .f32 (Num.ofRat .f32 (4 / 5)) (.bits 0x3F4CCCCC),
      Num.le .f32 (Num.ofRat .f32 (4 / 5)) (.bits 0x3F4CCCCD)] = [true, false, true, false, true] := by
  decide +kernel

theorem test_M13_ratio_of_an_octave_down :
    (setRatio false { small with shift := .bits 0xC1400000 }).ratio = .bits 0x3F000000 := by decide +kernel

/-! ### Windows and ring buffers (sections 2.1 and 2.2) -/

theorem test_V1_synthesis_window :
    [hannAt .exact 2048 0, hannAt .exact 2048 512, hannAt .exact 2048 1024, hannAt .exact 2048 1536] =
      [.bits 0, .bits 0x3F000000, .bits 0x3F800000, .bits 0x3F000000] := by decide +kernel

theorem test_V3_analysis_window :
    [cbwAt .exact 2048 511, cbwAt .exact 2048 512, cbwAt .exact 2048 768, cbwAt .exact 2048 1024,
      cbwAt .exact 2048 1536] = [.bits 0, .bits 0, .bits 0x3F000000, .bits 0x3F800000, .bits 0] := by decide +kernel

theorem test_B1_B2_B3_ring_index :
    [fmod (-1) 2048, fmod (5 - 1024) 2048, fmod (-4097) 2048] = [2047, 1029, 2047] := by decide

theorem test_B4_push_wraps : (ringPush (.bits 0x3F000000) { small with inWr := 7 }).inWr = 0 := by decide

theorem test_B7_B8_placement_cells :
    [placeCell { small with nsize := 2048, outRd := 10 } (-1030), placeCell { small with nsize := 2048, outRd := 10 } (-1024)]
      = [4, 10] := by decide

/-! ### Shifter (section 2.6) -/

/-- The state of the rows G1 to G5: N = 2048, r = 0. -/
def placing (count : Word) (ratio : Num) : State := { small with nsize := 2048, fragSize := count, ratio := ratio }

theorem test_G1_to_G5_grain_lengths :
    [grainSamples (placing 4 Num.one), grainSamples (placing 4 (.rat 2)), grainSamples (placing 3 (.rat (3 / 4))),
      grainSamples (placing 4 (.rat (3 / 2))), grainSamples (placing 4 (.rat 17))] = [8, 4, 8, 5, 0] := by decide +kernel

theorem test_G4_positions : grainPositions 5 = [-2, -1, 0, 1] := by decide

theorem test_X1_X3_normalised_read_back :
    [wetSample { small with normEn := true } (.rat (3 / 10)) (.rat (3 / 5)),
      wetSample { small with normEn := true } (.rat (3 / 10)) (.rat (1 / 2)),
      wetSample small (.rat (3 / 10)) (.rat (3 / 5))].map Num.asRat =
      [some (1 / 2), some (3 / 10), some (3 / 10)] := by decide +kernel

theorem test_X4_mix :
    (mixSample { small with mix := .bits 0x3F000000 } (.rat (1 / 5)) (.rat (3 / 5))).asRat = some (2 / 5) := by
  decide +kernel

/-! ### Exact ties and values of any size (R9, R806, R905, R1005, R1405) -/

/-- FS = 44000, lag 100, TUNE = 0.5: the period 1/440 and the pitch -1/2, at which Q5 gives class 11. -/
theorem test_pitch_of_half_a_semitone_is_exact :
    pitchOf .exact (.bits 0x3F000000) (.rat (1 / 440)) = .bits 0xBF000000 ∧
    quantize .exact 0 (pitchOf .exact (.bits 0x3F000000) (.rat (1 / 440))) 0xFFF = 11 := by decide +kernel

/-- FS = 44000, lag 160, AMOUNT = 1, only class 0 allowed: s = 0, RATIO = 2^(12 log2(8/5) / 12) / 2 = 4/5 by the shortest
path, and 2 * FRAG_SIZE = 400 gives S = 500. -/
theorem test_ratio_of_four_fifths_is_exact :
    let s : State := { placing 200 Num.one with
      amount := Num.one, qtarget := 0, estPitch := pitchOf .exact Num.zero (.rat (160 / 44000)) }
    (setRatio true s).ratio = .rat (4 / 5) ∧ grainSamples (setRatio true s) = 500 := by decide +kernel

theorem test_V1_equal_window_cells_cancel :
    Num.sub .exact (Num.mul .exact (.rat (1 / 3)) (hannAt .exact 2048 1280))
      (Num.mul .exact (.rat (1 / 3)) (hannAt .exact 2048 768)) = Num.zero := by decide +kernel

/-- A power of PERSIST in SMOOTH, then a snap to class 0: SMOOTH is 0 (R905, R910). -/
theorem test_snap_to_zero_from_a_decayed_blend :
    let s := recordVoicing true (blend (persistDecay
      { small with persist := .bits 0x3F000000, persistAmt := Num.one, smooth := .rat 3, qtarget := 7 }))
    s.smooth.asRat = none ∧ (recordVoicing true (glideStep { s with qtarget := 0 })).smooth = Num.zero := by
  decide +kernel

/-- SHIFT = 12300 (R1405): RATIO = 2^1025, an empty grain, and a read beyond the binary32 range (log 5). -/
theorem test_R1405_shift_of_any_size :
    let s := setRatio false { placing 4 Num.one with shift := .bits 0x46403000 }
    grainSamples s = 0 ∧ regWord s .ratio = 0x7F800000 := by decide +kernel

/-! ### Binary32 (section 3, P1; I4, I5 of spec/93_implementation_defined.md) -/

theorem test_enc32_of_the_constants :
    [encRat (1 / 700), encRat (4 / 5), encRat (1 / 10 ^ 6), encRat 12, encRat (198 / 44100), encRat (1 / 198)] =
      [0x3ABB3EE7, 0x3F4CCCCD, 0x358637BD, 0x41400000, 0x3B931F23, 0x3BA57EB5] := by decide +kernel

/-! ### The statements' hypotheses are met -/

theorem small_memory : small.MemoryOk := rfl

theorem small_empty_history : small.InputHolds [] := fun _ _ => rfl

theorem small_push_next (d : Word) : ∃ t, exec (.push d) small = .next t := ⟨_, exec_eq_after _ _⟩

theorem witness_OpcodeMapPatternsDecode :
    (0 : Word) ≠ 1 ∧
    (0x02 : Addr) ∉ ([0x00, 0x01, 0x03, 0x04, 0x10, 0x11, 0x12, 0x13, 0x14, 0x15, 0x16, 0x17, 0x20] : List Addr) ∧
    (0x7F : Addr) ∉ ([0x00, 0x01, 0x03, 0x04, 0x10, 0x11, 0x12, 0x13, 0x14, 0x15, 0x16, 0x17, 0x20] : List Addr) := by
  decide

theorem witness_DecodeInvertsEncode : (Instr.cmdRsvd 2).wf = true ∧ (Instr.wrBad 0x02 0).wf = true := by decide

theorem witness_StepRunsTheDecodedTransaction :
    ({ start with port := [0xA03F800000] } : State).port = 0xA03F800000 :: [] ∧
    decode 0xA03F800000 = .ok (.push 0x3F800000) := ⟨rfl, rfl⟩

theorem witness_IdleStepKeepsTheState : State.reset.port = [] := rfl

theorem witness_ResetReadsZeroButMask :
    ((accessAt 0x00).isSome = true ∧ (0x00 : Addr) ≠ 0x18) ∧ ((accessAt 0x3A).isSome = true ∧ (0x3A : Addr) ≠ 0x18) := by
  decide

theorem witness_RefusedTransactionsOnlySetTheirFlag :
    (withRate 1399).fs.toNat < 1400 ∧ start.ready = false ∧
    (small.ready = true ∧ (0x7F800000 : Word).extractLsb' 23 8 = 0xFF) ∧
    (0xFFFFFFFF : Word).extractLsb' 23 8 = 0xFF ∧
    11 < (12 : Word).toNat ∧ 12 < (13 : Word).toNat ∧ accessAt 0x09 = none ∧ accessAt 0x3B = none ∧
    accessAt 0x7F = none := by decide

theorem witness_ErrIsKeptOutsideTheErrorConditions :
    (∃ t, exec .init (withRate 1400) = .next t) ∧ 1400 ≤ (withRate 1400).fs.toNat ∧
    (∃ t, exec (.wrCtrl 1) start = .next t) ∧ (∃ t, exec (.wrMix 0x7F7FFFFF) start = .next t) ∧
    (0x7F7FFFFF : Word).extractLsb' 23 8 ≠ 0xFF ∧ (11 : Word).toNat ≤ 11 ∧ (12 : Word).toNat ≤ 12 ∧
    (∃ t, exec (.push 0) small = .next t) ∧ small.ready = true ∧ (0 : Word).extractLsb' 23 8 ≠ 0xFF ∧
    accessAt 0x3A ≠ none :=
  ⟨⟨_, exec_eq_after _ _⟩, by decide, ⟨_, rfl⟩, ⟨_, rfl⟩, by decide, by decide, by decide, small_push_next 0, rfl,
    by decide, by decide⟩

theorem witness_ErrBitsFallOnlyByWrErr :
    exec (.wrErr 0x2) { start with err := 0b0110 } = .next { start with err := 0b0100 } ∧
    (0b0110 : BitVec 4).getLsbD 1 = true ∧ (0b0100 : BitVec 4).getLsbD 1 = false ∧
    1400 ≤ (withRate 1400).fs.toNat ∧ ∃ t, exec .init (withRate 1400) = .next t :=
  ⟨rfl, by decide, by decide, by decide, ⟨_, exec_eq_after _ _⟩⟩

theorem witness_InitSetsTheEngine :
    1400 ≤ (withRate 1400).fs.toNat ∧ (withRate 1400).par.arith = .exact ∧ 1400 ≤ (withRate 88199).fs.toNat ∧
    1400 ≤ ({ small32 with fs := 88200 } : State).fs.toNat ∧
    ({ small32 with fs := 88200 } : State).par.arith = .f32 := by decide

theorem witness_InitComputesTheWindows :
    (withRate 1400).par.arith = .exact ∧ 1400 ≤ (withRate 1400).fs.toNat ∧
    exec .init (withRate 1400) = .next (initEngine (withRate 1400)) ∧
    0 < (initEngine (withRate 1400)).bufLen ∧ 2047 < (initEngine (withRate 1400)).bufLen :=
  ⟨rfl, by decide, exec_eq_after _ _, by decide, by decide⟩

theorem witness_InitInvertsTheWindowAutocorrelation :
    (withRate 1400).par.arith = .exact ∧ 1400 ≤ (withRate 1400).fs.toNat ∧
    exec .init (withRate 1400) = .next (initEngine (withRate 1400)) ∧
    (1 < (initEngine (withRate 1400)).bufLen ∧ 0 < 1) ∧
    ((initEngine (withRate 1400)).bufLen / 2 - 1 ≤ 1023 ∧ 1025 ≤ (initEngine (withRate 1400)).bufLen / 2 + 1) :=
  ⟨rfl, by decide, exec_eq_after _ _, by decide, by decide⟩

theorem witness_ReadReturnsTheRegister :
    small32.par.arith = .f32 ∧ small.par.arith = .exact ∧ (Num.rat (1 / 3)).asRat = some (1 / 3) ∧
    (Num.piTimes 1).Defined := ⟨rfl, rfl, rfl, trivial⟩

theorem witness_WindowsChangeOnlyByInit :
    (Instr.push 0 ≠ .init ∧ ∃ t, exec (.push 0) small = .next t) ∧
    1400 ≤ (withRate 44100).fs.toNat ∧ 1400 ≤ (withRate 48000).fs.toNat ∧
    exec .init (withRate 44100) = .next (initEngine (withRate 44100)) ∧
    exec .init (withRate 48000) = .next (initEngine (withRate 48000)) ∧
    (withRate 44100).par.arith = (withRate 48000).par.arith ∧
    (initEngine (withRate 44100)).nsize = (initEngine (withRate 48000)).nsize :=
  ⟨⟨by decide, small_push_next 0⟩, by decide, by decide, exec_eq_after _ _, exec_eq_after _ _, rfl, by decide⟩

theorem witness_FloatWritesStoreTheOperand :
    (0x80000000 : Word).extractLsb' 23 8 ≠ 0xFF ∧ (0x7F7FFFFF : Word).extractLsb' 23 8 ≠ 0xFF := by decide

theorem witness_WrRootStoresAndRotates :
    11 < (12 : Word).toNat ∧ (11 : Word).toNat ≤ 11 ∧ ({ start with scale := 12 } : State).scale.toNat < 13 := by decide

theorem witness_WrScaleStoresAndRotates : 12 < (13 : Word).toNat ∧ (12 : Word).toNat < 13 := by decide

theorem witness_MaskIsTheRowRotatedLeft : (11 : BitVec 4).toNat ≤ 11 ∧ (0 : BitVec 4).toNat ≤ 11 := by decide

theorem witness_ReservedWritesRaiseTheirFlag :
    (2 : Word) ≠ 1 ∧ (accessAt 0x02 = some .ro ∨ accessAt 0x02 = none) ∧
    (accessAt 0x7F = some .ro ∨ accessAt 0x7F = none) := by decide

/-- The first PUSH of `small` reaches neither 1; with both phases at 7/8 it reaches 1 exactly, and wraps both. -/
theorem witness_AcceptedPushAdvancesTheStream :
    let s : State := { small with phaseIn := .bits 0x3F600000, phaseOut := .bits 0x3F600000 }
    (small.ready = true ∧ (0x3F800000 : Word).extractLsb' 23 8 ≠ 0xFF ∧ small.MemoryOk ∧
      Num.le .exact Num.one (Num.add .exact small.phaseIn (after small (.push 0x3F800000)).phaseInc) = false) ∧
    (s.ready = true ∧ s.MemoryOk ∧ (after s (.push 0x3F800000)).phaseIn = Num.zero ∧
      (after s (.push 0x3F800000)).phaseOut = Num.zero ∧ (after s (.push 0x3F800000)).fragSize = 0) :=
  ⟨⟨rfl, by decide, rfl, by decide +kernel⟩, rfl, rfl, by decide +kernel⟩

/-- No hop is due at w = 0 with H = 2 and the first phase 1/8 is below 1. -/
theorem witness_PushWithoutHopOrWrapIsReadBack :
    small.ready = true ∧ (0x3F800000 : Word).extractLsb' 23 8 ≠ 0xFF ∧ ¬ small.HopDue ∧
    Num.le small.par.arith (.bits 0x3F800000) (Num.add small.par.arith small.phaseIn small.phaseInc) = false ∧
    Num.le small.par.arith (.bits 0x3F800000)
      (Num.add small.par.arith small.phaseOut (Num.mul small.par.arith small.phaseInc small.ratio)) = false :=
  ⟨rfl, by decide, by unfold State.HopDue; decide, by decide +kernel, by decide +kernel⟩

theorem witness_HopRunsExactlyWhenDue :
    (small.ready = true ∧ ¬ small.HopDue ∧ ∃ t, exec (.push 0) small = .next t) ∧
    ({ small with inWr := 1 } : State).HopDue ∧ (0 : Word).extractLsb' 23 8 ≠ 0xFF ∧
    ∃ t, exec (.push 0) { small with inWr := 1 } = .next t :=
  ⟨⟨rfl, by unfold State.HopDue; decide, small_push_next 0⟩, by unfold State.HopDue; decide, by decide,
    ⟨_, exec_eq_after _ _⟩⟩

theorem witness_InputRingHoldsTheHistory :
    (1400 ≤ (withRate 1400).fs.toNat ∧ ∃ t, exec .init (withRate 1400) = .next t) ∧
    (small.ready = true ∧ (0x3F800000 : Word).extractLsb' 23 8 ≠ 0xFF ∧ small.MemoryOk ∧ small.inWr < small.bufLen ∧
      small.InputHolds [] ∧ ∃ t, exec (.push 0x3F800000) small = .next t) ∧
    ((∀ d, Instr.wrFs 0 ≠ .push d) ∧ Instr.wrFs 0 ≠ .init ∧ ∃ t, exec (.wrFs 0) small = .next t) :=
  ⟨⟨by decide, ⟨_, exec_eq_after _ _⟩⟩,
    ⟨rfl, by decide, rfl, by decide, small_empty_history, small_push_next _⟩, nofun, by decide, ⟨_, rfl⟩⟩

theorem witness_MixZeroGivesTheDelayedInput :
    small.par.arith = .exact ∧ small.mix.val = 0 ∧ small.ready = true ∧ (0x3F800000 : Word).extractLsb' 23 8 ≠ 0xFF ∧
    small.MemoryOk ∧ small.inWr < small.bufLen ∧ small.InputHolds [] ∧ ∃ t, exec (.push 0x3F800000) small = .next t :=
  ⟨rfl, real32_zero, rfl, by decide, rfl, by decide, small_empty_history, small_push_next _⟩

theorem witness_RingIndexIsTheFloorMod : 0 < 2048 := by decide

theorem witness_InputWrapCapturesTheGrain :
    small.inWr < small.bufLen ∧ Num.le small.par.arith Num.one small.phaseIn = false ∧
    Num.le .exact Num.one ({ small with phaseIn := Num.one } : State).phaseIn = true :=
  ⟨by decide, by decide +kernel, by decide +kernel⟩

theorem witness_PlacementAddsEveryPosition : small.par.arith = .exact ∧ small.MemoryOk := ⟨rfl, rfl⟩

theorem witness_GrainLengthIsTheFloor :
    (placing 4 (.rat 17)).par.arith = .exact ∧ (placing 4 (.rat 17)).ratio.Defined ∧
    0 < (placing 4 (.rat 17)).ratio.val ∧
    ((min (2 * (placing 4 (.rat 17)).fragSize.toNat) (placing 4 (.rat 17)).bufLen : Nat) : ℝ) <
      (placing 4 (.rat 17)).ratio.val := by
  have v : (placing 4 (.rat 17)).ratio.val = 17 := by norm_num [placing, Num.val]
  have : min (2 * (placing 4 (.rat 17)).fragSize.toNat) (placing 4 (.rat 17)).bufLen = 8 := by decide
  rw [v, this]
  exact ⟨rfl, trivial, by norm_num, by norm_num⟩

theorem witness_TaperAndGrainIndices :
    (placing 4 (.rat 2)).par.arith = .exact ∧ 0 < (placing 4 (.rat 2)).bufLen ∧
    (placing 4 (.rat 2)).bufLen % 2 = 0 ∧ (placing 4 (.rat 2)).ratio.Defined ∧
    (0 < (4 : Int) ∧ -((4 : Int) / 2) ≤ -2 ∧ (1 : Int) < 4 / 2) := ⟨rfl, by decide, by decide, trivial, by decide⟩

/-- A normalisation sum of 3/5, above one half, and the empty sum 0. -/
theorem witness_OutputIsTheMixOfWetAndDry :
    (small.par.arith = .exact ∧ (small.mem.nb.read small.outRd).Defined ∧ (small.mem.nb.read small.outRd).val ≤ 1 / 2) ∧
    (let s : State := { small with normEn := true, mem := { small.mem with nb := [(0, .rat (3 / 5))] } }
     s.par.arith = .exact ∧ (s.mem.nb.read s.outRd).Defined ∧ s.normEn = true ∧ 1 / 2 < (s.mem.nb.read s.outRd).val) := by
  refine ⟨⟨rfl, trivial, ?_⟩, rfl, trivial, rfl, ?_⟩
  · rw [show small.mem.nb.read small.outRd = Num.zero from rfl, Num.val_zero]; norm_num
  · show (1 : ℝ) / 2 < (Num.rat (3 / 5)).val
    norm_num [Num.val]

theorem witness_SilenceHasNoCandidate : small.par.arith = .exact ∧ ∀ i, small.mem.input.read i = .bits 0 :=
  ⟨rfl, fun _ => rfl⟩

theorem witness_SearchPicksTheFirstBestPeak : small.par.arith = .exact ∧ (Num.rat (1 / 3)).Defined ∧ Num.one.Defined :=
  ⟨rfl, trivial, trivial⟩

/-- Eight cells with two equal samples three apart under a flat window: S = 2, Z[0] = 3/2, Z[2] = Z[4] = -1/2 and
Z[3] = 1/2, so that lag 3 wins with rho = 1/3 (R700 to R707). -/
def pulses : State :=
  { small with
    mem := { small.mem with
      input := [(4, Num.one), (7, Num.one)]
      cbw := (List.range 8).map fun k => (k, Num.one)
      acwinv := (List.range 8).map fun k => (k, Num.one) } }

theorem test_R706_estimate_of_two_pulses : (estimate pulses).lag = 3 ∧ (estimate pulses).conf.asRat = some (1 / 3) := by
  decide +kernel

theorem witness_EstimateOfTheWinningLag :
    pulses.par.arith = .exact ∧ (∀ i, (pulses.mem.input.read i).Defined) ∧ (∀ i, (pulses.mem.cbw.read i).Defined) ∧
    3 < pulses.bufLen ∧
    searchLag pulses.par 0 (rhoAt .exact (autocorr .exact (windowed pulses))) pulses.mem.acwinv.read pulses.bufLen
      pulses.nmin.toNat pulses.nmax.toNat = some 3 ∧
    (0 : ℝ) < ((autocorr .exact (windowed pulses)).getD 0 Num.zero).val ∧
    ((autocorr .exact (windowed small)).getD 0 Num.zero).val ≤ 0 := by
  have bits (m : Store) (h : m.all (fun e => (Num.asRat e.2).isSome) = true) (i : Nat) : (m.read i).Defined := by
    induction m with
    | nil => trivial
    | cons e m ih =>
      rw [List.all_cons, Bool.and_eq_true] at h
      unfold Store.read
      split
      · obtain ⟨q, hq⟩ := Option.isSome_iff_exists.1 h.1
        exact Num.defined_of_asRat hq
      · exact ih h.2
  refine ⟨rfl, bits _ (by decide +kernel), bits _ (by decide +kernel), by decide, by decide +kernel, ?_, ?_⟩
  · have e : ((autocorr .exact (windowed pulses)).getD 0 Num.zero).asRat = some (3 / 2) := by decide +kernel
    rw [Num.val_of_asRat e]; norm_num
  · have e : ((autocorr .exact (windowed small)).getD 0 Num.zero).asRat = some 0 := by decide +kernel
    rw [Num.val_of_asRat e]; norm_num

/-- x = 0 and 0 = 12 - 12: at class 6 it lies on the edge of the floor. -/
theorem witness_WrappedDistanceIsTriangular :
    Num.zero.Defined ∧ (Num.rat 12).Defined ∧ (Num.rat 12).val = Num.zero.val + 12 * (1 : Int) := by
  refine ⟨trivial, trivial, ?_⟩
  norm_num [Num.val_zero, Num.val]

/-- d = -6, on the edge of the floor, and x = p = 12. -/
theorem witness_WrappedSignedIsTheShortestPath :
    (Num.rat (-6)).Defined ∧ (Num.rat 12).Defined ∧ 0 < (Num.rat 12).val ∧ (Num.rat 12).val ≠ 0 := by
  refine ⟨trivial, trivial, ?_, ?_⟩ <;> norm_num [Num.val]

/-- An irrational pitch. -/
theorem witness_QuantizePicksTheLastBestClass : (Num.log2Of (.rat 3)).Defined :=
  ⟨trivial, by norm_num [Num.val]⟩

theorem witness_PersistDecayCompounds :
    (small.par.arith = .exact ∧ small.persist.Defined ∧ small.persist.val ≤ 0) ∧
    (({ small with persist := .bits 0x3F800000 } : State).persist.Defined ∧
      0 < ({ small with persist := .bits 0x3F800000 } : State).persist.val) :=
  ⟨⟨rfl, trivial, Num.val_zero.le⟩, trivial, lt_of_lt_of_eq one_pos Num.val_one.symm⟩

theorem witness_GlideSnapsWithoutGlideTime :
    let s : State := { small with smooth := .powOf (.rat 11) (.rat (1 / 2)), qtarget := 1, wasVoiced := true }
    s.par.arith = .exact ∧ s.glide.Defined ∧ s.glide.val ≤ 0 ∧ s.smooth.Defined ∧ s.qtarget.toNat < 12 ∧
    s.wasVoiced = true :=
  ⟨rfl, trivial, Num.val_zero.le, ⟨trivial, trivial, by norm_num [Num.val]⟩, by decide, rfl⟩

theorem witness_RatioIsThePowerOfTwo :
    small.par.arith = .exact ∧ small.smooth.Defined ∧ small.estPitch.Defined := ⟨rfl, trivial, trivial⟩

/-- Numerals, pi, and an irrational root. -/
theorem witness_ExactDecisionsAreTrueOrFree :
    (Num.rat (1 / 3)).Defined ∧ (Num.piTimes 1).Defined ∧ (Num.powOf (.rat 2) (.rat (1 / 2))).Defined ∧ Irrational √2 :=
  ⟨trivial, trivial, ⟨trivial, trivial, by norm_num [Num.val]⟩, irrational_sqrt_two⟩

theorem witness_Enc32RoundsToNearestEven :
    |(1 / 3 : Rat)| < 2 ^ 128 - 2 ^ 103 ∧ isFinite32 0x3EAAAAAB = true := ⟨by norm_num, by decide⟩

theorem witness_Enc32InvertsDec32 :
    (isFinite32 0 = true ∧ (0 : Word) ≠ 0x80000000) ∧ (isFinite32 0xFF7FFFFF = true ∧ (0xFF7FFFFF : Word) ≠ 0x80000000) := by
  decide

theorem witness_F32OperationsRoundOnce :
    isFinite32 0x3F800000 = true ∧ isFinite32 0x40000000 = true ∧
    dec32 0x3F800000 + dec32 0x40000000 ≠ 0 ∧ dec32 0x3F800000 - dec32 0x40000000 ≠ 0 ∧
    dec32 0x3F800000 * dec32 0x40000000 ≠ 0 ∧ dec32 0x3F800000 ≠ 0 ∧ dec32 0x40000000 ≠ 0 := by decide +kernel

theorem witness_F32VoicingThresholdIsFourFifths : isFinite32 0x3F4CCCCD = true := by decide

theorem small_geometry_scale_operands :
    start.GeometryOk ∧ start.CellsOk ∧ start.ScaleOk ∧ start.OperandsOk ∧ start.OutputsEqual := by
  refine ⟨⟨rfl, fun _ => ⟨rfl, rfl, rfl, rfl, rfl⟩, nofun⟩, ?_, ⟨by decide, by decide, by decide⟩, ?_, rfl⟩
  · intro m hm
    simp only [State.arrays, start, State.reset, Memory.empty, List.mem_cons, List.not_mem_nil, or_false, or_self] at hm
    subst hm
    exact nofun
  · exact ⟨⟨0, rfl, rfl⟩, ⟨0, rfl, rfl⟩, ⟨0, rfl, rfl⟩, ⟨0, rfl, rfl⟩, ⟨0, rfl, rfl⟩, ⟨0, rfl, rfl⟩⟩

theorem start_format : start.FormatOk := by
  refine ⟨nofun, fun _ => ⟨?_, ?_, nofun⟩⟩
  · intro x hx
    simp only [State.numRegisters, start, State.reset, List.mem_cons, List.not_mem_nil, or_false, or_self] at hx
    subst hx
    trivial
  · intro m hm
    simp only [State.arrays, start, State.reset, Memory.empty, List.mem_cons, List.not_mem_nil, or_false, or_self] at hm
    subst hm
    exact nofun

/-- The step that the invariants' statements are about exists: INIT of a rate from a state that meets them all. -/
theorem witness_StepKeepsTheInvariants :
    let s : State := { start with port := [0x840000AC44] }
    s.MemoryOk ∧ s.GeometryOk ∧ s.CellsOk ∧ s.ScaleOk ∧ s.OperandsOk ∧ s.OutputsEqual ∧ s.FormatOk ∧
    step s = .next { start with fs := 44100 } :=
  ⟨rfl, small_geometry_scale_operands.1, small_geometry_scale_operands.2.1, small_geometry_scale_operands.2.2.1,
    small_geometry_scale_operands.2.2.2.1, rfl, start_format, rfl⟩

theorem witness_StepKeepsTheNumberFormat :
    (let s : State := { start with par := ⟨.f32, .raw, Vector.replicate 13 0⟩ }
     s.par.arith = .f32 ∧ s.FormatOk ∧ (s.par.arith = .exact → s.GeometryOk) ∧ ∃ t, step s = .next t) ∧
    start.FormatOk ∧ start.par.arith = .exact ∧ start.GeometryOk ∧ ∃ t, step start = .next t := by
  refine ⟨⟨rfl, ⟨fun _ => ⟨?_, ?_⟩, nofun⟩, nofun, _, rfl⟩, start_format, rfl, small_geometry_scale_operands.1, _, rfl⟩
  · intro x hx
    simp only [State.numRegisters, start, State.reset, List.mem_cons, List.not_mem_nil, or_false, or_self] at hx
    exact ⟨0, hx⟩
  · intro m hm
    simp only [State.arrays, start, State.reset, Memory.empty, List.mem_cons, List.not_mem_nil, or_false, or_self] at hm
    subst hm
    exact nofun

theorem witness_ModeAndVoicingChangeOnlyAsRuled :
    (∃ t, exec (.push 0) small = .next t) ∧ small.ready = true ∧
    exec .init (withRate 1400) = .next (initEngine (withRate 1400)) ∧ (withRate 1400).ready = false ∧
    (initEngine (withRate 1400)).ready = true ∧
    exec .init { withRate 1400 with wasVoiced := true } = .next (initEngine (withRate 1400)) :=
  ⟨small_push_next 0, rfl, exec_eq_after _ _, rfl, rfl, exec_eq_after _ _⟩

theorem witness_StateChangesOnlyByItsOwners :
    exec (.wrMix 0x3F800000) start = .next { start with mix := .bits 0x3F800000 } ∧
    Num.bits 0x3F800000 ≠ start.mix ∧ Instr.wrMix 0x3F800000 ≠ .init ∧ ∀ d, Instr.wrMix 0x3F800000 ≠ .push d :=
  ⟨rfl, by decide, by decide, nofun⟩

end Sys2Proof.Machine.Tests
end

section
/-! PROOFS. Under ARITH = exact the operations denote those of the reals (spec/00_scope.md R9). -/

namespace Sys2Proof.Num

/-! ### Sums -/

theorem val_addTerm (r : Rat) (u a : Num) : (addTerm r u a).val = a.val + r * u.val := by
  have gathered {t : Num} (e : t.coeff.2 = u) : (term (t.coeff.1 + r) u).val = t.val + r * u.val := by
    rw [val_term, val_coeff t, e, Rat.cast_add, add_mul]
  fun_induction addTerm r u a with
  | case1 s t e => rw [val_join, gathered e, val, add_assoc]
  | case2 s t _ ih => rw [val_join, ih, val, add_right_comm]
  | case3 a => rw [val_join, val_term, add_comm]
  | case4 a _ _ e => exact gathered e
  | case5 a => rw [val_join, val_term]

theorem val_addRat (p : Rat) (a : Num) : (addRat p a).val = a.val + p := by
  unfold addRat
  split
  · split
    · rename_i h
      rw [val_join, val_ofRatExact, val, val_of_asRat h, Rat.cast_add, add_assoc]
    · rw [val_join, val_ofRatExact]
  · split
    · rename_i h
      rw [val_ofRatExact, val_of_asRat h, Rat.cast_add]
    · rw [val_join, val_ofRatExact]

@[simp] theorem val_addExact (a b : Num) : (addExact a b).val = a.val + b.val := by
  fun_induction addExact a b with
  | case1 s t q h ih => rw [val_addRat, ih, val, val_of_asRat h, add_assoc]
  | case2 s t _ ih => rw [val_addTerm, ih, val, ← val_coeff, add_assoc]
  | case3 b _ q h => rw [val_addRat, val_of_asRat h]
  | case4 b => rw [val_addTerm, ← val_coeff]

@[simp] theorem val_sumExact (a b : Num) : (sumExact a b).val = a.val + b.val := by
  unfold sumExact
  split
  · rename_i ha hb
    rw [val_ofRatExact, val_of_asRat ha, val_of_asRat hb, Rat.cast_add]
  · exact val_join a b

@[simp] theorem val_subExact (a b : Num) : (subExact a b).val = a.val - b.val := by
  unfold subExact
  split
  · rename_i h
    rw [h, val_zero, sub_self]
  · rw [val_addExact, val_scale, Rat.cast_neg, Rat.cast_one, neg_one_mul, sub_eq_add_neg]

/-! ### Products and quotients -/

theorem val_mulPowers (v u : Num) : (mulPowers v u).val = v.val * u.val := by
  unfold mulPowers
  split
  · split
    · rename_i hb hx hy
      split
      · rename_i h
        obtain ⟨rfl, pos⟩ := h
        have base : 0 < val _ := (val_of_asRat hb).symm ▸ (Rat.cast_pos (K := ℝ)).2 pos
        simp only [val, val_ofRatExact]
        rw [val_of_asRat hx, val_of_asRat hy, Rat.cast_add, Real.rpow_add base]
      · rfl
    · rfl
  · rfl

theorem val_mulTerm (r : Rat) (u a : Num) : (mulTerm r u a).val = a.val * (r * u.val) := by
  fun_induction mulTerm r u a with
  | case1 s t ihs iht => rw [val_addExact, ihs, iht, val, add_mul]
  | case2 a _ q h => rw [val_term, val_of_asRat h, Rat.cast_mul, mul_assoc]
  | case3 a => rw [val_term, val_mulPowers, val_coeff a, Rat.cast_mul, mul_mul_mul_comm]

theorem val_mulTerms (a b : Num) : (mulTerms a b).val = a.val * b.val := by
  fun_induction mulTerms a b with
  | case1 s t ihs iht => rw [val_addExact, ihs, iht, val, mul_add]
  | case2 b _ q h => rw [val_scale, val_of_asRat h, mul_comm]
  | case3 b => rw [val_mulTerm, ← val_coeff]

@[simp] theorem val_mulExact (a b : Num) : (mulExact a b).val = a.val * b.val := by
  unfold mulExact
  split
  · rename_i ha hb
    rw [val_ofRatExact, val_of_asRat ha, val_of_asRat hb, Rat.cast_mul]
  · rename_i ha _
    rw [val_scale, val_of_asRat ha]
  · rename_i _ hb
    rw [val_scale, val_of_asRat hb, mul_comm]
  · split
    · exact val_mulTerms a b
    · split
      · rw [val_mulTerms, mul_comm]
      · rfl

@[simp] theorem val_divExact (a b : Num) : (divExact a b).val = a.val / b.val := by
  unfold divExact
  split
  · rename_i ha hb
    split
    · rfl
    · rw [val_ofRatExact, val_of_asRat ha, val_of_asRat hb, Rat.cast_div]
  · rename_i ha _
    split
    · rename_i h
      rw [val_zero, val_of_asRat ha, h, Rat.cast_zero, zero_div]
    · rfl
  · rename_i _ hb
    split
    · rfl
    · rw [val_scale, val_of_asRat hb, Rat.cast_div, Rat.cast_one, one_div_mul_eq_div]
  · rfl

/-! ### The cosine -/

theorem val_cosAcute (q : Rat) : (cosAcute q).val = Real.cos (q * Real.pi) := by
  unfold cosAcute
  split
  · rename_i h
    rw [val_one, h, Rat.cast_zero, zero_mul, Real.cos_zero]
  · split
    · rename_i h
      rw [val_ofRatExact, h, show ((1 / 3 : Rat) : ℝ) * Real.pi = Real.pi / 3 by push_cast; ring, Real.cos_pi_div_three]
      norm_num
    · split
      · rename_i h
        rw [val_zero, h, show ((1 / 2 : Rat) : ℝ) * Real.pi = Real.pi / 2 by push_cast; ring, Real.cos_pi_div_two]
      · rfl

theorem val_cosPi (q : Rat) : (cosPi q).val = Real.cos (q * Real.pi) := by
  unfold cosPi
  split
  · rw [val_scale, val_cosAcute, Rat.cast_sub, Rat.cast_one, sub_mul, one_mul, Real.cos_pi_sub]
    simp
  · exact val_cosAcute q

/-- The cosine of a multiple of pi, reduced by its period and its evenness. -/
theorem cos_reduced (q : Rat) (k : Int) :
    Real.cos (((if 1 < q - 2 * k then 2 - (q - 2 * k) else q - 2 * k : Rat) : ℝ) * Real.pi) = Real.cos (q * Real.pi) := by
  split
  · rw [← Real.cos_sub_int_mul_two_pi (q * Real.pi) (k + 1), ← Real.cos_neg]
    congr 1
    push_cast
    ring
  · rw [← Real.cos_sub_int_mul_two_pi (q * Real.pi) k]
    congr 1
    push_cast
    ring

@[simp] theorem val_cosExact (a : Num) : (cosExact a).val = Real.cos a.val := by
  unfold cosExact
  split
  · rw [val_cosPi, cos_reduced, val]
  · split
    · rename_i h
      rw [val_one, val_of_asRat h, Rat.cast_zero, Real.cos_zero]
    · rfl

/-! ### The logarithm and the powers -/

/-- The exponent of a power of two, and that it is one. -/
theorem two_zpow_of_exponentOf {q : Rat} {k : Int} (h : exponentOf q = some k) : (q : ℝ) = 2 ^ k := by
  unfold exponentOf at h
  split at h
  · rename_i c
    obtain ⟨num, den⟩ := c
    rw [← Option.some.inj h, Rat.cast_def, num, den]
    simp
  · split at h
    · rename_i c
      obtain ⟨num, den⟩ := c
      rw [← Option.some.inj h, Rat.cast_def, num, den]
      simp
    · cases h

@[simp] theorem val_log2Rat (q : Rat) : (log2Rat q).val = Real.logb 2 q := by
  unfold log2Rat
  split
  · rename_i h
    rw [val_ofRatExact, two_zpow_of_exponentOf h, ← Real.rpow_intCast, Real.logb_rpow two_pos (by norm_num),
      Rat.cast_intCast]
  · rw [val, val_ofRatExact]

@[simp] theorem val_log2Exact (a : Num) : (log2Exact a).val = Real.logb 2 a.val := by
  unfold log2Exact
  split
  · rename_i h
    rw [val_log2Rat, val_of_asRat h]
  · split
    · rename_i r x h
      split
      · rename_i pos
        have r0 : (r : ℝ) ≠ 0 := Rat.cast_ne_zero.2 pos.ne'
        rw [val_addExact, val_log2Rat, val_coeff a, h, val,
          Real.logb_mul r0 (Real.rpow_pos_of_pos two_pos _).ne', Real.logb_rpow two_pos (by norm_num), add_comm]
      · rfl
    · rfl

/-- The rational that EXP2 makes of a term is its power of two. -/
theorem val_of_exp2Term {a : Num} {r : Rat} (h : exp2Term a = some r) : (r : ℝ) = 2 ^ a.val := by
  unfold exp2Term at h
  split at h
  · rename_i q hq
    split at h
    · rename_i c
      have whole : (q : ℝ) = (q.num : ℝ) := by rw [Rat.cast_def, c.1, Nat.cast_one, div_one]
      rw [val_of_asRat hq, whole, Real.rpow_intCast, ← Option.some.inj h]
      push_cast
      rfl
    · cases h
  · split at h
    · rename_i k v hc
      split at h
      · rename_i b hv
        split at h
        · rename_i c
          obtain ⟨pos, den, -⟩ := c
          have whole : (k : ℝ) = (k.num : ℝ) := by rw [Rat.cast_def, den, Nat.cast_one, div_one]
          have b0 : (0 : ℝ) < b := Rat.cast_pos.2 pos
          rw [val_coeff a, hc, val, val_of_asRat hv, whole, mul_comm, Real.rpow_mul two_pos.le,
            Real.rpow_logb two_pos (by norm_num) b0, Real.rpow_intCast, ← Option.some.inj h, Rat.cast_zpow]
        · cases h
      · cases h
    · cases h

/-- The two factors that `exp2Split` makes of EXP2. -/
theorem val_exp2Split (a : Num) : ((exp2Split a).1 : ℝ) * 2 ^ (exp2Split a).2.val = 2 ^ a.val := by
  fun_induction exp2Split a with
  | case1 s t r h ih => rw [val, Real.rpow_add two_pos, ← ih, ← val_of_exp2Term h, Rat.cast_mul, mul_right_comm]
  | case2 s t _ ih => rw [val, val_join, Real.rpow_add two_pos, Real.rpow_add two_pos, ← ih, mul_assoc]
  | case3 a _ r h => rw [val_zero, Real.rpow_zero, mul_one, val_of_exp2Term h]
  | case4 a => rw [Rat.cast_one, one_mul]

@[simp] theorem val_exp2Exact (a : Num) : (exp2Exact a).val = 2 ^ a.val := by
  rw [← val_exp2Split a]
  unfold exp2Exact
  split
  · rename_i h
    rw [val_ofRatExact, h, val_zero, Real.rpow_zero, mul_one]
  · rw [val_term, val]

/-! ### The operations the rules write -/

@[simp] theorem val_add (a b : Num) : (add .exact a b).val = a.val + b.val := val_addExact a b
@[simp] theorem val_sub (a b : Num) : (sub .exact a b).val = a.val - b.val := val_subExact a b
@[simp] theorem val_mul (a b : Num) : (mul .exact a b).val = a.val * b.val := val_mulExact a b
@[simp] theorem val_div (a b : Num) : (div .exact a b).val = a.val / b.val := val_divExact a b
@[simp] theorem val_cos (a : Num) : (cos .exact a).val = Real.cos a.val := val_cosExact a
@[simp] theorem val_log2 (a : Num) : (log2 .exact a).val = Real.logb 2 a.val := val_log2Exact a
@[simp] theorem val_exp2 (a : Num) : (exp2 .exact a).val = 2 ^ a.val := val_exp2Exact a
@[simp] theorem val_pow (a b : Num) : (pow .exact a b).val = a.val ^ b.val := rfl
@[simp] theorem val_pi : (pi .exact).val = Real.pi := by rw [pi, val, Rat.cast_one, one_mul]
@[simp] theorem val_ofRat (q : Rat) : (ofRat .exact q).val = q := val_ofRatExact q
@[simp] theorem val_ofInt (k : Int) : (ofInt .exact k).val = k := by rw [ofInt, val_ofRat, Rat.cast_intCast]

end Sys2Proof.Num

open Sys2Proof in
/-- Settles O48: each operation by its own lemma above. -/
theorem exactArithmeticDenotesTheReals : Obligations.ExactArithmeticDenotesTheReals := fun a b =>
  ⟨Num.val_add a b, Num.val_sub a b, Num.val_mul a b, Num.val_div a b, Num.val_cos a, Num.val_log2 a, Num.val_exp2 a,
    Num.val_pow a b, Num.val_pi, Num.val_ofRat⟩
end


section
/-! PROOFS. Under ARITH = exact every decision, floor and encoding of reals that exist is that of the reals
(spec/00_scope.md R7, R9, R11, log 4). -/

namespace Sys2Proof.Num

/-- What `settle` answers has every property that `read` keeps on enclosures of the value, and that the last resort has. -/
theorem settle_getD {α : Type} {P : α → Prop} {read : Nat → Ival → Option α} {a : Num} {l : List Nat} {last : α}
    (sound : ∀ {H i x}, i.Holds H a.val → read H i = some x → P x) (rest : P last) :
    P ((settle read a l).getD last) := by
  cases h : settle read a l with
  | none => exact rest
  | some x =>
    obtain ⟨H, i, -, holds, reads⟩ := settle_read h
    exact sound holds reads

theorem ltExact_iff {a b : Num} (ha : a.Defined) (hb : b.Defined) : ltExact a b = true ↔ a.val < b.val := by
  unfold ltExact
  split
  · rename_i p q hp hq
    rw [decide_eq_true_eq, val_of_asRat hp, val_of_asRat hq, Rat.cast_lt]
  · refine settle_getD (P := fun r => r = true ↔ a.val < b.val) ?_ ((Config.orderOf a b).2 ha hb)
    intro H i x holds reads
    rw [readNegative_sound holds reads, val_subExact, sub_neg]

theorem not_ltExact_iff {a b : Num} (ha : a.Defined) (hb : b.Defined) : (!ltExact b a) = true ↔ a.val ≤ b.val := by
  rw [Bool.not_eq_true', ← Bool.not_eq_true, ltExact_iff hb ha, not_lt]

theorem floorExact_eq {a : Num} (ha : a.Defined) : floorExact a = ⌊a.val⌋ := by
  unfold floorExact
  split
  · rename_i q h
    rw [val_of_asRat h, Rat.floor_cast]
    rfl
  · exact settle_getD (P := fun n => n = ⌊a.val⌋) readFloor_sound ((Config.floorOf a).2 ha)

theorem enc32Exact_eq {a : Num} (ha : a.Defined) : enc32Exact a = encReal a.val := by
  unfold enc32Exact
  split
  · rename_i q h
    rw [val_of_asRat h, encReal_ratCast]
  · exact settle_getD (P := fun w => w = encReal a.val) readEnc_sound ((Config.patternOf a).2 ha)

end Sys2Proof.Num

namespace Sys2Proof

/-- Strictly inside one unit every magnitude has the same pattern. -/
theorem magnitudeReal_inside {n : Nat} {u : ℝ} (lo : n < u) (hi : u < n + 1) : magnitudeReal u = roundUnits n true := by
  have fl : ⌊u⌋₊ = n := (Nat.floor_eq_iff (n.cast_nonneg.trans lo.le)).2 ⟨lo.le, hi⟩
  unfold magnitudeReal
  rw [fl, decide_eq_true lo.ne]

/-- Between two neighbouring units of one sign every real has the same pattern. -/
theorem encReal_inside {n : Nat} {neg : Bool} {x : ℝ} (sign : x < 0 ↔ neg = true) (lo : n < |x| * 2 ^ 150)
    (hi : |x| * 2 ^ 150 < n + 1) : encReal x = withSign neg (BitVec.ofNat 32 (roundUnits n true)) := by
  rw [encReal_eq, magnitudeReal_inside lo hi]
  congr 1
  rw [Bool.eq_iff_iff, decide_eq_true_eq, sign]

/-- Around an irrational real lies an open interval of reals with its pattern. -/
theorem encReal_locally_constant {x : ℝ} (h : Irrational x) :
    ∃ a b : ℝ, a < x ∧ x < b ∧ ∀ y, a < y → y < b → encReal y = encReal x := by
  have two : (0 : ℝ) < 2 ^ 150 := by positivity
  have lo : (⌊|x| * 2 ^ 150⌋₊ : ℝ) < |x| * 2 ^ 150 := by
    refine (Nat.floor_le (by positivity)).lt_of_ne fun e => ?_
    have irr : Irrational (|x| * 2 ^ 150) := by
      rcases abs_choice x with c | c <;> rw [c]
      · exact_mod_cast h.mul_natCast (m := 2 ^ 150) (by positivity)
      · exact_mod_cast h.neg.mul_natCast (m := 2 ^ 150) (by positivity)
    exact irr.ne_nat _ e.symm
  have hi := Nat.lt_floor_add_one (|x| * 2 ^ 150)
  generalize ⌊|x| * 2 ^ 150⌋₊ = n at lo hi
  have n0 : (0 : ℝ) ≤ n := n.cast_nonneg
  rcases lt_or_gt_of_ne h.ne_zero with neg | pos
  · have pattern {y : ℝ} (hy : y < 0) := encReal_inside (n := n) (neg := true) (x := y) (by simp [hy])
    rw [pattern neg lo hi]
    rw [abs_of_neg neg] at lo hi
    refine ⟨-((n + 1) / 2 ^ 150), -(n / 2 ^ 150), ?_, ?_, fun y hl hr => ?_⟩
    · rw [neg_lt, lt_div_iff₀ two]; exact hi
    · rw [lt_neg, div_lt_iff₀ two]; exact lo
    · rw [neg_lt, lt_div_iff₀ two] at hl
      rw [lt_neg, div_lt_iff₀ two] at hr
      have hy : y < 0 := by
        have := pos_of_mul_pos_left (n0.trans_lt hr) two.le
        linarith
      exact pattern hy (by rwa [abs_of_neg hy]) (by rwa [abs_of_neg hy])
  · have pattern {y : ℝ} (hy : 0 < y) := encReal_inside (n := n) (neg := false) (x := y) (by simp [hy.le])
    rw [pattern pos lo hi]
    rw [abs_of_pos pos] at lo hi
    refine ⟨n / 2 ^ 150, (n + 1) / 2 ^ 150, ?_, ?_, fun y hl hr => ?_⟩
    · rw [div_lt_iff₀ two]; exact lo
    · rw [lt_div_iff₀ two]; exact hi
    · rw [div_lt_iff₀ two] at hl
      rw [lt_div_iff₀ two] at hr
      have hy : 0 < y := pos_of_mul_pos_left (n0.trans_lt hl) two.le
      exact pattern hy (by rwa [abs_of_pos hy]) (by rwa [abs_of_pos hy])

theorem encReal_of_irrational {x : ℝ} (h : Irrational x) :
    ∃ p q : Rat, (p : ℝ) < x ∧ x < q ∧ encRat p = encReal x ∧ encRat q = encReal x := by
  obtain ⟨a, b, ha, hb, same⟩ := encReal_locally_constant h
  obtain ⟨p, hap, hpx⟩ := exists_rat_btwn ha
  obtain ⟨q, hxq, hqb⟩ := exists_rat_btwn hb
  refine ⟨p, q, hpx, hxq, ?_, ?_⟩
  · rw [← encReal_ratCast, same p hap (hpx.trans hb)]
  · rw [← encReal_ratCast, same q (ha.trans hxq) hqb]

end Sys2Proof

open Sys2Proof in
/-- Settles O49: an enclosure that decides is sound, and the last resort has the reals' answer in its type. -/
theorem exactDecisionsAreTrueOrFree : Obligations.ExactDecisionsAreTrueOrFree := by
  refine ⟨fun site a b ha hb => ?_, encReal_ratCast, fun x => encReal_of_irrational, fun w => rfl⟩
  have lt := Num.ltExact_iff ha hb
  have le := Num.not_ltExact_iff ha hb
  have fl := Num.floorExact_eq ha
  refine ⟨lt, le, lt, le, fl, ?_, Num.enc32Exact_eq ha⟩
  rw [Num.decideFloor, Num.val_ofRatExact, fl, Rat.cast_intCast]
end

section
/-! PROOFS. What one transaction can do: INIT, an accepted PUSH, or a host transaction that leaves the engine as it was
(spec/40_ring_buffers.md R509, spec/60_exceptions.md R1301); and how an invariant of the transactions is one of the step. -/

namespace Sys2Proof.Machine

/-- The six parameter registers, which the host writes (R42 to R47). -/
def State.paramRegisters (s : State) : List Num := [s.mix, s.shift, s.tune, s.amount, s.glide, s.persist]

/-- The `Num` registers that the engine owns (R51 to R56). -/
def State.engineRegisters (s : State) : List Num :=
  [s.outL, s.outR, s.estPeriod, s.estPitch, s.estConf, s.smooth, s.persistAmt, s.correction, s.ratio, s.periodNom,
    s.phaseInc, s.phaseIn, s.phaseOut]

theorem State.numRegisters_eq (s : State) : s.numRegisters = s.paramRegisters ++ s.engineRegisters := rfl

/-- `t` is `s` after a transaction that leaves the configuration and the engine alone: a parameter register is as it was or
takes an operand (R509, R1205). -/
structure State.HostStep (s t : State) : Prop where
  par : t.par = s.par
  ready : t.ready = s.ready
  fsAct : t.fsAct = s.fsAct
  nsize : t.nsize = s.nsize
  hopsize : t.hopsize = s.hopsize
  nmin : t.nmin = s.nmin
  nmax : t.nmax = s.nmax
  inWr : t.inWr = s.inWr
  outRd : t.outRd = s.outRd
  mem : t.mem = s.mem
  ratio : t.ratio = s.ratio
  engine : t.engineRegisters = s.engineRegisters
  params : ∀ x ∈ t.paramRegisters, x ∈ s.paramRegisters ∨ Num.IsOperand x

theorem State.HostStep.raiseError (b : ErrBit) (s : State) : s.HostStep (raiseError b s) :=
  ⟨rfl, rfl, rfl, rfl, rfl, rfl, rfl, rfl, rfl, rfl, rfl, rfl, fun _ => .inl⟩

theorem State.HostStep.rd (a : Addr) (d : Word) (s : State) : s.HostStep (after s (.rd a d)) := by
  simp only [after]
  split <;> exact ⟨rfl, rfl, rfl, rfl, rfl, rfl, rfl, rfl, rfl, rfl, rfl, rfl, fun _ => .inl⟩

/-- A write of an f32 register is a host step if storing an operand is. -/
theorem State.HostStep.writeF32 {d : Word} {s : State} {store : Num → State → State}
    (stored : Num.IsOperand (.bits d) → s.HostStep (store (.bits d) s)) : s.HostStep (writeF32 d store s) := by
  rcases writeF32_cases d store s with ⟨finite, e⟩ | ⟨-, e⟩ <;> rw [e]
  · exact stored ⟨d, finite, rfl⟩
  · exact .raiseError .val s

/-- A write of an enumerated register is a host step if storing a legal value is. -/
theorem State.HostStep.writeEnum {top : Nat} {d : Word} {s : State} {store : BitVec 4 → State → State}
    (stored : ∀ v, s.HostStep (store v s)) : s.HostStep (writeEnum top d store s) := by
  rcases writeEnum_cases top d store s with ⟨-, e⟩ | ⟨-, e⟩ <;> rw [e]
  · exact stored _
  · exact .raiseError .val s

/-- A transaction is a successful INIT, an accepted PUSH, or leaves the configuration and the engine alone. -/
theorem after_cases (s : State) (i : Instr) :
    (1400 ≤ s.fs.toNat ∧ after s i = initEngine s) ∨
    (∃ d, s.ready = true ∧ isFinite32 d = true ∧ after s i = acceptSample (.bits d) s) ∨
    s.HostStep (after s i) := by
  cases i with
  | init =>
    rcases Nat.lt_or_ge s.fs.toNat 1400 with low | high
    · exact .inr (.inr (by rw [after, if_pos low]; exact .raiseError .cfg s))
    · exact .inl ⟨high, if_neg high.not_gt⟩
  | push d =>
    rcases pushSample_cases d s with ⟨-, e⟩ | ⟨-, -, e⟩ | ⟨ready, finite, e⟩
    · exact .inr (.inr (by rw [after, e]; exact .raiseError .nrdy s))
    · exact .inr (.inr (by rw [after, e]; exact .raiseError .val s))
    · exact .inr (.inl ⟨d, ready, finite, e⟩)
  | rd a d => exact .inr (.inr (.rd a d s))
  | cmdRsvd | wrBad => exact .inr (.inr (.raiseError _ s))
  | wrCtrl | wrErr | wrFs =>
    exact .inr (.inr ⟨rfl, rfl, rfl, rfl, rfl, rfl, rfl, rfl, rfl, rfl, rfl, rfl, fun _ => .inl⟩)
  | wrRoot | wrScale =>
    simp only [after]
    exact .inr (.inr (.writeEnum fun _ =>
      ⟨rfl, rfl, rfl, rfl, rfl, rfl, rfl, rfl, rfl, rfl, rfl, rfl, fun _ => .inl⟩))
  | wrMix | wrShift | wrTune | wrAmount | wrGlide | wrPersist =>
    simp only [after]
    refine .inr (.inr (.writeF32 fun operand =>
      ⟨rfl, rfl, rfl, rfl, rfl, rfl, rfl, rfl, rfl, rfl, rfl, rfl, ?_⟩))
    simp [State.paramRegisters, operand]

/-- What every transaction keeps, and taking one from the port does not touch, every step keeps. -/
theorem step_keeps {P : State → Prop} (taken : ∀ s rest, P s → P { s with port := rest, readData := none })
    (kept : ∀ s i, P s → P (after s i)) {s t : State} (h : P s) (e : step s = .next t) : P t := by
  rcases step_cases s with ⟨-, idle⟩ | ⟨_, _, -, -, idle⟩ | ⟨_, rest, i, -, -, run⟩
  · exact Host.Outcome.next.inj (idle.symm.trans e) ▸ h
  · exact Host.Outcome.next.inj (idle.symm.trans e) ▸ h
  · rw [run, exec_eq_after] at e
    exact Host.Outcome.next.inj e ▸ kept _ i (taken s rest h)

end Sys2Proof.Machine
end

section
/-! PROOFS. Every step keeps the sizes, lag bounds, cursors and cells of the last INIT (spec/10_state.md R20, R39, R50,
spec/40_ring_buffers.md R507). -/

namespace Sys2Proof.Machine

/-! ### What an accepted PUSH leaves of the configuration -/

section
variable (x : Num) (s : State)

@[simp] theorem acceptSample_par : (acceptSample x s).par = s.par := by simp [acceptSample]
@[simp] theorem acceptSample_ready : (acceptSample x s).ready = s.ready := by simp [acceptSample]
@[simp] theorem acceptSample_fsAct : (acceptSample x s).fsAct = s.fsAct := by simp [acceptSample]
@[simp] theorem acceptSample_nsize : (acceptSample x s).nsize = s.nsize := by simp [acceptSample]
@[simp] theorem acceptSample_hopsize : (acceptSample x s).hopsize = s.hopsize := by simp [acceptSample]
@[simp] theorem acceptSample_nmin : (acceptSample x s).nmin = s.nmin := by simp [acceptSample]
@[simp] theorem acceptSample_nmax : (acceptSample x s).nmax = s.nmax := by simp [acceptSample]

/-- PUSH moves the input cursor on by one cell (R501). -/
@[simp] theorem acceptSample_inWr : (acceptSample x s).inWr = (s.inWr + 1) % s.bufLen := by simp [acceptSample]

/-- PUSH moves the output cursor on by one cell (R506). -/
@[simp] theorem acceptSample_outRd : (acceptSample x s).outRd = (s.outRd + 1) % s.bufLen := by
  simp [acceptSample, State.bufLen]

end

/-! ### The sizes that INIT sets -/

theorem bufLenFor_cases (fs : Word) : bufLenFor fs = 2048 ∨ bufLenFor fs = 4096 := by
  unfold bufLenFor
  split
  · exact .inr rfl
  · exact .inl rfl

theorem initEngine_bufLen (s : State) : (initEngine s).bufLen = bufLenFor s.fs := by
  show (BitVec.ofNat 32 (bufLenFor s.fs)).toNat = _
  rcases bufLenFor_cases s.fs with e | e <;> rw [e] <;> rfl

theorem initEngine_geometryOk {s : State} (h : 1400 ≤ s.fs.toNat) : (initEngine s).GeometryOk := by
  have size := bufLenFor_cases s.fs
  have rate := s.fs.isLt
  refine ⟨rfl, nofun, fun _ => ⟨h, initEngine_bufLen s, ?_, ?_, ?_, ?_⟩⟩
  · rw [initEngine_bufLen]
    show (BitVec.ofNat 32 (bufLenFor s.fs / 4)).toNat = _
    rw [BitVec.toNat_ofNat, Nat.mod_eq_of_lt (by omega)]
  · show (BitVec.ofNat 32 (nminFor s.fs)).toNat = nminFor s.fs
    rw [BitVec.toNat_ofNat, Nat.mod_eq_of_lt (by unfold nminFor; omega)]
  · show (BitVec.ofNat 32 (nmaxFor s.fs)).toNat = nmaxFor s.fs
    rw [BitVec.toNat_ofNat, Nat.mod_eq_of_lt (by unfold nmaxFor; omega)]
  · rw [initEngine_bufLen]
    show 0 < bufLenFor s.fs
    omega

/-! ### The geometry of a state in READY -/

theorem State.GeometryOk.inWr_lt {s : State} (h : s.GeometryOk) (ready : s.ready = true) : s.inWr < s.bufLen :=
  (h.2.2 ready).2.2.2.2.2

theorem State.GeometryOk.outRd_lt {s : State} (h : s.GeometryOk) (ready : s.ready = true) : s.outRd < s.bufLen :=
  h.1 ▸ h.inWr_lt ready

theorem State.GeometryOk.fsAct_ge {s : State} (h : s.GeometryOk) (ready : s.ready = true) : 1400 ≤ s.fsAct.toNat :=
  (h.2.2 ready).1

theorem State.GeometryOk.nmin_pos {s : State} (h : s.GeometryOk) (ready : s.ready = true) : 0 < s.nmin.toNat := by
  obtain ⟨rate, -, -, nmin, -, -⟩ := h.2.2 ready
  rw [nmin, nminFor]
  omega

theorem acceptSample_geometryOk (x : Num) {s : State} (ready : s.ready = true) (h : s.GeometryOk) :
    (acceptSample x s).GeometryOk := by
  obtain ⟨cursors, -, sized⟩ := h
  obtain ⟨rate, size, hop, nmin, nmax, inWr⟩ := sized ready
  unfold State.GeometryOk State.hopLen
  rw [State.bufLen] at size hop inWr
  simp only [acceptSample_inWr, acceptSample_outRd, acceptSample_ready, acceptSample_nsize, acceptSample_hopsize,
    acceptSample_nmin, acceptSample_nmax, acceptSample_fsAct, State.bufLen, ready, cursors]
  exact ⟨trivial, nofun, fun _ => ⟨rate, size, hop, nmin, nmax, Nat.mod_lt _ (by omega)⟩⟩

theorem State.HostStep.geometryOk {s t : State} (step : s.HostStep t) (h : s.GeometryOk) : t.GeometryOk := by
  unfold State.GeometryOk State.hopLen State.bufLen
  rw [step.ready, step.fsAct, step.nsize, step.hopsize, step.nmin, step.nmax, step.inWr, step.outRd]
  exact h

theorem after_geometryOk (i : Instr) {s : State} (h : s.GeometryOk) : (after s i).GeometryOk := by
  rcases after_cases s i with ⟨rate, e⟩ | ⟨d, ready, -, e⟩ | step
  · exact e ▸ initEngine_geometryOk rate
  · exact e ▸ acceptSample_geometryOk _ ready h
  · exact step.geometryOk h

/-! ### The cells of the arrays -/

theorem State.cellsOk_iff (s : State) : s.CellsOk ↔
    s.mem.input.Within s.bufLen ∧ s.mem.ob.Within s.bufLen ∧ s.mem.nb.Within s.bufLen ∧ s.mem.frag.Within s.bufLen ∧
      s.mem.hann.Within s.bufLen ∧ s.mem.cbw.Within s.bufLen ∧ s.mem.acwinv.Within s.bufLen := by
  simp [State.CellsOk, State.arrays]

/-- The cells are a matter of the memory and NSIZE alone. -/
theorem State.CellsOk.congr {s t : State} (h : s.CellsOk) (mem : t.mem = s.mem) (size : t.nsize = s.nsize) : t.CellsOk := by
  unfold State.CellsOk State.arrays State.bufLen
  rw [mem, size]
  exact h

theorem Store.within_nil (n : Nat) : Store.Within n [] := nofun

theorem initEngine_cellsOk (s : State) : (initEngine s).CellsOk := by
  rw [State.cellsOk_iff, initEngine_bufLen]
  have nil := Store.within_nil (bufLenFor s.fs)
  exact ⟨nil, nil, nil, nil, Store.within_ofFn _ _, Store.within_fromList (by simp [cbwList]), Store.within_ofFn _ _⟩

theorem takeSample_cellsOk (x : Num) {s : State} (inWr : s.inWr < s.bufLen) (h : s.CellsOk) :
    (takeSample x s).CellsOk := by
  rw [State.cellsOk_iff] at h ⊢
  exact ⟨Store.within_write h.1 inWr, h.2⟩

theorem inputWrap_cellsOk {s : State} (h : s.CellsOk) : (inputWrap s).CellsOk := by
  unfold inputWrap
  split
  · rw [State.cellsOk_iff] at h ⊢
    obtain ⟨input, ob, nb, -, windows⟩ := h
    exact ⟨input, ob, nb, Store.within_ofFn _ _, windows⟩
  · exact h

theorem placeSample_cellsOk (n t : Int) {s : State} (pos : 0 < s.bufLen) (h : s.CellsOk) : (placeSample n s t).CellsOk := by
  rw [State.cellsOk_iff] at h ⊢
  obtain ⟨input, ob, nb, rest⟩ := h
  exact ⟨input, Store.within_write ob (fmod_lt _ pos), Store.within_write nb (fmod_lt _ pos), rest⟩

theorem placeAll_cellsOk (n : Int) (l : List Int) {s : State} (pos : 0 < s.bufLen) (h : s.CellsOk) :
    (l.foldl (placeSample n) s).CellsOk := by
  induction l generalizing s with
  | nil => exact h
  | cons t l ih => exact ih pos (placeSample_cellsOk n t pos h)

theorem outputWrap_cellsOk {s : State} (pos : 0 < s.bufLen) (h : s.CellsOk) : (outputWrap s).CellsOk := by
  unfold outputWrap
  split
  · exact placeAll_cellsOk _ _ pos h
  · exact h

theorem readBackAndMix_cellsOk {s : State} (outRd : s.outRd < s.bufLen) (h : s.CellsOk) : (readBackAndMix s).CellsOk := by
  rw [State.cellsOk_iff] at h ⊢
  obtain ⟨input, ob, nb, rest⟩ := h
  exact ⟨input, Store.within_write ob outRd, Store.within_write nb outRd, rest⟩

theorem acceptSample_cellsOk (x : Num) {s : State} (inWr : s.inWr < s.bufLen) (outRd : s.outRd < s.bufLen)
    (h : s.CellsOk) : (acceptSample x s).CellsOk := by
  have hopped : (advancePhases (hopIfDue (takeSample x s))).CellsOk :=
    (takeSample_cellsOk x inWr h).congr (by simp) (by simp)
  refine readBackAndMix_cellsOk ?_ (outputWrap_cellsOk ?_ (inputWrap_cellsOk hopped))
  · simpa [State.bufLen] using outRd
  · simpa [State.bufLen] using (Nat.zero_le _).trans_lt inWr

theorem after_cellsOk (i : Instr) {s : State} (geometry : s.GeometryOk) (h : s.CellsOk) : (after s i).CellsOk := by
  rcases after_cases s i with ⟨-, e⟩ | ⟨d, ready, -, e⟩ | step
  · exact e ▸ initEngine_cellsOk s
  · exact e ▸ acceptSample_cellsOk _ (geometry.inWr_lt ready) (geometry.outRd_lt ready) h
  · exact h.congr step.mem step.nsize

end Sys2Proof.Machine

open Sys2Proof Sys2Proof.Machine in
/-- Settles O55: INIT sets the sizes, PUSH moves both cursors by one cell and writes inside the rings, and no other
transaction touches them. -/
theorem stepKeepsTheGeometry : Obligations.StepKeepsTheGeometry := fun _ _ geometry cells _ =>
  step_keeps (P := fun s => s.GeometryOk ∧ s.CellsOk) (fun _ _ h => h)
    (fun _ i h => ⟨after_geometryOk i h.1, after_cellsOk i h.1 h.2⟩) ⟨geometry, cells⟩
end

section
/-! PROOFS. The format of a value (spec/00_scope.md R9, R12): a binary32 value under f32, a real that exists under exact.
Every operation of the numeric domain keeps it. -/

namespace Sys2Proof.Machine

/-- The value has the format of the ARITH `ar`. -/
def Num.Fits : Arith → Num → Prop
  | .f32, x => Num.IsBits x
  | .exact, x => x.Defined

namespace Num

variable {ar : Arith} {a b : Num}

theorem fits_bits (ar : Arith) (w : Word) : Fits ar (.bits w) := by
  cases ar
  · trivial
  · exact ⟨w, rfl⟩

theorem fits_zero (ar : Arith) : Fits ar Num.zero := fits_bits ar 0

theorem fits_one (ar : Arith) : Fits ar Num.one := fits_bits ar 0x3F800000

theorem IsOperand.fits {x : Num} (h : IsOperand x) (ar : Arith) : Fits ar x := by
  obtain ⟨w, -, rfl⟩ := h
  exact fits_bits ar w

theorem fits_ofRat (ar : Arith) (q : Rat) : Fits ar (Num.ofRat ar q) := by
  cases ar
  · exact Num.defined_ofRatExact q
  · exact ⟨_, rfl⟩

theorem fits_ofInt (ar : Arith) (k : Int) : Fits ar (Num.ofInt ar k) := fits_ofRat ar k

theorem fits_pi (ar : Arith) : Fits ar (Num.pi ar) := by
  cases ar
  · trivial
  · exact ⟨_, rfl⟩

theorem fits_add (ha : Fits ar a) (hb : Fits ar b) : Fits ar (Num.add ar a b) := by
  cases ar
  · exact Num.defined_addExact ha hb
  · exact ⟨_, rfl⟩

theorem fits_sub (ha : Fits ar a) (hb : Fits ar b) : Fits ar (Num.sub ar a b) := by
  cases ar
  · exact Num.defined_subExact ha hb
  · exact ⟨_, rfl⟩

theorem fits_mul (ha : Fits ar a) (hb : Fits ar b) : Fits ar (Num.mul ar a b) := by
  cases ar
  · exact Num.defined_mulExact ha hb
  · exact ⟨_, rfl⟩

theorem fits_div (ha : Fits ar a) (hb : Fits ar b) (h : ar = .exact → b.val ≠ 0) : Fits ar (Num.div ar a b) := by
  cases ar
  · exact Num.defined_divExact ha hb (h rfl)
  · exact ⟨_, rfl⟩

/-- Division by a whole constant that is not 0. -/
theorem fits_div_ofInt (ha : Fits ar a) {k : Int} (h : k ≠ 0) : Fits ar (Num.div ar a (Num.ofInt ar k)) := by
  refine fits_div ha (fits_ofInt ar k) ?_
  rintro rfl
  rw [Num.val_ofInt]
  exact Int.cast_ne_zero.2 h

theorem fits_cos (ha : Fits ar a) : Fits ar (Num.cos ar a) := by
  cases ar
  · exact Num.defined_cosExact ha
  · exact ⟨_, rfl⟩

theorem fits_log2 (ha : Fits ar a) (h : ar = .exact → 0 < a.val) : Fits ar (Num.log2 ar a) := by
  cases ar
  · exact Num.defined_log2Exact ha (h rfl)
  · exact ⟨_, rfl⟩

theorem fits_exp2 (ha : Fits ar a) : Fits ar (Num.exp2 ar a) := by
  cases ar
  · exact Num.defined_exp2Exact ha
  · exact ⟨_, rfl⟩

theorem fits_pow (ha : Fits ar a) (hb : Fits ar b) (h : ar = .exact → 0 < a.val) : Fits ar (Num.pow ar a b) := by
  cases ar
  · exact ⟨ha, hb, h rfl⟩
  · exact ⟨_, rfl⟩

theorem fits_decideFloor (ar : Arith) (site : Site) (a : Num) : Fits ar (Num.decideFloor ar site a) := by
  cases ar
  · exact Num.defined_ofRatExact _
  · unfold Num.decideFloor
    dsimp only
    split <;> exact ⟨_, rfl⟩

theorem fits_total {l : List Num} (h : ∀ x ∈ l, Fits ar x) : Fits ar (Num.total ar l) := by
  cases ar
  · exact Num.defined_total h
  · exact List.foldlRecOn l _ (motive := Fits .f32) (fits_zero .f32) fun _ _ _ _ => ⟨_, rfl⟩

theorem fits_getD {l : List Num} (h : ∀ x ∈ l, Fits ar x) (k : Nat) : Fits ar (l.getD k Num.zero) := by
  rw [List.getD_eq_getElem?_getD]
  cases e : l[k]? with
  | none => exact fits_zero ar
  | some x => exact h x (List.mem_of_getElem? e)

theorem fits_wrapTo (site : Site) {x p : Num} (hx : Fits ar x) (hp : Fits ar p) : Fits ar (wrapTo ar site x p) :=
  fits_sub hx (fits_mul hp (fits_decideFloor ..))

theorem fits_wrappedSigned (site : Site) {d : Num} (hd : Fits ar d) : Fits ar (wrappedSigned ar site d) :=
  fits_sub hd (fits_mul (fits_ofInt ar 12) (fits_decideFloor ..))

end Num

/-! ### Arrays -/

/-- Every value of the array has the format of `ar`. -/
def Store.Fits (ar : Arith) (m : Store) : Prop := ∀ e ∈ m, Num.Fits ar e.2

namespace Store

variable {ar : Arith}

theorem fits_nil (ar : Arith) : Fits ar [] := nofun

theorem Fits.write {m : Store} (h : Fits ar m) {i : Nat} {v : Num} (hv : Num.Fits ar v) : Fits ar (m.write i v) :=
  fun e he => (Store.mem_write he).elim (h e) fun eq => eq ▸ hv

theorem fits_fromList {l : List Num} {i : Nat} (h : ∀ v ∈ l, Num.Fits ar v) : Fits ar (Store.fromList i l) :=
  fun _ he => h _ (Store.mem_fromList he).2.2

theorem fits_ofFn {n : Nat} {f : Nat → Num} (h : ∀ i, Num.Fits ar (f i)) : Fits ar (Store.ofFn n f) :=
  fits_fromList (by simp [h])

theorem Fits.read {m : Store} (h : Fits ar m) (i : Nat) : Num.Fits ar (m.read i) := by
  induction m with
  | nil => exact Num.fits_zero ar
  | cons e rest ih =>
    obtain ⟨k, v⟩ := e
    rw [Store.read]
    split
    · exact h (k, v) (List.mem_cons_self ..)
    · exact ih fun e he => h e (List.mem_cons_of_mem _ he)

theorem Fits.ringRead {m : Store} (h : Fits ar m) (n : Nat) (k : Int) : Num.Fits ar (ringRead m n k) := h.read _

end Store

/-! ### The state -/

/-- Every `Num` register and every array of the state has the format of its ARITH. -/
structure State.Fits (s : State) : Prop where
  mix : Num.Fits s.par.arith s.mix
  shift : Num.Fits s.par.arith s.shift
  tune : Num.Fits s.par.arith s.tune
  amount : Num.Fits s.par.arith s.amount
  glide : Num.Fits s.par.arith s.glide
  persist : Num.Fits s.par.arith s.persist
  outL : Num.Fits s.par.arith s.outL
  outR : Num.Fits s.par.arith s.outR
  estPeriod : Num.Fits s.par.arith s.estPeriod
  estPitch : Num.Fits s.par.arith s.estPitch
  estConf : Num.Fits s.par.arith s.estConf
  smooth : Num.Fits s.par.arith s.smooth
  persistAmt : Num.Fits s.par.arith s.persistAmt
  correction : Num.Fits s.par.arith s.correction
  ratio : Num.Fits s.par.arith s.ratio
  periodNom : Num.Fits s.par.arith s.periodNom
  phaseInc : Num.Fits s.par.arith s.phaseInc
  phaseIn : Num.Fits s.par.arith s.phaseIn
  phaseOut : Num.Fits s.par.arith s.phaseOut
  input : Store.Fits s.par.arith s.mem.input
  ob : Store.Fits s.par.arith s.mem.ob
  nb : Store.Fits s.par.arith s.mem.nb
  frag : Store.Fits s.par.arith s.mem.frag
  hann : Store.Fits s.par.arith s.mem.hann
  cbw : Store.Fits s.par.arith s.mem.cbw
  acwinv : Store.Fits s.par.arith s.mem.acwinv

theorem State.fits_iff (s : State) : s.Fits ↔
    (∀ x ∈ s.numRegisters, Num.Fits s.par.arith x) ∧ ∀ m ∈ s.arrays, Store.Fits s.par.arith m := by
  simp only [State.numRegisters, State.arrays, List.forall_mem_cons, List.not_mem_nil, false_imp_iff, implies_true,
    and_true]
  constructor
  · intro h
    exact ⟨⟨h.mix, h.shift, h.tune, h.amount, h.glide, h.persist, h.outL, h.outR, h.estPeriod, h.estPitch, h.estConf,
      h.smooth, h.persistAmt, h.correction, h.ratio, h.periodNom, h.phaseInc, h.phaseIn, h.phaseOut⟩,
      h.input, h.ob, h.nb, h.frag, h.hann, h.cbw, h.acwinv⟩
  · rintro ⟨⟨mix, shift, tune, amount, glide, persist, outL, outR, estPeriod, estPitch, estConf, smooth, persistAmt,
      correction, ratio, periodNom, phaseInc, phaseIn, phaseOut⟩, input, ob, nb, frag, hann, cbw, acwinv⟩
    exact ⟨mix, shift, tune, amount, glide, persist, outL, outR, estPeriod, estPitch, estConf, smooth, persistAmt,
      correction, ratio, periodNom, phaseInc, phaseIn, phaseOut, input, ob, nb, frag, hann, cbw, acwinv⟩

/-- RATIO is above 0 once the engine runs (R12). -/
def State.RatioOk (s : State) : Prop := s.par.arith = .exact → s.ready = true → 0 < s.ratio.val

theorem State.formatOk_iff (s : State) : s.FormatOk ↔ s.Fits ∧ s.RatioOk := by
  rw [State.fits_iff]
  unfold State.FormatOk State.AllBits State.AllDefined State.RatioOk Store.AllBits Store.AllDefined Store.Fits
  cases s.par.arith <;> simp [Num.Fits, and_assoc]

end Sys2Proof.Machine
end

section
/-! PROOFS. The windows of INIT keep the format (spec/41_windows.md R600 to R603): under exact the window autocorrelation
does not vanish at lag 0, because CBW is 1 in its middle. -/

namespace Sys2Proof.Machine

variable {ar : Arith}

/-! ### Sums of products -/

theorem mem_rotate {α : Type} {y : List α} {m : Nat} {x : α} (h : x ∈ rotate y m) : x ∈ y :=
  (List.mem_append.1 h).elim List.mem_of_mem_drop List.mem_of_mem_take

theorem fits_circularSum {y : List Num} (h : ∀ x ∈ y, Num.Fits ar x) (m : Nat) : Num.Fits ar (circularSum ar y m) := by
  refine Num.fits_total fun x hx => ?_
  obtain ⟨i, hi, rfl⟩ := List.mem_iff_getElem.1 hx
  rw [List.getElem_zipWith]
  exact Num.fits_mul (h _ (List.getElem_mem _)) (h _ (mem_rotate (List.getElem_mem _)))

/-- Under exact a total denotes the sum of the reals. -/
theorem val_total (l : List Num) : (Num.total .exact l).val = (l.map Num.val).sum := by
  have onto (z : Num) : (l.foldl Num.sumExact z).val = z.val + (l.map Num.val).sum := by
    induction l generalizing z with
    | nil => simp
    | cons a l ih => rw [List.foldl_cons, ih, Num.val_sumExact, List.map_cons, List.sum_cons, add_assoc]
  rw [Num.total, onto, Num.val_zero, zero_add]

/-- At lag 0 the circular sum is the sum of the squares. -/
theorem val_circularSum_zero (y : List Num) :
    (circularSum .exact y 0).val = (y.map fun x => x.val * x.val).sum := by
  rw [circularSum, val_total, rotate, List.drop_zero, List.take_zero, List.append_nil, List.zipWith_self, List.map_map]
  exact congrArg List.sum (List.map_congr_left fun x _ => Num.val_mul x x)

theorem val_circularSum_zero_pos {y : List Num} {x : Num} (hx : x ∈ y) (h : x.val ≠ 0) :
    0 < (circularSum .exact y 0).val := by
  rw [val_circularSum_zero]
  have square : x.val * x.val ∈ y.map fun x => x.val * x.val := List.mem_map_of_mem hx
  refine (mul_self_pos.2 h).trans_le (List.single_le_sum ?_ _ square)
  rintro _ hs
  obtain ⟨z, -, rfl⟩ := List.mem_map.1 hs
  exact mul_self_nonneg z.val

/-! ### The two Hann windows -/

theorem fits_hannOf (i : Int) {m : Nat} (h : m ≠ 0) : Num.Fits ar (hannOf ar i m) := by
  refine Num.fits_sub (Num.fits_ofRat ..) (Num.fits_mul (Num.fits_ofRat ..) (Num.fits_cos ?_))
  exact Num.fits_div_ofInt (Num.fits_mul (Num.fits_mul (Num.fits_ofInt ..) (Num.fits_pi ar)) (Num.fits_ofInt ..))
    (Int.natCast_ne_zero.2 h)

/-- The window is 1 at the middle of its period. -/
theorem val_hannOf_middle {i m : Nat} (h : m = 2 * i) (pos : 0 < i) : (hannOf .exact i m).val = 1 := by
  have i0 : (i : ℝ) ≠ 0 := Nat.cast_ne_zero.2 pos.ne'
  have angle : 2 * Real.pi * i / (2 * i) = Real.pi := by field_simp
  subst h
  simp only [hannOf, Num.val_sub, Num.val_mul, Num.val_div, Num.val_cos, Num.val_ofRat, Num.val_ofInt, Num.val_pi]
  push_cast
  rw [angle, Real.cos_pi]
  norm_num

theorem fits_cbwAt {n : Nat} (h : 2 ≤ n) (i : Nat) : Num.Fits ar (cbwAt ar n i) := by
  unfold cbwAt
  split
  · exact fits_hannOf _ (by omega)
  · exact Num.fits_zero ar

theorem fits_cbwList {n : Nat} (h : 2 ≤ n) : ∀ x ∈ cbwList ar n, Num.Fits ar x := by
  intro x hx
  obtain ⟨i, -, rfl⟩ := List.mem_map.1 hx
  exact fits_cbwAt h i

theorem cbwList_length (ar : Arith) (n : Nat) : (cbwList ar n).length = n := by simp [cbwList]

/-- The middle cell of CBW. -/
theorem cbwAt_middle {n : Nat} (h : n % 4 = 0) (pos : 0 < n) : (cbwAt .exact n (n / 2)).val = 1 := by
  have index : ((n / 2 : Nat) : Int) - (n / 4 : Nat) = (n / 4 : Nat) := by omega
  rw [cbwAt, if_pos (by omega), index]
  exact val_hannOf_middle (by omega) (by omega)

/-! ### ACWINV -/

theorem fits_windowAutocorr {y : List Num} (h : ∀ x ∈ y, Num.Fits ar x) : ∀ x ∈ windowAutocorr ar y, Num.Fits ar x := by
  intro x hx
  cases ar <;> obtain ⟨m, -, rfl⟩ := List.mem_map.1 hx
  · exact fits_circularSum h m
  · exact ⟨m, rfl⟩

theorem windowAutocorr_zero_pos {n : Nat} (h : n % 4 = 0) (pos : 0 < n) :
    0 < ((windowAutocorr .exact (cbwList .exact n)).getD 0 Num.zero).val := by
  have middle : cbwAt .exact n (n / 2) ∈ cbwList .exact n := List.mem_map_of_mem (List.mem_range.2 (by omega))
  have value := val_circularSum_zero_pos middle (by rw [cbwAt_middle h pos]; exact one_ne_zero)
  simpa [windowAutocorr, cbwList_length, pos] using value

theorem fits_acwinvAt {aw : List Num} (h : ∀ x ∈ aw, Num.Fits ar x) (pos : ar = .exact → 0 < (aw.getD 0 Num.zero).val)
    (m : Nat) : Num.Fits ar (acwinvAt ar aw m) := by
  have quotient := Num.fits_div (Num.fits_getD h m) (Num.fits_getD h 0) fun e => (pos e).ne'
  unfold acwinvAt
  dsimp only
  split
  · exact Num.fits_one ar
  · split
    · rename_i guard
      refine Num.fits_div (Num.fits_one ar) quotient ?_
      rintro rfl
      have above := (Num.not_ltExact_iff (Num.fits_ofRat .exact (1 / 10 ^ 6)) quotient).1 guard
      rw [Num.val_ofRat] at above
      exact (lt_of_lt_of_le (by norm_num) above).ne'
    · exact Num.fits_zero ar

theorem fits_acwinvStore {n : Nat} (h : n % 4 = 0) (pos : 0 < n) : Store.Fits ar (acwinvStore ar n) := by
  refine Store.fits_ofFn (fits_acwinvAt (fits_windowAutocorr (fits_cbwList (by omega))) ?_)
  rintro rfl
  exact windowAutocorr_zero_pos h pos

/-! ### INIT -/

theorem initEngine_fits {s : State} (rate : 1400 ≤ s.fs.toNat) (h : s.Fits) : (initEngine s).Fits := by
  have size := bufLenFor_cases s.fs
  have n0 : 0 < bufLenFor s.fs := by omega
  have n4 : bufLenFor s.fs % 4 = 0 := by omega
  have zero := Num.fits_zero s.par.arith
  have nil := Store.fits_nil s.par.arith
  exact {
    mix := h.mix, shift := h.shift, tune := h.tune, amount := h.amount, glide := h.glide, persist := h.persist
    outL := zero, outR := zero, estPeriod := zero, estPitch := zero, estConf := zero, smooth := zero
    persistAmt := zero, correction := zero, ratio := Num.fits_one _
    periodNom := Num.fits_div_ofInt (Num.fits_one _) (by decide)
    phaseInc := Num.fits_div_ofInt (Num.fits_ofInt ..) (by omega)
    phaseIn := zero, phaseOut := zero, input := nil, ob := nil, nb := nil, frag := nil
    hann := Store.fits_ofFn fun i => fits_hannOf _ n0.ne'
    cbw := Store.fits_fromList (fits_cbwList (by omega))
    acwinv := fits_acwinvStore n4 n0 }

theorem initEngine_ratioOk (s : State) : (initEngine s).RatioOk := fun _ _ => Num.val_one ▸ one_pos

end Sys2Proof.Machine
end

section
/-! PROOFS. A hop keeps the format (spec/42_estimator.md R700 to R709, spec/44_smoother.md R902 to R909): the divisors, the
arguments of LOG2 and the bases of POW that it meets are above 0. -/

namespace Sys2Proof.Machine

variable {ar : Arith}

/-- What the engine's divisors rest on under exact: a rate, a least lag and a buffer that are not empty. -/
structure State.Sized (s : State) : Prop where
  rate : 0 < s.fsAct.toNat
  lag : 0 < s.nmin.toNat
  size : 0 < s.bufLen

theorem State.GeometryOk.sized {s : State} (h : s.GeometryOk) (ready : s.ready = true) : s.Sized :=
  ⟨Nat.lt_of_lt_of_le (by decide) (h.fsAct_ge ready), h.nmin_pos ready, Nat.zero_lt_of_lt (h.inWr_lt ready)⟩

/-! ### The estimator -/

theorem fits_windowed {s : State} (h : s.Fits) : ∀ y ∈ windowed s, Num.Fits s.par.arith y := by
  intro y hy
  obtain ⟨k, -, rfl⟩ := List.mem_map.1 hy
  exact Num.fits_mul (h.input.ringRead ..) (h.cbw.read k)

theorem fits_autocorr {y : List Num} (h : ∀ x ∈ y, Num.Fits ar x) (len : ar = .exact → y.length ≠ 0) :
    ∀ z ∈ autocorr ar y, Num.Fits ar z := by
  intro z hz
  cases ar <;> obtain ⟨m, -, rfl⟩ := List.mem_map.1 hz
  · have total := Num.fits_total h
    exact Num.fits_sub (fits_circularSum h m)
      (Num.fits_div_ofInt (Num.fits_mul total total) (Int.natCast_ne_zero.2 (len rfl)))
  · exact ⟨m, rfl⟩

/-- Past the zero-energy guard Z[0] is above 0 (R702). -/
theorem pos_of_zeroEnergy_false {epoch : Nat} {z0 : Num} (hz : z0.Defined) (h : zeroEnergy .exact epoch z0 = false) :
    0 < z0.val := by
  simp only [zeroEnergy, Bool.or_eq_false_iff] at h
  obtain ⟨⟨guard, -⟩, -⟩ := h
  rw [Num.decideLe, ← Bool.not_eq_true, Num.not_ltExact_iff hz Num.defined_zero, Num.val_zero, not_le] at guard
  exact guard

theorem fits_rhoAt {z : List Num} (h : ∀ x ∈ z, Num.Fits ar x) (z0 : ar = .exact → (z.getD 0 Num.zero).val ≠ 0) (m : Nat) :
    Num.Fits ar (rhoAt ar z m) := by
  unfold rhoAt
  split
  · exact Num.fits_one ar
  · exact Num.fits_div (Num.fits_getD h m) (Num.fits_getD h 0) z0

/-- The scan keeps its best lag or takes one it was shown. -/
theorem scan_mem {epoch lag : Nat} {key : Nat → Num} {peak : Nat → Bool} {l : List Nat} {acc : Num × Option Nat}
    (h : (l.foldl (scanStep ar epoch key peak) acc).2 = some lag) : acc.2 = some lag ∨ lag ∈ l := by
  induction l generalizing acc with
  | nil => exact .inl h
  | cons k l ih =>
    rcases ih h with best | later
    · unfold scanStep at best
      split at best
      · exact .inr (Option.some.inj best ▸ List.mem_cons_self ..)
      · exact .inl best
    · exact .inr (List.mem_cons_of_mem _ later)

/-- A winning lag is a candidate, so at least nmin (R704). -/
theorem nmin_le_of_searchLag {p : Params} {epoch n nmin nmax lag : Nat} {rho acwinv : Nat → Num}
    (h : searchLag p epoch rho acwinv n nmin nmax = some lag) : nmin ≤ lag :=
  (scan_mem h).elim nofun fun mem => (List.mem_range'_1.1 mem).1

/-- An estimate has the format, and its period is above 0. -/
structure Est.Fits (ar : Arith) (e : Est) : Prop where
  period : Num.Fits ar e.period
  conf : Num.Fits ar e.conf
  pitch : Num.Fits ar e.pitch
  period_pos : ar = .exact → 0 < e.period.val

theorem fits_pitchOf {tune period : Num} (ht : Num.Fits ar tune) (hp : Num.Fits ar period)
    (pos : ar = .exact → 0 < period.val) : Num.Fits ar (pitchOf ar tune period) := by
  have refFreq := Num.fits_mul (Num.fits_ofInt ar 440) (Num.fits_exp2 (Num.fits_div_ofInt ht (k := 12) (by decide)))
  refine Num.fits_mul (Num.fits_ofInt ..) (Num.fits_log2 (Num.fits_mul refFreq hp) ?_)
  rintro rfl
  have := pos rfl
  simp only [Num.val_mul, Num.val_exp2, Num.val_ofInt]
  positivity

theorem Est.fits_of_period {period conf tune : Num} (lag : Nat) (hp : Num.Fits ar period) (hc : Num.Fits ar conf)
    (ht : Num.Fits ar tune) (pos : ar = .exact → 0 < period.val) : Est.Fits ar ⟨lag, period, conf, pitchOf ar tune period⟩ :=
  ⟨hp, hc, fits_pitchOf ht hp pos, pos⟩

/-- The estimate of a candidate lag. -/
theorem estimateOf_some_fits {s : State} (h : s.Fits) {rho : Nat → Num} {lag : Nat}
    (hr : Num.Fits s.par.arith (rho lag)) (rate : s.par.arith = .exact → 0 < s.fsAct.toNat)
    (pos : s.par.arith = .exact → 0 < lag) : (estimateOf s rho s.mem.acwinv.read (some lag)).Fits s.par.arith := by
  refine Est.fits_of_period lag ?_ (Num.fits_mul hr (h.acwinv.read lag)) h.tune ?_
  · refine Num.fits_div (Num.fits_ofInt ..) (Num.fits_ofInt ..) fun e => ?_
    rw [e, Num.val_ofInt]
    exact_mod_cast (rate e).ne'
  · intro e
    have := rate e
    have := pos e
    simp only [e, Num.val_div, Num.val_ofInt, Int.cast_natCast]
    positivity

/-- The estimate of no lag. -/
theorem estimateOf_none_fits {s : State} (h : s.Fits) (rho acwinv : Nat → Num) :
    (estimateOf s rho acwinv none).Fits s.par.arith := by
  refine Est.fits_of_period 0 (Num.fits_div_ofInt (Num.fits_one _) (by decide)) (Num.fits_zero _) h.tune fun e => ?_
  simp only [e, Num.val_div, Num.val_one, Num.val_ofInt]
  norm_num

theorem estimate_fits {s : State} (h : s.Fits) (sized : s.par.arith = .exact → s.Sized) :
    (estimate s).Fits s.par.arith := by
  have z := fits_autocorr (fits_windowed h) fun e => by simpa [windowed] using (sized e).size.ne'
  unfold estimate
  dsimp only
  split
  · exact estimateOf_none_fits h ..
  · rename_i guard
    rw [Bool.not_eq_true] at guard
    have z0 : s.par.arith = .exact → ((autocorr s.par.arith (windowed s)).getD 0 Num.zero).val ≠ 0 := by
      intro e
      rw [e] at guard z ⊢
      exact (pos_of_zeroEnergy_false (Num.fits_getD z 0) guard).ne'
    generalize found : searchLag _ _ _ _ _ _ _ = winner
    cases winner with
    | none => exact estimateOf_none_fits h ..
    | some lag =>
      exact estimateOf_some_fits h (fits_rhoAt z z0 lag) (fun e => (sized e).rate)
        fun e => (sized e).lag.trans_le (nmin_le_of_searchLag found)

/-! ### The smoother -/

/-- The decay of a time above 0 (R903, R904). -/
theorem fits_decayPower (s : State) {base : Rat} {time : Num} (hb : 0 < base) (ht : Num.Fits s.par.arith time)
    (pos : s.par.arith = .exact → 0 < time.val) : Num.Fits s.par.arith (decayPower s base time) := by
  refine Num.fits_pow (Num.fits_ofRat ..) (Num.fits_div (Num.fits_ofRat ..) ht fun e => (pos e).ne') fun e => ?_
  rw [e, Num.val_ofRat]
  exact_mod_cast hb

/-- Under exact the test of a time tells that it is above 0. -/
theorem pos_of_lt {time : Num} (ht : Num.Fits ar time) (h : Num.lt ar Num.zero time = true) : ar = .exact → 0 < time.val := by
  rintro rfl
  simpa using (Num.ltExact_iff Num.defined_zero ht).1 h

theorem fits_glideFactor {s : State} (h : s.Fits) : Num.Fits s.par.arith (glideFactor s) := by
  unfold glideFactor
  split
  · exact Num.fits_sub (Num.fits_one _) (fits_decayPower s (by norm_num) h.glide (pos_of_lt h.glide ‹_›))
  · exact Num.fits_one _

theorem fits_decayFactor {s : State} (h : s.Fits) : Num.Fits s.par.arith (decayFactor s) := by
  unfold decayFactor
  split
  · exact fits_decayPower s (by norm_num) h.persist (pos_of_lt h.persist ‹_›)
  · exact Num.fits_zero _

theorem blend_fits {s : State} (h : s.Fits) : (blend s).Fits :=
  { h with
    smooth := Num.fits_add (Num.fits_mul (Num.fits_sub (Num.fits_one _) h.persistAmt) (Num.fits_ofInt ..))
      (Num.fits_mul h.persistAmt h.smooth)
    persistAmt := Num.fits_one _ }

theorem glideStep_fits {s : State} (h : s.Fits) : (glideStep s).Fits :=
  have factor := fits_glideFactor h
  { h with
    smooth := Num.fits_add h.smooth
      (Num.fits_mul (Num.fits_wrappedSigned _ (Num.fits_sub (Num.fits_ofInt ..) h.smooth)) factor) }

theorem persistDecay_fits {s : State} (h : s.Fits) : (persistDecay s).Fits :=
  have factor := fits_decayFactor h
  { h with persistAmt := Num.fits_mul h.persistAmt factor }

theorem voicingBranch_fits (voiced : Bool) {s : State} (h : s.Fits) : (voicingBranch voiced s).Fits := by
  unfold voicingBranch
  split
  · exact blend_fits h
  · exact glideStep_fits h
  · exact persistDecay_fits h

theorem recordVoicing_fits (voiced : Bool) {s : State} (h : s.Fits) : (recordVoicing voiced s).Fits :=
  { h with smooth := Num.fits_wrapTo _ h.smooth (Num.fits_ofInt ..) }

theorem fits_correctionOf (voiced : Bool) {s : State} (h : s.Fits) : Num.Fits s.par.arith (correctionOf voiced s) := by
  unfold correctionOf
  split
  · exact Num.fits_wrappedSigned _ (Num.fits_sub h.smooth h.estPitch)
  · exact Num.fits_zero _

theorem setRatio_fits (voiced : Bool) {s : State} (h : s.Fits) : (setRatio voiced s).Fits :=
  have correction := fits_correctionOf voiced h
  { h with
    correction := correction
    ratio := Num.fits_exp2
      (Num.fits_div_ofInt (Num.fits_add h.shift (Num.fits_mul h.amount correction)) (k := 12) (by decide)) }

/-- A power of two is above 0 (R908). -/
theorem setRatio_ratioOk (voiced : Bool) (s : State) : (setRatio voiced s).RatioOk := by
  intro e _
  rw [setRatio_par] at e
  simp only [setRatio, ratioOf, e, Num.val_exp2]
  positivity

theorem refreshPeriod_fits (voiced : Bool) {s : State} (h : s.Fits)
    (pos : s.par.arith = .exact → 0 < s.fsAct.toNat ∧ 0 < s.estPeriod.val) : (refreshPeriod voiced s).Fits := by
  have divisor := Num.fits_mul (Num.fits_ofInt s.par.arith s.fsAct.toNat) h.estPeriod
  have divisor_pos : s.par.arith = .exact →
      (Num.mul s.par.arith (Num.ofInt s.par.arith s.fsAct.toNat) s.estPeriod).val ≠ 0 := by
    intro e
    obtain ⟨rate, period⟩ := pos e
    simp only [e, Num.val_mul, Num.val_ofInt, Int.cast_natCast]
    positivity
  unfold refreshPeriod
  split
  · exact { h with
      periodNom := h.estPeriod
      phaseInc := Num.fits_div (Num.fits_one _) divisor divisor_pos }
  · exact h

/-! ### The hop -/

theorem writeEstimate_fits {e : Est} {s : State} (h : s.Fits) (he : e.Fits s.par.arith) : (writeEstimate e s).Fits :=
  { h with estPeriod := he.period, estPitch := he.pitch, estConf := he.conf }

theorem quantizeStep_fits {s : State} (h : s.Fits) : (quantizeStep s).Fits := { h with }

theorem onHop_fits {s : State} (h : s.Fits) (sized : s.par.arith = .exact → s.Sized) : (onHop s).Fits := by
  have est := estimate_fits h sized
  refine refreshPeriod_fits _ (setRatio_fits _ (recordVoicing_fits _ (voicingBranch_fits _
    (quantizeStep_fits (writeEstimate_fits h est))))) ?_
  simp only [setRatio_par, recordVoicing_par, voicingBranch_par, quantizeStep_par, writeEstimate_par, setRatio_fsAct,
    recordVoicing_fsAct, voicingBranch_fsAct, quantizeStep_fsAct, writeEstimate_fsAct, setRatio_estPeriod,
    recordVoicing_estPeriod, voicingBranch_estPeriod, quantizeStep_estPeriod]
  exact fun e => ⟨(sized e).rate, est.period_pos e⟩

theorem onHop_ratioOk (s : State) : (onHop s).RatioOk := by
  intro e ready
  unfold onHop at e ready ⊢
  dsimp only at e ready ⊢
  rw [refreshPeriod_par] at e
  rw [refreshPeriod_ready] at ready
  rw [refreshPeriod_ratio]
  exact setRatio_ratioOk _ _ e ready

theorem hopIfDue_fits {s : State} (h : s.Fits) (sized : s.par.arith = .exact → s.Sized) : (hopIfDue s).Fits := by
  unfold hopIfDue
  split
  · exact { onHop_fits h sized with }
  · exact h

theorem hopIfDue_ratioOk {s : State} (h : s.RatioOk) : (hopIfDue s).RatioOk := by
  unfold hopIfDue
  split
  · exact onHop_ratioOk s
  · exact h

end Sys2Proof.Machine
end

section
/-! PROOFS. Every step keeps the numeric format of its ARITH (spec/00_scope.md R9, R12, log 23). -/

namespace Sys2Proof.Machine

/-! ### The shifter and the output -/

theorem takeSample_fits {x : Num} {s : State} (h : s.Fits) (hx : Num.Fits s.par.arith x) : (takeSample x s).Fits :=
  { h with input := h.input.write hx }

theorem advancePhases_fits {s : State} (h : s.Fits) : (advancePhases s).Fits :=
  { h with
    phaseIn := Num.fits_add h.phaseIn h.phaseInc
    phaseOut := Num.fits_add h.phaseOut (Num.fits_mul h.phaseInc h.ratio) }

theorem inputWrap_fits {s : State} (h : s.Fits) : (inputWrap s).Fits := by
  unfold inputWrap
  split
  · exact { h with
      phaseIn := Num.fits_sub h.phaseIn (Num.fits_one _)
      frag := Store.fits_ofFn fun j => h.input.ringRead .. }
  · exact h

theorem placeSample_fits (samples t : Int) {s : State} (h : s.Fits) : (placeSample samples s t).Fits :=
  have taper : Num.Fits s.par.arith (taperAt s samples t) := h.hann.ringRead ..
  have grain : Num.Fits s.par.arith (fragmentAt s t) := h.frag.ringRead ..
  { h with
    ob := h.ob.write (Num.fits_add (h.ob.read _) (Num.fits_mul grain taper))
    nb := h.nb.write (Num.fits_add (h.nb.read _) taper) }

theorem placeAll_fits (samples : Int) (l : List Int) {s : State} (h : s.Fits) : (l.foldl (placeSample samples) s).Fits := by
  induction l generalizing s with
  | nil => exact h
  | cons t l ih => exact ih (placeSample_fits samples t h)

theorem placeGrain_fits {s : State} (h : s.Fits) : (placeGrain s).Fits :=
  { placeAll_fits (grainSamples s) (grainPositions (grainSamples s)) h with }

theorem outputWrap_fits {s : State} (h : s.Fits) : (outputWrap s).Fits := by
  unfold outputWrap
  split
  · exact placeGrain_fits { h with phaseOut := Num.fits_sub h.phaseOut (Num.fits_one _) }
  · exact h

/-- The read-back divides by a normalisation sum above one half only (R1009). -/
theorem fits_wetSample {s : State} {acc nrm : Num} (ha : Num.Fits s.par.arith acc) (hn : Num.Fits s.par.arith nrm) :
    Num.Fits s.par.arith (wetSample s acc nrm) := by
  unfold wetSample
  split
  · rename_i test
    refine Num.fits_div ha hn fun e => ?_
    rw [Bool.and_eq_true, e] at test
    rw [e] at hn
    have above := (Num.ltExact_iff (Num.fits_ofRat .exact (1 / 2)) hn).1 test.2
    rw [Num.val_ofRat] at above
    exact (lt_trans (by norm_num) above).ne'
  · exact ha

theorem fits_mixSample {s : State} (h : s.Fits) {wet dry : Num} (hw : Num.Fits s.par.arith wet)
    (hd : Num.Fits s.par.arith dry) : Num.Fits s.par.arith (mixSample s wet dry) :=
  Num.fits_add (Num.fits_mul h.mix hw) (Num.fits_mul (Num.fits_sub (Num.fits_one _) h.mix) hd)

theorem ringClear_fits {s : State} (h : s.Fits) : (ringClear s).Fits :=
  { h with ob := h.ob.write (Num.fits_zero _), nb := h.nb.write (Num.fits_zero _) }

theorem setOutputs_fits {y : Num} {s : State} (h : s.Fits) (hy : Num.Fits s.par.arith y) : (setOutputs y s).Fits :=
  { h with outL := hy, outR := hy }

theorem readBackAndMix_fits {s : State} (h : s.Fits) : (readBackAndMix s).Fits := by
  have cleared := ringClear_fits h
  have wet : Num.Fits (ringClear s).par.arith (wetSample (ringClear s) (s.mem.ob.read s.outRd) (s.mem.nb.read s.outRd)) :=
    fits_wetSample (h.ob.read _) (h.nb.read _)
  exact setOutputs_fits cleared (fits_mixSample cleared wet (cleared.input.read _))

/-! ### An accepted PUSH -/

theorem acceptSample_fits {x : Num} {s : State} (h : s.Fits) (hx : Num.Fits s.par.arith x)
    (sized : s.par.arith = .exact → s.Sized) : (acceptSample x s).Fits :=
  readBackAndMix_fits (outputWrap_fits (inputWrap_fits (advancePhases_fits
    (hopIfDue_fits (takeSample_fits h hx) fun e => ⟨(sized e).rate, (sized e).lag, (sized e).size⟩))))

theorem acceptSample_ratioOk (x : Num) {s : State} (h : s.RatioOk) : (acceptSample x s).RatioOk := by
  have taken : (takeSample x s).RatioOk := h
  have hop := hopIfDue_ratioOk taken
  unfold State.RatioOk at hop ⊢
  simpa [acceptSample] using hop

/-! ### Every transaction -/

theorem State.HostStep.fits {s t : State} (step : s.HostStep t) (h : s.Fits) : t.Fits := by
  rw [State.fits_iff, State.numRegisters_eq] at h ⊢
  obtain ⟨registers, arrays⟩ := h
  rw [List.forall_mem_append] at registers ⊢
  obtain ⟨params, engine⟩ := registers
  rw [step.par, step.engine, State.arrays, step.mem]
  refine ⟨⟨fun x hx => ?_, engine⟩, arrays⟩
  exact (step.params x hx).elim (params x) fun operand => operand.fits _

theorem State.HostStep.ratioOk {s t : State} (step : s.HostStep t) (h : s.RatioOk) : t.RatioOk := by
  unfold State.RatioOk
  rw [step.par, step.ready, step.ratio]
  exact h

theorem after_par (s : State) (i : Instr) : (after s i).par = s.par := by
  rcases after_cases s i with ⟨-, e⟩ | ⟨d, -, -, e⟩ | step
  · rw [e]; rfl
  · rw [e, acceptSample_par]
  · exact step.par

theorem after_formatOk (i : Instr) {s : State} (h : s.FormatOk) (geometry : s.par.arith = .exact → s.GeometryOk) :
    (after s i).FormatOk := by
  rw [State.formatOk_iff] at h ⊢
  obtain ⟨fits, ratio⟩ := h
  rcases after_cases s i with ⟨rate, e⟩ | ⟨d, ready, -, e⟩ | step
  · exact e ▸ ⟨initEngine_fits rate fits, initEngine_ratioOk s⟩
  · have sized := fun isExact => (geometry isExact).sized ready
    exact e ▸ ⟨acceptSample_fits fits (Num.fits_bits _ d) sized, acceptSample_ratioOk _ ratio⟩
  · exact ⟨step.fits fits, step.ratioOk ratio⟩

end Sys2Proof.Machine

open Sys2Proof Sys2Proof.Machine in
/-- Settles O57: under exact the geometry, which every transaction keeps too (O55), bounds the divisors of a hop. -/
theorem stepKeepsTheNumberFormat : Obligations.StepKeepsTheNumberFormat := fun _ _ format geometry e =>
  (step_keeps (P := fun s => s.FormatOk ∧ (s.par.arith = .exact → s.GeometryOk)) (fun _ _ h => h)
    (fun s i h => ⟨after_formatOk i h.1 h.2, fun isExact => after_geometryOk i (h.2 (after_par s i ▸ isExact))⟩)
    ⟨format, geometry⟩ e).1
end

section
/-! PROOFS. The binary32 format (spec/00_scope.md R11): a pattern as its sign and its magnitude pattern, and the units of
2^-150 of a magnitude pattern. -/

namespace Sys2Proof

/-! ### The fields of a pattern -/

theorem expField_eq (w : Word) : expField w = w.toNat % 2 ^ 31 / 2 ^ 23 := by
  simp only [expField, BitVec.extractLsb'_toNat, Nat.shiftRight_eq_div_pow]
  omega

theorem fracField_eq (w : Word) : fracField w = w.toNat % 2 ^ 31 % 2 ^ 23 := by
  simp only [fracField, BitVec.extractLsb'_toNat, Nat.shiftRight_eq_div_pow]
  omega

theorem isFinite32_iff (w : Word) : isFinite32 w = true ↔ w.toNat % 2 ^ 31 < 0x7F800000 := by
  rw [isFinite32, bne_iff_ne, expField_eq]
  omega

theorem isNaN32_of_finite {w : Word} (h : isFinite32 w = true) : isNaN32 w = false := by
  simp_all [isFinite32, isNaN32]

theorem isInf32_of_finite {w : Word} (h : isFinite32 w = true) : isInf32 w = false := by
  simp_all [isFinite32, isInf32]

/-- A pattern is its sign over its magnitude pattern. -/
theorem withSign_msb (w : Word) : withSign w.msb (BitVec.ofNat 32 (w.toNat % 2 ^ 31)) = w := by
  apply BitVec.eq_of_toNat_eq
  rw [withSign_toNat _ (Nat.mod_lt _ (by norm_num)), BitVec.msb_eq_decide]
  have := w.isLt
  split
  · simp_all
    omega
  · simp_all

theorem withSign_toNat_mod (s : Bool) {p : Nat} (h : p < 2 ^ 31) :
    (withSign s (BitVec.ofNat 32 p)).toNat % 2 ^ 31 = p := by
  rw [withSign_toNat s h]
  split <;> omega

theorem msb_withSign (s : Bool) {p : Nat} (h : p < 2 ^ 31) : (withSign s (BitVec.ofNat 32 p)).msb = s := by
  rw [BitVec.msb_eq_decide, withSign_toNat s h]
  cases s
  · simpa using h
  · simp

/-! ### The units of a magnitude pattern -/

/-- The magnitude, in units of 2^-150, of the magnitude pattern `p`; past the patterns of 31 bits the exponent goes on. -/
def magnitudeUnits (p : Nat) : Nat :=
  if p / 2 ^ 23 = 0 then 2 * (p % 2 ^ 23) else (2 ^ 23 + p % 2 ^ 23) * 2 ^ (p / 2 ^ 23)

theorem unitsOf_eq (w : Word) : unitsOf w = magnitudeUnits (w.toNat % 2 ^ 31) := by
  rw [unitsOf, magnitudeUnits, expField_eq, fracField_eq]

/-- `k` steps of `2^j` units have the pattern `(j - 1) * 2^23 + k`, up to the first one of the next binade. -/
theorem magnitudeUnits_steps {j k : Nat} (hj : 1 ≤ j) (hk : k ≤ 2 ^ 24) (normal : 2 ^ 23 ≤ k ∨ j = 1) :
    magnitudeUnits ((j - 1) * 2 ^ 23 + k) = k * 2 ^ j := by
  obtain ⟨i, rfl⟩ : ∃ i, j = i + 1 := ⟨j - 1, by omega⟩
  rw [Nat.add_sub_cancel]
  unfold magnitudeUnits
  rcases Nat.lt_or_ge k (2 ^ 23) with low | high
  · obtain rfl : i = 0 := by omega
    rw [if_pos (by omega)]
    omega
  · rw [if_neg (by omega)]
    rcases Nat.lt_or_ge k (2 ^ 24) with inside | top
    · rw [show (i * 2 ^ 23 + k) / 2 ^ 23 = i + 1 by omega, show 2 ^ 23 + (i * 2 ^ 23 + k) % 2 ^ 23 = k by omega]
    · obtain rfl : k = 2 ^ 24 := by omega
      rw [show (i * 2 ^ 23 + 2 ^ 24) / 2 ^ 23 = i + 2 by omega, show (i * 2 ^ 23 + 2 ^ 24) % 2 ^ 23 = 0 by omega]
      ring

/-- A magnitude pattern as steps of its binade. -/
theorem exists_steps (p : Nat) : ∃ j k, 1 ≤ j ∧ k < 2 ^ 24 ∧ (2 ^ 23 ≤ k ∨ j = 1) ∧ p = (j - 1) * 2 ^ 23 + k :=
  ⟨max 1 (p / 2 ^ 23), p - (max 1 (p / 2 ^ 23) - 1) * 2 ^ 23, by omega, by omega, by omega, by omega⟩

theorem magnitudeUnits_strictMono : StrictMono magnitudeUnits := by
  refine strictMono_nat_of_lt_succ fun p => ?_
  obtain ⟨j, k, hj, hk, normal, rfl⟩ := exists_steps p
  rw [magnitudeUnits_steps hj hk.le normal, Nat.add_assoc, magnitudeUnits_steps hj hk (normal.imp_left (by omega))]
  exact Nat.mul_lt_mul_of_pos_right k.lt_succ_self (by positivity)

theorem magnitudeUnits_zero : magnitudeUnits 0 = 0 := rfl

/-! ### The value of a pattern -/

/-- The sign as a factor. -/
def signFactor (s : Bool) : ℚ := if s then -1 else 1

theorem dec32_eq (w : Word) : dec32 w = signFactor w.msb * (unitsOf w / 2 ^ 150) := by
  unfold dec32 signFactor
  rw [Rat.mkRat_eq_div]
  push_cast
  split <;> ring

theorem abs_dec32 (w : Word) : |dec32 w| = unitsOf w / 2 ^ 150 := by
  have : |signFactor w.msb| = 1 := by unfold signFactor; split <;> simp
  rw [dec32_eq, abs_mul, this, one_mul, abs_of_nonneg (by positivity)]

/-- The sign of a value that is not 0 is the sign bit of its pattern. -/
theorem dec32_neg_iff {w : Word} (h : dec32 w ≠ 0) : dec32 w < 0 ↔ w.msb = true := by
  have units : (0 : ℚ) < unitsOf w / 2 ^ 150 := by rw [← abs_dec32]; exact abs_pos.2 h
  rw [dec32_eq]
  cases w.msb
  · simpa [signFactor] using units.le
  · simpa [signFactor] using units

/-- The encoding is the magnitude pattern of the units under the sign. -/
theorem encRat_eq (q : ℚ) :
    encRat q = withSign (decide (q < 0)) (BitVec.ofNat 32 (magnitudeReal ((|q| * 2 ^ 150 : ℚ) : ℝ))) := by
  rw [← encReal_ratCast, encReal_eq]
  push_cast
  simp only [Rat.cast_lt_zero]

end Sys2Proof
end

section
/-! PROOFS. Rounding to binary32 (spec/00_scope.md R9, R11): the pattern is a nearest one, the even one of two; a finite
pattern is the encoding of its own value; and an f32 operation is its exact result rounded once. -/

namespace Sys2Proof

/-! ### Rounding a magnitude -/

/-- `p` is a nearest magnitude pattern to `u` units, and the even one where two are. -/
structure RoundsTo (u : ℝ) (p : Nat) : Prop where
  nearest : ∀ r, |(magnitudeUnits p : ℝ) - u| ≤ |(magnitudeUnits r : ℝ) - u|
  even : ∀ r, |(magnitudeUnits r : ℝ) - u| = |(magnitudeUnits p : ℝ) - u| → r ≠ p → p % 2 = 0

section
variable {u : ℝ} {p : Nat}

theorem magnitudeUnits_le {r p : Nat} (h : r ≤ p) : (magnitudeUnits r : ℝ) ≤ magnitudeUnits p :=
  Nat.cast_le.2 (magnitudeUnits_strictMono.monotone h)

theorem magnitudeUnits_lt {r p : Nat} (h : r < p) : (magnitudeUnits r : ℝ) < magnitudeUnits p :=
  Nat.cast_lt.2 (magnitudeUnits_strictMono h)

/-- Below the middle of two neighbours, or on it with the lower one even, the lower one is the rounding. -/
theorem roundsTo_lower (lo : (magnitudeUnits p : ℝ) ≤ u) (hi : u ≤ magnitudeUnits (p + 1))
    (near : 2 * u < (magnitudeUnits p : ℝ) + magnitudeUnits (p + 1) ∨
      2 * u = (magnitudeUnits p : ℝ) + magnitudeUnits (p + 1) ∧ p % 2 = 0) : RoundsTo u p := by
  have middle : 2 * u ≤ (magnitudeUnits p : ℝ) + magnitudeUnits (p + 1) := near.elim le_of_lt fun h => h.1.le
  constructor <;> intro r <;> rw [abs_of_nonpos (sub_nonpos.2 lo)] <;> rcases Nat.lt_or_ge p r with above | below
  · have := magnitudeUnits_le (Nat.succ_le_of_lt above)
    rw [abs_of_nonneg (by linarith)]
    linarith
  · have := magnitudeUnits_le below
    rw [abs_of_nonpos (by linarith)]
    linarith
  · have := magnitudeUnits_le (Nat.succ_le_of_lt above)
    rw [abs_of_nonneg (by linarith)]
    intro tie _
    exact near.elim (fun strict => by linarith) And.right
  · have := magnitudeUnits_le below
    rw [abs_of_nonpos (by linarith)]
    intro tie other
    have := magnitudeUnits_lt (lt_of_le_of_ne below other)
    linarith

/-- Above the middle of two neighbours, or on it with the upper one even, the upper one is the rounding. -/
theorem roundsTo_upper (lo : (magnitudeUnits p : ℝ) ≤ u) (hi : u ≤ magnitudeUnits (p + 1))
    (near : (magnitudeUnits p : ℝ) + magnitudeUnits (p + 1) < 2 * u ∨
      2 * u = (magnitudeUnits p : ℝ) + magnitudeUnits (p + 1) ∧ (p + 1) % 2 = 0) : RoundsTo u (p + 1) := by
  have middle : (magnitudeUnits p : ℝ) + magnitudeUnits (p + 1) ≤ 2 * u := near.elim le_of_lt fun h => h.1.ge
  constructor <;> intro r <;> rw [abs_of_nonneg (sub_nonneg.2 hi)] <;> rcases Nat.lt_or_ge p r with above | below
  · have := magnitudeUnits_le (Nat.succ_le_of_lt above)
    rw [abs_of_nonneg (by linarith)]
    linarith
  · have := magnitudeUnits_le below
    rw [abs_of_nonpos (by linarith)]
    linarith
  · have := magnitudeUnits_le (Nat.succ_le_of_lt above)
    rw [abs_of_nonneg (by linarith)]
    intro tie other
    have := magnitudeUnits_lt (lt_of_le_of_ne (Nat.succ_le_of_lt above) other.symm)
    linarith
  · have := magnitudeUnits_le below
    rw [abs_of_nonpos (by linarith)]
    intro tie _
    exact near.elim (fun strict => by linarith) And.right

/-- The units themselves round to their own pattern. -/
theorem RoundsTo.eq_of_units {r : Nat} (h : RoundsTo (magnitudeUnits r) p) : p = r := by
  have := h.nearest r
  rw [sub_self, abs_zero, abs_nonpos_iff, sub_eq_zero, Nat.cast_inj] at this
  exact magnitudeUnits_strictMono.injective this

/-- Below the overflow threshold the rounding is a finite pattern. -/
theorem RoundsTo.lt_infinity (h : RoundsTo u p) (threshold : u < (2 ^ 25 - 1) * 2 ^ 253) : p < 0x7F800000 := by
  by_contra beyond
  have infinity : (magnitudeUnits 0x7F800000 : ℝ) = 2 ^ 25 * 2 ^ 253 := by norm_num [magnitudeUnits]
  have largest : (magnitudeUnits 0x7F7FFFFF : ℝ) = (2 ^ 25 - 2) * 2 ^ 253 := by norm_num [magnitudeUnits]
  have above := magnitudeUnits_le (not_lt.1 beyond)
  have closer := h.nearest 0x7F7FFFFF
  have step : (0 : ℝ) < 2 ^ 253 := by positivity
  rw [infinity] at above
  rw [largest] at closer
  generalize (2 : ℝ) ^ 253 = t at *
  rw [abs_of_nonneg (by linarith)] at closer
  rcases abs_cases ((2 ^ 25 - 2) * t - u) with ⟨e, -⟩ | ⟨e, -⟩ <;> rw [e] at closer <;> linarith

end

/-- The bits that rounding keeps are at most 24, and exactly 24 above the least binade. -/
theorem kept_bits (m : Nat) : m / 2 ^ max 1 (Nat.log2 m - 23) < 2 ^ 24 ∧
    (2 ^ 23 ≤ m / 2 ^ max 1 (Nat.log2 m - 23) ∨ max 1 (Nat.log2 m - 23) = 1) := by
  constructor
  · rw [Nat.div_lt_iff_lt_mul (by positivity), ← pow_add]
    exact lt_of_lt_of_le Nat.lt_log2_self (Nat.pow_le_pow_right (by norm_num) (by omega))
  · rcases Nat.lt_or_ge 1 (max 1 (Nat.log2 m - 23)) with binade | least
    · refine .inl ?_
      rw [Nat.le_div_iff_mul_le (by positivity), ← pow_add]
      exact le_trans (Nat.pow_le_pow_right (by norm_num) (by omega))
        (Nat.log2_self_le (by rintro rfl; simp at binade))
    · exact .inr (by omega)

/-- The test of `roundUnits` picks the rounding of `u` among its two neighbours `k` and `k + 1` steps of `2 * c` units: it
compares the rest with half a step, then asks for a part of a unit more, then for the even neighbour. -/
theorem roundsTo_neighbour {u : ℝ} {m p k c rest : Nat} (floor_le : (m : ℝ) ≤ u) (lt_floor : u < m + 1)
    (lower : magnitudeUnits p = k * (2 * c)) (upper : magnitudeUnits (p + 1) = (k + 1) * (2 * c))
    (kept : k * (2 * c) + rest = m) (rest_lt : rest < 2 * c) (parity : p % 2 = k % 2) :
    RoundsTo u (p + if c < rest ∨ rest = c ∧ ((m : ℝ) ≠ u ∨ k % 2 = 1) then 1 else 0) := by
  have lo : (magnitudeUnits p : ℝ) ≤ u := le_trans (by rw [lower]; exact_mod_cast (by omega)) floor_le
  have hi : u ≤ magnitudeUnits (p + 1) := le_trans lt_floor.le (by rw [upper, add_mul]; exact_mod_cast (by omega))
  have middle : (magnitudeUnits p : ℝ) + magnitudeUnits (p + 1) = 2 * ((k * (2 * c) + c : Nat) : ℝ) := by
    rw [lower, upper]; push_cast; ring
  have on_middle (on : rest = c) : k * (2 * c) + c = m := by omega
  split
  · rename_i up
    refine roundsTo_upper lo hi ?_
    rw [middle]
    rcases up with more | ⟨on, sticky | odd⟩
    · have : ((k * (2 * c) + c : Nat) : ℝ) < m := Nat.cast_lt.2 (by omega)
      exact .inl (by linarith)
    · have : (m : ℝ) < u := lt_of_le_of_ne floor_le sticky
      rw [on_middle on]
      exact .inl (by linarith)
    · rw [on_middle on]
      rcases floor_le.lt_or_eq with above | tie
      · exact .inl (by linarith)
      · exact .inr ⟨by rw [tie], by omega⟩
  · rename_i down
    push Not at down
    obtain ⟨at_most, tie⟩ := down
    rw [Nat.add_zero]
    refine roundsTo_lower lo hi ?_
    rw [middle]
    rcases at_most.lt_or_eq with less | on
    · have : (m : ℝ) + 1 ≤ ((k * (2 * c) + c : Nat) : ℝ) := by exact_mod_cast (by omega)
      exact .inl (by linarith)
    · obtain ⟨whole, even⟩ := tie on
      rw [on_middle on]
      exact .inr ⟨by rw [whole], by omega⟩

/-- `roundUnits` answers a rounding, unless an infinity takes its place. -/
theorem magnitudeReal_rounds {u : ℝ} (h0 : 0 ≤ u) : ∃ p, RoundsTo u p ∧ magnitudeReal u = min p 0x7F800000 := by
  have floor_le := Nat.floor_le h0
  have lt_floor := Nat.lt_floor_add_one u
  unfold magnitudeReal roundUnits
  generalize ⌊u⌋₊ = m at floor_le lt_floor
  obtain ⟨few, normal⟩ := kept_bits m
  have j1 : 1 ≤ max 1 (Nat.log2 m - 23) := le_max_left _ _
  dsimp only
  generalize max 1 (Nat.log2 m - 23) = j at *
  have half : 2 ^ j = 2 * 2 ^ (j - 1) := by rw [mul_comm, Nat.two_pow_pred_mul_two j1]
  have lower := magnitudeUnits_steps j1 few.le normal
  have upper := magnitudeUnits_steps (k := m / 2 ^ j + 1) j1 (Nat.succ_le_of_lt few) (normal.imp_left fun h => by omega)
  rw [← Nat.add_assoc] at upper
  have kept := Nat.div_add_mod' m (2 ^ j)
  have rest_lt := Nat.mod_lt m (show 0 < 2 ^ j by positivity)
  generalize m / 2 ^ j = k at *
  generalize m % 2 ^ j = rest at *
  rw [half] at lower upper kept rest_lt
  refine ⟨_, roundsTo_neighbour floor_le lt_floor lower upper kept rest_lt (by omega), ?_⟩
  simp only [Bool.or_eq_true, decide_eq_true_eq, Bool.and_eq_true, beq_iff_eq]

/-! ### Encoding a rational -/

/-- The units of a rational's magnitude. -/
noncomputable def unitsOfRat (q : ℚ) : ℝ := ((|q| * 2 ^ 150 : ℚ) : ℝ)

theorem unitsOfRat_nonneg (q : ℚ) : 0 ≤ unitsOfRat q := by unfold unitsOfRat; positivity

/-- The encoding of a rational below the overflow threshold is its sign over a rounding of its units. -/
theorem encRat_rounds {q : ℚ} (h : |q| < 2 ^ 128 - 2 ^ 103) :
    ∃ p, RoundsTo (unitsOfRat q) p ∧ p < 0x7F800000 ∧ encRat q = withSign (decide (q < 0)) (BitVec.ofNat 32 p) := by
  obtain ⟨p, rounds, value⟩ := magnitudeReal_rounds (unitsOfRat_nonneg q)
  have threshold : unitsOfRat q < (2 ^ 25 - 1) * 2 ^ 253 := by
    have : |q| * 2 ^ 150 < (2 ^ 25 - 1) * 2 ^ 253 := by
      calc |q| * 2 ^ 150 < (2 ^ 128 - 2 ^ 103) * 2 ^ 150 := by gcongr
        _ = (2 ^ 25 - 1) * 2 ^ 253 := by norm_num
    unfold unitsOfRat
    exact_mod_cast this
  have finite := rounds.lt_infinity threshold
  refine ⟨p, rounds, finite, ?_⟩
  rw [encRat_eq]
  unfold unitsOfRat at value
  rw [value, min_eq_left finite.le]

/-- The distance of two magnitudes, in units and as values. -/
theorem units_distance (w : Word) (q : ℚ) :
    |(unitsOf w : ℝ) - unitsOfRat q| = ((|(|dec32 w| - |q|)| : ℚ) : ℝ) * 2 ^ 150 := by
  have two : (0 : ℚ) < 2 ^ 150 := by positivity
  have scaled : (unitsOf w : ℚ) - |q| * 2 ^ 150 = (|dec32 w| - |q|) * 2 ^ 150 := by
    rw [abs_dec32, sub_mul, div_mul_cancel₀ _ two.ne']
  have distance : |(unitsOf w : ℚ) - |q| * 2 ^ 150| = |(|dec32 w| - |q|)| * 2 ^ 150 := by
    rw [scaled, abs_mul, abs_of_pos two]
  unfold unitsOfRat
  exact_mod_cast distance

/-- A value lies at least as far from a rational as its magnitude from the rational's. -/
theorem units_distance_le (w : Word) (q : ℚ) :
    |(unitsOf w : ℝ) - unitsOfRat q| ≤ ((|dec32 w - q| : ℚ) : ℝ) * 2 ^ 150 := by
  rw [units_distance]
  exact mul_le_mul_of_nonneg_right (Rat.cast_le.2 (abs_abs_sub_abs_le _ _)) (by positivity)

/-- Under the rational's own sign it lies just as far. -/
theorem units_distance_eq {w : Word} {q : ℚ} (sign : w.msb = decide (q < 0)) :
    ((|dec32 w - q| : ℚ) : ℝ) * 2 ^ 150 = |(unitsOf w : ℝ) - unitsOfRat q| := by
  rw [units_distance, abs_dec32, dec32_eq, sign]
  rcases lt_or_ge q 0 with neg | pos
  · rw [decide_eq_true neg, abs_of_neg neg, ← abs_neg]
    congr 3
    rw [signFactor, if_pos rfl]
    ring
  · rw [decide_eq_false (not_lt.2 pos), abs_of_nonneg pos, signFactor, if_neg (by simp), one_mul]

theorem dec32_encRat_zero : dec32 (encRat 0) = 0 := by decide +kernel

/-- Of two opposite values only those of the rational 0 lie equally far from it. -/
theorem eq_zero_of_equidistant {e q : ℚ} (h : |(-e) - q| = |e - q|) (ne : e ≠ 0) : q = 0 := by
  rcases abs_eq_abs.1 h with same | opposite
  · exact absurd (by linarith) ne
  · linarith

theorem encRat_nearest_even {q : ℚ} (h : |q| < 2 ^ 128 - 2 ^ 103) :
    isFinite32 (encRat q) = true ∧ ∀ w : Word, |dec32 (encRat q) - q| ≤ |dec32 w - q| ∧
      (|dec32 w - q| = |dec32 (encRat q) - q| → dec32 w ≠ dec32 (encRat q) → fracField (encRat q) % 2 = 0) := by
  obtain ⟨p, rounds, finite, value⟩ := encRat_rounds h
  have p31 : p < 2 ^ 31 := by omega
  have magnitude : (encRat q).toNat % 2 ^ 31 = p := by rw [value, withSign_toNat_mod _ p31]
  have own : ((|dec32 (encRat q) - q| : ℚ) : ℝ) * 2 ^ 150 = |(magnitudeUnits p : ℝ) - unitsOfRat q| := by
    rw [units_distance_eq (by rw [value, msb_withSign _ p31]), unitsOf_eq, magnitude]
  refine ⟨by rw [isFinite32_iff, magnitude]; exact finite, fun w => ?_⟩
  have other := units_distance_le w q
  rw [unitsOf_eq] at other
  have nearest := rounds.nearest (w.toNat % 2 ^ 31)
  constructor
  · have : ((|dec32 (encRat q) - q| : ℚ) : ℝ) ≤ ((|dec32 w - q| : ℚ) : ℝ) := by
      refine le_of_mul_le_mul_right ?_ (show (0 : ℝ) < 2 ^ 150 by positivity)
      exact own ▸ nearest.trans other
    exact_mod_cast this
  · intro tie different
    have parity : fracField (encRat q) % 2 = p % 2 := by rw [fracField_eq, magnitude]; omega
    have equal : |(magnitudeUnits (w.toNat % 2 ^ 31) : ℝ) - unitsOfRat q| = |(magnitudeUnits p : ℝ) - unitsOfRat q| :=
      le_antisymm (by rw [← own, ← tie]; exact other) nearest
    rw [parity]
    refine rounds.even _ equal fun same => ?_
    have opposite : dec32 w = -dec32 (encRat q) := by
      refine (abs_eq_abs.1 ?_).resolve_left different
      rw [abs_dec32, abs_dec32, unitsOf_eq, unitsOf_eq, same, magnitude]
    have ne : dec32 (encRat q) ≠ 0 := fun zero => different (by rw [opposite, zero, neg_zero])
    rw [opposite] at tie
    rw [eq_zero_of_equidistant tie ne] at ne
    exact ne dec32_encRat_zero

/-! ### Encoding a value -/

/-- A finite pattern other than that of -0.0 encodes its own value. -/
theorem encRat_dec32 {w : Word} (finite : isFinite32 w = true) (h : w ≠ 0x80000000) : encRat (dec32 w) = w := by
  rw [isFinite32_iff] at finite
  obtain ⟨p, rounds, value⟩ := magnitudeReal_rounds (unitsOfRat_nonneg (dec32 w))
  have units : unitsOfRat (dec32 w) = magnitudeUnits (w.toNat % 2 ^ 31) := by
    rw [unitsOfRat, abs_dec32, unitsOf_eq, div_mul_cancel₀ _ (by positivity), Rat.cast_natCast]
  have sign : decide (dec32 w < 0) = w.msb := by
    by_cases zero : dec32 w = 0
    · have magnitude : w.toNat % 2 ^ 31 = 0 := by
        apply magnitudeUnits_strictMono.injective
        rw [← unitsOf_eq, magnitudeUnits_zero]
        have := abs_dec32 w
        rw [zero, abs_zero, eq_comm, div_eq_zero_iff] at this
        exact_mod_cast this.resolve_right (by positivity)
      have plus : w.toNat ≠ 0x80000000 := fun e => h (BitVec.eq_of_toNat_eq e)
      rw [zero, BitVec.msb_eq_decide]
      simp
      omega
    · rw [Bool.eq_iff_iff, decide_eq_true_eq, dec32_neg_iff zero]
  have own : p = w.toNat % 2 ^ 31 := (units ▸ rounds).eq_of_units
  rw [encRat_eq, sign]
  unfold unitsOfRat at value
  rw [value, own, min_eq_left finite.le, withSign_msb]

/-! ### One operation of f32 -/

/-- The sign of a result that is not 0, over the pattern of its magnitude, is its encoding. -/
theorem withSign_magnitude32 {neg : Bool} {q : ℚ} (h : neg = true ↔ q < 0) : withSign neg (magnitude32 q) = encRat q := by
  rw [encRat, (Bool.eq_iff_iff.2 (h.trans decide_eq_true_iff.symm) : neg = decide (q < 0))]

theorem msb_ne_iff {a b : Word} (ha : dec32 a ≠ 0) (hb : dec32 b ≠ 0) :
    (a.msb != b.msb) = true ↔ (dec32 a < 0 ∧ 0 < dec32 b ∨ 0 < dec32 a ∧ dec32 b < 0) := by
  have sa := dec32_neg_iff ha
  have sb := dec32_neg_iff hb
  have pa : 0 < dec32 a ↔ ¬ dec32 a < 0 := ⟨fun h => h.not_gt, fun h => lt_of_le_of_ne (not_lt.1 h) ha.symm⟩
  have pb : 0 < dec32 b ↔ ¬ dec32 b < 0 := ⟨fun h => h.not_gt, fun h => lt_of_le_of_ne (not_lt.1 h) hb.symm⟩
  rw [pa, pb, sa, sb]
  cases a.msb <;> cases b.msb <;> simp

theorem neg32_toNat_mod (w : Word) : (neg32 w).toNat % 2 ^ 31 = w.toNat % 2 ^ 31 := by
  rw [neg32, BitVec.toNat_xor, Nat.xor_mod_two_pow]
  simp

theorem isFinite32_neg32 (w : Word) : isFinite32 (neg32 w) = isFinite32 w := by
  rw [Bool.eq_iff_iff, isFinite32_iff, isFinite32_iff, neg32_toNat_mod]

theorem dec32_neg32 (w : Word) : dec32 (neg32 w) = -dec32 w := by
  have sign : (neg32 w).msb = !w.msb := by
    rw [neg32, BitVec.msb_xor, show (0x80000000#32).msb = true by decide, Bool.xor_true]
  rw [dec32_eq, dec32_eq, unitsOf_eq, unitsOf_eq, neg32_toNat_mod, sign]
  cases w.msb <;> simp [signFactor]

section
variable {a b : Word} (ha : isFinite32 a = true) (hb : isFinite32 b = true)
include ha hb

theorem add32_of_finite (h : dec32 a + dec32 b ≠ 0) : add32 a b = encRat (dec32 a + dec32 b) := by
  simp [add32, isNaN32_of_finite ha, isNaN32_of_finite hb, isInf32_of_finite ha, isInf32_of_finite hb, h]

theorem sub32_of_finite (h : dec32 a - dec32 b ≠ 0) : sub32 a b = encRat (dec32 a - dec32 b) := by
  have difference : dec32 a + dec32 (neg32 b) = dec32 a - dec32 b := by rw [dec32_neg32, sub_eq_add_neg]
  rw [sub32, isNaN32_of_finite hb, if_neg (by simp), ← difference]
  exact add32_of_finite ha (by rw [isFinite32_neg32, hb]) (difference ▸ h)

theorem mul32_of_finite (h : dec32 a * dec32 b ≠ 0) : mul32 a b = encRat (dec32 a * dec32 b) := by
  have sign := (msb_ne_iff (left_ne_zero_of_mul h) (right_ne_zero_of_mul h)).trans (mul_neg_iff.trans or_comm).symm
  rw [← withSign_magnitude32 sign]
  simp [mul32, isNaN32_of_finite ha, isNaN32_of_finite hb, isInf32_of_finite ha, isInf32_of_finite hb]

theorem div32_of_finite (h : dec32 a ≠ 0) (h' : dec32 b ≠ 0) : div32 a b = encRat (dec32 a / dec32 b) := by
  have sign := (msb_ne_iff h h').trans (div_neg_iff.trans or_comm).symm
  rw [← withSign_magnitude32 sign]
  simp [div32, isNaN32_of_finite ha, isNaN32_of_finite hb, isInf32_of_finite ha, isInf32_of_finite hb, h']

end

end Sys2Proof

open Sys2Proof

/-- Settles O50: `roundUnits` picks the nearer neighbour of the magnitude, which carries over to values of either sign. -/
theorem enc32RoundsToNearestEven : Obligations.Enc32RoundsToNearestEven := fun _ h =>
  ⟨(encRat_nearest_even h).1, fun w _ => (encRat_nearest_even h).2 w⟩

/-- Settles O51: the units of a pattern lie nearest to themselves. -/
theorem enc32InvertsDec32 : Obligations.Enc32InvertsDec32 := fun _ => encRat_dec32

/-- Settles O52: away from 0 the sign bits give the sign of the exact result. -/
theorem f32OperationsRoundOnce : Obligations.F32OperationsRoundOnce := fun _ _ ha hb =>
  ⟨fun h => congrArg Num.bits (add32_of_finite ha hb h), fun h => congrArg Num.bits (sub32_of_finite ha hb h),
    fun h => congrArg Num.bits (mul32_of_finite ha hb h), fun h h' => congrArg Num.bits (div32_of_finite ha hb h h')⟩
end

section
/-! PROOFS. Who changes what: only INIT and PUSH touch the engine, and each host register has its own write
(spec/10_state.md R14 to R17, R19, R38 to R40, R51, R56, spec/40_ring_buffers.md R509). -/

namespace Sys2Proof

/-- A finite pattern is one whose exponent field is not all ones (R11). -/
theorem exponent_ne_of_isFinite32 {d : Word} (h : isFinite32 d = true) : d.extractLsb' 23 8 ≠ 0xFF := by
  intro e
  simp [isFinite32, expField, e] at h

namespace Machine

/-! ### The engine changes only by INIT and PUSH -/

/-- `s` with the registers that host writes and reads set taken from `t`. -/
def State.withHostRegisters (s t : State) : State :=
  { s with
    readData := t.readData, err := t.err, normEn := t.normEn, fs := t.fs
    mix := t.mix, shift := t.shift, tune := t.tune, amount := t.amount, glide := t.glide, persist := t.persist
    root := t.root, scale := t.scale, mask := t.mask }

/-- From `s` to `t` nothing changes but registers that host writes and reads set (R509). -/
def State.EngineKept (s t : State) : Prop := t = s.withHostRegisters t

theorem State.EngineKept.raiseError (b : ErrBit) (s : State) : s.EngineKept (raiseError b s) := rfl

theorem State.EngineKept.writeF32 {d : Word} {s : State} {store : Num → State → State}
    (stored : s.EngineKept (store (.bits d) s)) : s.EngineKept (writeF32 d store s) := by
  rcases writeF32_cases d store s with ⟨-, e⟩ | ⟨-, e⟩ <;> rw [e]
  · exact stored
  · exact .raiseError .val s

theorem State.EngineKept.writeEnum {top : Nat} {d : Word} {s : State} {store : BitVec 4 → State → State}
    (stored : ∀ v, s.EngineKept (store v s)) : s.EngineKept (writeEnum top d store s) := by
  rcases writeEnum_cases top d store s with ⟨-, e⟩ | ⟨-, e⟩ <;> rw [e]
  · exact stored _
  · exact .raiseError .val s

theorem State.EngineKept.rd (a : Addr) (d : Word) (s : State) : s.EngineKept (after s (.rd a d)) := by
  simp only [after]
  split <;> exact rfl

/-- The transactions that reach the engine are a successful INIT and an accepted PUSH (R14, R509). -/
theorem engine_cases (s : State) (i : Instr) :
    (i = .init ∧ 1400 ≤ s.fs.toNat ∧ after s i = initEngine s) ∨
    (∃ d, i = .push d ∧ s.ready = true ∧ isFinite32 d = true ∧ after s i = acceptSample (.bits d) s) ∨
    s.EngineKept (after s i) := by
  cases i with
  | init =>
    rcases Nat.lt_or_ge s.fs.toNat 1400 with low | high
    · exact .inr (.inr (by rw [after, if_pos low]; exact .raiseError .cfg s))
    · exact .inl ⟨rfl, high, if_neg high.not_gt⟩
  | push d =>
    rcases pushSample_cases d s with ⟨-, e⟩ | ⟨-, -, e⟩ | ⟨ready, finite, e⟩
    · exact .inr (.inr (by rw [after, e]; exact .raiseError .nrdy s))
    · exact .inr (.inr (by rw [after, e]; exact .raiseError .val s))
    · exact .inr (.inl ⟨d, rfl, ready, finite, e⟩)
  | rd a d => exact .inr (.inr (.rd a d s))
  | cmdRsvd | wrBad | wrCtrl | wrErr | wrFs => exact .inr (.inr rfl)
  | wrMix | wrShift | wrTune | wrAmount | wrGlide | wrPersist =>
    simp only [after]
    exact .inr (.inr (.writeF32 rfl))
  | wrRoot | wrScale =>
    simp only [after]
    exact .inr (.inr (.writeEnum fun _ => rfl))

/-! ### The host registers change only by their own writes -/

/-- From `s` to `t` each register of the host is kept, or `i` is a transaction that owns it (R19, R38, R40, R42 to R49,
R400); the model's epoch is PUSH's (log 24). -/
structure State.HostOwned (i : Instr) (s t : State) : Prop where
  par : t.par = s.par
  port : t.port = s.port
  mix : t.mix = s.mix ∨ ∃ d, i = .wrMix d
  shift : t.shift = s.shift ∨ ∃ d, i = .wrShift d
  tune : t.tune = s.tune ∨ ∃ d, i = .wrTune d
  amount : t.amount = s.amount ∨ ∃ d, i = .wrAmount d
  glide : t.glide = s.glide ∨ ∃ d, i = .wrGlide d
  persist : t.persist = s.persist ∨ ∃ d, i = .wrPersist d
  root : t.root = s.root ∨ ∃ d, i = .wrRoot d
  scale : t.scale = s.scale ∨ ∃ d, i = .wrScale d
  mask : t.mask = s.mask ∨ ∃ d, i = .wrRoot d ∨ i = .wrScale d
  normEn : t.normEn = s.normEn ∨ ∃ d, i = .wrCtrl d
  fs : t.fs = s.fs ∨ ∃ d, i = .wrFs d
  readData : t.readData = s.readData ∨ ∃ a d, i = .rd a d
  epoch : t.epoch = s.epoch ∨ ∃ d, i = .push d

namespace State.HostOwned

theorem refl (i : Instr) (s : State) : HostOwned i s s := by
  constructor <;> simp

theorem raiseError (i : Instr) (b : ErrBit) (s : State) : HostOwned i s (raiseError b s) :=
  { refl i s with }

theorem writeF32 {i : Instr} {d : Word} {s : State} {store : Num → State → State}
    (stored : HostOwned i s (store (.bits d) s)) : HostOwned i s (writeF32 d store s) := by
  rcases writeF32_cases d store s with ⟨-, e⟩ | ⟨-, e⟩ <;> rw [e]
  · exact stored
  · exact raiseError i .val s

theorem writeEnum {i : Instr} {top : Nat} {d : Word} {s : State} {store : BitVec 4 → State → State}
    (stored : ∀ v, HostOwned i s (store v s)) : HostOwned i s (writeEnum top d store s) := by
  rcases writeEnum_cases top d store s with ⟨-, e⟩ | ⟨-, e⟩ <;> rw [e]
  · exact stored _
  · exact raiseError i .val s

theorem initEngine (i : Instr) (s : State) : HostOwned i s (initEngine s) :=
  { refl i s with }

/-- The sample step reads the parameters and the control bits, and writes none of them (R1102). -/
theorem acceptSample (d : Word) (x : Num) (s : State) : HostOwned (.push d) s (acceptSample x s) := by
  constructor <;> simp [Machine.acceptSample]

theorem rd (a : Addr) (d : Word) (s : State) : HostOwned (.rd a d) s (after s (.rd a d)) := by
  have owned : ∃ a' d', Instr.rd a d = .rd a' d' := ⟨a, d, rfl⟩
  simp only [after]
  split <;> exact { refl (.rd a d) s with readData := .inr owned }

end State.HostOwned

theorem after_hostOwned (s : State) (i : Instr) : s.HostOwned i (after s i) := by
  have same := State.HostOwned.refl i s
  cases i <;> simp only [after]
  case init =>
    split
    · exact .raiseError _ .cfg s
    · exact .initEngine _ s
  case push d =>
    rcases pushSample_cases d s with ⟨-, e⟩ | ⟨-, -, e⟩ | ⟨-, -, e⟩ <;> rw [e]
    · exact .raiseError _ .nrdy s
    · exact .raiseError _ .val s
    · exact .acceptSample d _ s
  case rd a d => exact .rd a d s
  case cmdRsvd => exact .raiseError _ .val s
  case wrBad => exact .raiseError _ .addr s
  case wrErr => exact { same with }
  case wrCtrl d => exact { same with normEn := .inr ⟨d, rfl⟩ }
  case wrFs d => exact { same with fs := .inr ⟨d, rfl⟩ }
  case wrMix d => exact .writeF32 { same with mix := .inr ⟨d, rfl⟩ }
  case wrShift d => exact .writeF32 { same with shift := .inr ⟨d, rfl⟩ }
  case wrTune d => exact .writeF32 { same with tune := .inr ⟨d, rfl⟩ }
  case wrAmount d => exact .writeF32 { same with amount := .inr ⟨d, rfl⟩ }
  case wrGlide d => exact .writeF32 { same with glide := .inr ⟨d, rfl⟩ }
  case wrPersist d => exact .writeF32 { same with persist := .inr ⟨d, rfl⟩ }
  case wrRoot d => exact .writeEnum fun _ => { same with root := .inr ⟨d, rfl⟩, mask := .inr ⟨d, .inl rfl⟩ }
  case wrScale d => exact .writeEnum fun _ => { same with scale := .inr ⟨d, rfl⟩, mask := .inr ⟨d, .inr rfl⟩ }

/-- The sizes and lag bounds are those of the last INIT (R39). -/
theorem after_configuration {s : State} {i : Instr} (h : i ≠ .init) :
    (after s i).fsAct = s.fsAct ∧ (after s i).nsize = s.nsize ∧ (after s i).hopsize = s.hopsize ∧
      (after s i).nmin = s.nmin ∧ (after s i).nmax = s.nmax := by
  rcases engine_cases s i with ⟨init, -⟩ | ⟨d, -, -, -, e⟩ | kept
  · exact absurd init h
  · simp [e]
  · rw [kept]
    exact ⟨rfl, rfl, rfl, rfl, rfl⟩

theorem after_engineKept {s : State} {i : Instr} (init : i ≠ .init) (push : ∀ d, i ≠ .push d) :
    s.EngineKept (after s i) := by
  rcases engine_cases s i with ⟨e, -⟩ | ⟨d, e, -⟩ | kept
  · exact absurd e init
  · exact absurd e (push d)
  · exact kept

/-! ### VOICED changes only by a hop -/

/-- A PUSH that completes no hop leaves VOICED as it was (R1102, R1103). -/
theorem acceptSample_wasVoiced_of_not_hopDue (x : Num) {s : State} (h : ¬ s.HopDue) :
    (acceptSample x s).wasVoiced = s.wasVoiced := by
  have skipped : hopIfDue (takeSample x s) = takeSample x s := by
    refine if_neg ?_
    rw [takeSample_inWr, fmod_natCast]
    exact h
  simp [acceptSample, skipped]

end Machine

end Sys2Proof

open Sys2Proof Sys2Proof.Machine in
/-- Settles O60: a host transaction changes its own register and nothing of the engine, INIT and PUSH nothing of the
host's. -/
theorem stateChangesOnlyByItsOwners : Obligations.StateChangesOnlyByItsOwners := by
  intro i s t e
  rw [exec_eq_after] at e
  obtain rfl := Host.Outcome.next.inj e
  have own := after_hostOwned s i
  refine ⟨own.par, own.port, own.mix.resolve_left, own.shift.resolve_left, own.tune.resolve_left,
    own.amount.resolve_left, own.glide.resolve_left, own.persist.resolve_left, own.root.resolve_left,
    own.scale.resolve_left, own.mask.resolve_left, own.normEn.resolve_left, own.fs.resolve_left,
    own.readData.resolve_left, own.epoch.resolve_left, after_configuration, fun init push => ?_⟩
  rw [after_engineKept init push]
  simp [State.withHostRegisters]

open Sys2Proof Sys2Proof.Machine in
/-- Settles O59: only a successful INIT and an accepted PUSH reach READY and VOICED, and a PUSH writes VOICED in its
hop. -/
theorem modeAndVoicingChangeOnlyAsRuled : Obligations.ModeAndVoicingChangeOnlyAsRuled := by
  intro i s t e
  rw [exec_eq_after] at e
  obtain rfl := Host.Outcome.next.inj e
  rcases engine_cases s i with ⟨init, rate, e⟩ | ⟨d, push, ready, finite, e⟩ | kept
  · exact ⟨fun _ => e ▸ rfl, fun _ _ => ⟨init, rate⟩, fun _ => .inl ⟨init, rate⟩⟩
  · rw [e, acceptSample_ready, ready]
    refine ⟨id, nofun, fun changed => .inr ⟨d, push, rfl, exponent_ne_of_isFinite32 finite, ?_⟩⟩
    exact not_imp_comm.1 (acceptSample_wasVoiced_of_not_hopDue (.bits d)) changed
  · rw [kept]
    exact ⟨id, fun clear set => absurd set (ne_true_of_eq_false clear), fun changed => absurd rfl changed⟩
end

section
/-! PROOFS. Every step keeps the memory in canonical form (log 13) and the host registers legal (spec/10_state.md R40,
R48, R49, R56, spec/43_quantizer.md R803, spec/70_reset_and_hazards.md R1404). -/

namespace Sys2Proof.Machine

/-! ### The canonical form of the memory -/

theorem after_memoryOk (i : Instr) {s : State} (h : s.MemoryOk) : (after s i).MemoryOk := by
  rcases after_cases s i with ⟨-, e⟩ | ⟨d, -, -, e⟩ | step
  · exact e ▸ initMemory_wf _ _
  · exact e ▸ acceptSample_wf _ h
  · exact (congrArg Memory.wf step.mem).trans h

/-! ### ROOT, SCALE and MASK -/

theorem State.ScaleOk.congr {s t : State} (h : s.ScaleOk) (par : t.par = s.par) (root : t.root = s.root)
    (scale : t.scale = s.scale) (mask : t.mask = s.mask) : t.ScaleOk := by
  unfold State.ScaleOk
  rw [par, root, scale, mask]
  exact h

/-- The four bits stored of a legal enumerated operand are the operand (R401). -/
theorem toNat_lowBits_le {d : Word} {top : Nat} (h : d.toNat ≤ top) : (d.extractLsb' 0 4).toNat ≤ top := by
  rw [BitVec.extractLsb'_toNat, Nat.shiftRight_zero]
  exact (Nat.mod_le _ _).trans h

theorem after_wrRoot_scaleOk (d : Word) {s : State} (h : s.ScaleOk) : (after s (.wrRoot d)).ScaleOk := by
  rcases writeEnum_cases 11 d (fun v s => recomputeMask { s with root := v }) s with ⟨legal, e⟩ | ⟨-, e⟩ <;>
    rw [after, e]
  · exact ⟨toNat_lowBits_le legal, h.2.1, rfl⟩
  · exact h

theorem after_wrScale_scaleOk (d : Word) {s : State} (h : s.ScaleOk) : (after s (.wrScale d)).ScaleOk := by
  rcases writeEnum_cases 12 d (fun v s => recomputeMask { s with scale := v }) s with ⟨legal, e⟩ | ⟨-, e⟩ <;>
    rw [after, e]
  · exact ⟨h.1, toNat_lowBits_le legal, rfl⟩
  · exact h

/-- The scale registers have two owners, and each recomputes MASK (R1211, R1212). -/
theorem after_scaleOk (i : Instr) {s : State} (h : s.ScaleOk) : (after s i).ScaleOk := by
  have own := after_hostOwned s i
  rcases own.root with root | ⟨d, rfl⟩
  · rcases own.scale with scale | ⟨d, rfl⟩
    · rcases own.mask with mask | ⟨d, rfl | rfl⟩
      · exact h.congr own.par root scale mask
      · exact after_wrRoot_scaleOk d h
      · exact after_wrScale_scaleOk d h
    · exact after_wrScale_scaleOk d h
  · exact after_wrRoot_scaleOk d h

/-! ### The parameters and the outputs -/

theorem State.operandsOk_iff (s : State) : s.OperandsOk ↔ ∀ x ∈ s.paramRegisters, Num.IsOperand x := by
  simp [State.OperandsOk, State.paramRegisters]

theorem acceptSample_paramRegisters (x : Num) (s : State) : (acceptSample x s).paramRegisters = s.paramRegisters := by
  simp [State.paramRegisters, acceptSample]

theorem after_operandsOk (i : Instr) {s : State} (h : s.OperandsOk) : (after s i).OperandsOk := by
  rw [State.operandsOk_iff] at h ⊢
  rcases after_cases s i with ⟨-, e⟩ | ⟨d, -, -, e⟩ | step
  · exact e ▸ h
  · rw [e, acceptSample_paramRegisters]
    exact h
  · exact fun x hx => (step.params x hx).elim (h x) id

theorem after_outputsEqual (i : Instr) {s : State} (h : s.OutputsEqual) : (after s i).OutputsEqual := by
  rcases engine_cases s i with ⟨-, -, e⟩ | ⟨d, -, -, -, e⟩ | kept
  · exact e ▸ rfl
  · exact e ▸ readBackAndMix_outputs _
  · rw [kept]
    exact h

end Sys2Proof.Machine

open Sys2Proof Sys2Proof.Machine in
/-- Settles O54: INIT lists every array afresh, and every write of a PUSH keeps the order of the cells. -/
theorem stepKeepsTheMemoryCanonical : Obligations.StepKeepsTheMemoryCanonical := fun _ _ =>
  step_keeps (P := State.MemoryOk) (fun _ _ h => h) fun _ i => after_memoryOk i

open Sys2Proof Sys2Proof.Machine in
/-- Settles O56: a host write stores a legal operand or is refused, and the outputs are written together. -/
theorem stepKeepsTheHostRegistersLegal : Obligations.StepKeepsTheHostRegistersLegal := fun _ _ scale operands outputs =>
  step_keeps (P := fun s => s.ScaleOk ∧ s.OperandsOk ∧ s.OutputsEqual) (fun _ _ h => h)
    (fun _ i ⟨scale, operands, outputs⟩ =>
      ⟨after_scaleOk i scale, after_operandsOk i operands, after_outputsEqual i outputs⟩)
    ⟨scale, operands, outputs⟩
end

section
/-! PROOFS. The step takes the head of the port and runs what it decodes to (spec/20_memory.md R307, log 1, log 2). -/

namespace Sys2Proof.Machine

/-- The head of the port is taken where it decodes: the rest of the queue waits, and no word is returned yet. -/
theorem takeTransaction_of_decode {s : State} {w : Txn} {rest : List Txn} {i : Instr} (port : s.port = w :: rest)
    (decoded : decode w = .ok i) : takeTransaction s = some (i, { s with port := rest, readData := none }) := by
  simp only [takeTransaction, port, decoded]

end Sys2Proof.Machine

open Sys2Proof Sys2Proof.Machine in
/-- Settles O6: the step runs what it takes from the port, and it takes the decoded head. -/
theorem stepRunsTheDecodedTransaction : Obligations.StepRunsTheDecodedTransaction := by
  intro s w rest i port decoded
  rw [step, takeTransaction_of_decode port decoded]
end

section
/-! PROOFS. Decoding and encoding are inverse (spec/30_encoding.md R402, R403): where two rows of the opcode table fit
one word, the later one would read an ill-formed transaction, so a well-formed one's own row is the first its word fits. -/

namespace Sys2Proof

/-! ### The first row that fits -/

theorem OpRow.fits_iff (r : OpRow) (w : Txn) : r.fits w = true ↔ w &&& r.mask = r.pattern := beq_iff_eq

/-- The decoder answers the transaction of a row that fits where no earlier row does. -/
theorem decode_of_first {before rest : List OpRow} {r : OpRow} {w : Txn} (table : opTable = before ++ r :: rest)
    (first : ∀ q ∈ before, ¬ q.fits w = true) (fits : r.fits w = true) : decode w = .ok (r.build w) := by
  have found : opTable.find? (·.fits w) = some r :=
    List.find?_eq_some_iff_append.2 ⟨fits, before, rest, table, fun q mem => by simpa using first q mem⟩
  simp only [decode, found]

/-- Every word fits one of the last two rows (R402). -/
theorem exists_row_fits (w : Txn) : ∃ r ∈ opTable, r.fits w = true := by
  rw [← Txn.make_fields w]
  cases w.isWrite
  · obtain ⟨r, mem, fits, -⟩ := Laws.FitsOwnRow.rd w.addr w.data
    exact ⟨r, mem, fits⟩
  · obtain ⟨r, mem, fits, -⟩ := Laws.FitsOwnRow.wrBad w.addr w.data
    exact ⟨r, mem, fits⟩

/-- Every word has a first row that it fits. -/
theorem exists_first_row (w : Txn) : ∃ before r rest, opTable = before ++ r :: rest ∧
    (∀ q ∈ before, ¬ q.fits w = true) ∧ r.fits w = true := by
  obtain ⟨r, found⟩ := Option.isSome_iff_exists.1 (List.find?_isSome.2 (exists_row_fits w))
  obtain ⟨fits, before, rest, table, first⟩ := List.find?_eq_some_iff_append.1 found
  exact ⟨before, r, rest, table, fun q mem => by simpa using first q mem, fits⟩

/-- A string of bits decodes exactly when it is 40 bits long (R405). -/
theorem decodeBits_ok_iff (n w : Nat) : (∃ i, decodeBits n w = .ok i) ↔ n = 40 := by
  unfold decodeBits
  split
  case isTrue length =>
    obtain ⟨_, r, _, table, first, fits⟩ := exists_first_row (BitVec.ofNat 40 w)
    exact iff_of_true ⟨_, decode_of_first table first fits⟩ length
  case isFalse length => exact iff_of_false (by rintro ⟨_, ⟨⟩⟩) length

/-! ### The rows and the fields of a word -/

/-- Rows 2 to 14, the rows of one write address each (R403). -/
def addressRows : List OpRow := (opTable.drop 1).take 13

theorem opTable_eq : opTable = opTable[0] :: (addressRows ++ [opTable[14], opTable[15]]) := rfl

/-- Row 1 fits one word only. -/
theorem init_fits {w : Txn} (fits : opTable[0].fits w = true) : w = 0x8100000001 := by
  have all := (OpRow.fits_iff _ _).1 fits
  rwa [show opTable[0].mask = BitVec.allOnes 40 by decide, BitVec.and_allOnes] at all

/-- A row of one write address fits the writes to that address only. -/
theorem addressRow_fits {r : OpRow} (mem : r ∈ addressRows) {w : Txn} (fits : r.fits w = true) :
    w.isWrite = true ∧ w.addr = r.pattern.addr := by
  have row : ∀ r ∈ addressRows, r.mask = 0xFF00000000 ∧ r.pattern = Txn.make true r.pattern.addr 0 := by decide
  obtain ⟨mask, pattern⟩ := row r mem
  have header : Txn.make w.isWrite w.addr 0 = Txn.make true r.pattern.addr 0 := by
    rw [← pattern, ← (OpRow.fits_iff _ _).1 fits, mask, ← Txn.make_and_header _ _ w.data, Txn.make_fields]
    rfl
  exact ⟨by simpa using congrArg Txn.isWrite header, by simpa using congrArg Txn.addr header⟩

/-- A row whose mask is the write flag alone fits the words with its flag. -/
theorem flagRow_fits {r : OpRow} {write : Bool} (mask : r.mask = 0x8000000000)
    (pattern : r.pattern = Txn.make write 0 0) {w : Txn} (fits : r.fits w = true) : w.isWrite = write := by
  have flag : Txn.make w.isWrite 0 0 = Txn.make write 0 0 := by
    rw [← pattern, ← (OpRow.fits_iff _ _).1 fits, mask, ← Txn.make_and_write _ w.addr w.data, Txn.make_fields]
    rfl
  simpa using congrArg Txn.isWrite flag

/-! ### Where two rows fit -/

theorem Instr.wrBad_wf_iff (a : Addr) (d : Word) : (Instr.wrBad a d).wf = true ↔ a ∉ writableAddrs := by
  simp [Instr.wf]

/-- The row `r` reads an ill-formed transaction from every word that `q` fits too. -/
def LaterReadsIllFormed (q r : OpRow) : Prop := ∀ w, q.fits w = true → r.fits w = true → (r.build w).wf = false

theorem init_laterReadsIllFormed :
    ∀ r ∈ addressRows ++ [opTable[14], opTable[15]], LaterReadsIllFormed opTable[0] r := by
  intro r mem w fitsInit fits
  rw [init_fits fitsInit] at fits ⊢
  have later : ∀ r ∈ addressRows ++ [opTable[14], opTable[15]],
      r.fits 0x8100000001 = true → (r.build 0x8100000001).wf = false := by decide
  exact later r mem fits

theorem addressRows_laterReadsIllFormed : addressRows.Pairwise LaterReadsIllFormed := by
  have distinct : addressRows.Pairwise fun q r => q.pattern.addr ≠ r.pattern.addr := by decide
  refine distinct.imp_of_mem fun memq memr apart w fitsq fitsr => absurd ?_ apart
  exact (addressRow_fits memq fitsq).2.symm.trans (addressRow_fits memr fitsr).2

/-- No write is of row 16. -/
theorem rd_laterReadsIllFormed {q : OpRow} (write : ∀ w, q.fits w = true → w.isWrite = true) :
    LaterReadsIllFormed q opTable[15] := fun w fitsq fitsr => by
  have read : w.isWrite = false := flagRow_fits rfl rfl fitsr
  simp [write w fitsq] at read

/-- The WR_BAD of a write that rows 2 to 14 name is ill formed. -/
theorem addressRow_laterReadsIllFormed_wrBad {q : OpRow} (mem : q ∈ addressRows) :
    LaterReadsIllFormed q opTable[14] := by
  intro w fits _
  have writable : ∀ q ∈ addressRows, q.pattern.addr ∈ writableAddrs := by decide
  have named : w.addr ∈ writableAddrs := (addressRow_fits mem fits).2 ▸ writable q mem
  exact Bool.eq_false_iff.2 fun wf => (Instr.wrBad_wf_iff w.addr w.data).1 wf named

/-- The order of the opcode table is that of R402: an earlier row takes a word from a later one only where the later one
would read an ill-formed transaction. -/
theorem opTable_laterReadsIllFormed : opTable.Pairwise LaterReadsIllFormed := by
  rw [opTable_eq, List.pairwise_cons, List.pairwise_append]
  refine ⟨init_laterReadsIllFormed, addressRows_laterReadsIllFormed, ?_, ?_⟩
  · exact List.pairwise_pair.2 (rd_laterReadsIllFormed fun _ => flagRow_fits rfl rfl)
  · intro q mem r last
    obtain rfl | rfl := List.mem_pair.1 last
    · exact addressRow_laterReadsIllFormed_wrBad mem
    · exact rd_laterReadsIllFormed fun _ fits => (addressRow_fits mem fits).1

/-! ### Decoding an encoding -/

/-- Each transaction's word fits a row that reads the transaction back (R403). -/
theorem encode_fits_own_row : ∀ i : Instr, Laws.FitsOwnRow.Statement i
  | .init => Laws.FitsOwnRow.init
  | .cmdRsvd d => Laws.FitsOwnRow.cmdRsvd d
  | .wrCtrl d => Laws.FitsOwnRow.wrCtrl d
  | .wrErr d => Laws.FitsOwnRow.wrErr d
  | .wrFs d => Laws.FitsOwnRow.wrFs d
  | .wrMix d => Laws.FitsOwnRow.wrMix d
  | .wrShift d => Laws.FitsOwnRow.wrShift d
  | .wrTune d => Laws.FitsOwnRow.wrTune d
  | .wrAmount d => Laws.FitsOwnRow.wrAmount d
  | .wrGlide d => Laws.FitsOwnRow.wrGlide d
  | .wrPersist d => Laws.FitsOwnRow.wrPersist d
  | .wrRoot d => Laws.FitsOwnRow.wrRoot d
  | .wrScale d => Laws.FitsOwnRow.wrScale d
  | .push d => Laws.FitsOwnRow.push d
  | .wrBad a d => Laws.FitsOwnRow.wrBad a d
  | .rd a d => Laws.FitsOwnRow.rd a d

/-- A well-formed transaction's own row is the first that its word fits. -/
theorem decode_encode {i : Instr} (wf : i.wf = true) : decode (encode i) = .ok i := by
  obtain ⟨r, mem, fits, build⟩ := encode_fits_own_row i
  obtain ⟨before, rest, table⟩ := List.append_of_mem mem
  have first : ∀ q ∈ before, ¬ q.fits (encode i) = true := by
    intro q earlier fitsq
    obtain ⟨-, -, order⟩ := List.pairwise_append.1 (table ▸ opTable_laterReadsIllFormed)
    have illFormed := order q earlier r List.mem_cons_self _ fitsq fits
    rw [build, wf] at illFormed
    cases illFormed
  rw [decode_of_first table first fits, build]

/-- A write to each address that rows 1 to 14 name is the word of a well-formed transaction. -/
theorem exists_wf_encode_of_writable {a : Addr} (writable : a ∈ writableAddrs) (d : Word) :
    ∃ i : Instr, i.wf = true ∧ encode i = Txn.make true a d := by
  simp only [writableAddrs, List.mem_cons, List.not_mem_nil, or_false] at writable
  obtain rfl | rfl | rfl | rfl | rfl | rfl | rfl | rfl | rfl | rfl | rfl | rfl | rfl := writable
  · exact ⟨.wrCtrl d, rfl, rfl⟩
  · by_cases one : d = 1
    · exact ⟨.init, rfl, one ▸ rfl⟩
    · exact ⟨.cmdRsvd d, bne_iff_ne.2 one, rfl⟩
  · exact ⟨.wrErr d, rfl, rfl⟩
  · exact ⟨.wrFs d, rfl, rfl⟩
  · exact ⟨.wrMix d, rfl, rfl⟩
  · exact ⟨.wrShift d, rfl, rfl⟩
  · exact ⟨.wrTune d, rfl, rfl⟩
  · exact ⟨.wrAmount d, rfl, rfl⟩
  · exact ⟨.wrGlide d, rfl, rfl⟩
  · exact ⟨.wrPersist d, rfl, rfl⟩
  · exact ⟨.wrRoot d, rfl, rfl⟩
  · exact ⟨.wrScale d, rfl, rfl⟩
  · exact ⟨.push d, rfl, rfl⟩

/-- Every word is the word of a well-formed transaction. -/
theorem exists_wf_encode (w : Txn) : ∃ i : Instr, i.wf = true ∧ encode i = w := by
  rw [← Txn.make_fields w]
  cases w.isWrite
  case false => exact ⟨.rd w.addr w.data, rfl, rfl⟩
  case true =>
    by_cases writable : w.addr ∈ writableAddrs
    · exact exists_wf_encode_of_writable writable w.data
    · exact ⟨.wrBad w.addr w.data, (Instr.wrBad_wf_iff _ _).2 writable, rfl⟩

end Sys2Proof

open Sys2Proof

/-- Settles O3: no row before a well-formed transaction's own fits its word. -/
theorem decodeInvertsEncode : Obligations.DecodeInvertsEncode := fun _ => decode_encode

/-- Settles O4: every word is the encoding of a well-formed transaction, which the decoder reads back. -/
theorem encodeInvertsDecode : Obligations.EncodeInvertsDecode := by
  intro w
  obtain ⟨i, wf, rfl⟩ := exists_wf_encode w
  exact ⟨i, decode_encode wf, wf, rfl⟩

/-- Settles O1: the last two rows fit every word, so each word has a first row that fits. -/
theorem decodeTakesTheFirstMatchingRow : Obligations.DecodeTakesTheFirstMatchingRow := by
  refine ⟨rfl, fun w => ?_, decodeBits_ok_iff⟩
  obtain ⟨before, r, rest, table, first, fits⟩ := exists_first_row w
  exact ⟨before, r, rest, table, fun q mem matched => first q mem ((q.fits_iff w).2 matched),
    (r.fits_iff w).1 fits, decode_of_first table first fits⟩

/-- Settles O2: the bit patterns are the encodings of their transactions. -/
theorem opcodeMapPatternsDecode : Obligations.OpcodeMapPatternsDecode := by
  refine ⟨decode_encode (i := .init) rfl, fun d => ?_, fun a d => ?_⟩
  · exact ⟨fun other => decode_encode (i := .cmdRsvd d) (bne_iff_ne.2 other), decode_encode (i := .wrCtrl d) rfl,
      decode_encode (i := .wrErr d) rfl, decode_encode (i := .wrFs d) rfl, decode_encode (i := .wrMix d) rfl,
      decode_encode (i := .wrShift d) rfl, decode_encode (i := .wrTune d) rfl, decode_encode (i := .wrAmount d) rfl,
      decode_encode (i := .wrGlide d) rfl, decode_encode (i := .wrPersist d) rfl, decode_encode (i := .wrRoot d) rfl,
      decode_encode (i := .wrScale d) rfl, decode_encode (i := .push d) rfl⟩
  · exact ⟨fun elsewhere => decode_encode ((Instr.wrBad_wf_iff a d).2 elsewhere), decode_encode (i := .rd a d) rfl⟩
end

section
/-! PROOFS. The ring buffers (spec/40_ring_buffers.md R500 to R508): the cell of an offset, the two operations on OB and NB,
and the input ring as the history of the accepted samples. -/

namespace Sys2Proof

/-- Numbers that differ by a multiple of n have one floor-mod (R8). -/
theorem fmod_congr {a b : Int} {n : Nat} (h : a ≡ b [ZMOD n]) : fmod a n = fmod b n := congrArg Int.toNat h

/-- A pattern whose exponent field is not all ones is finite (R11). -/
theorem isFinite32_of_exponent_ne {d : Word} (h : d.extractLsb' 23 8 ≠ 0xFF) : isFinite32 d = true :=
  bne_iff_ne.2 fun e => h (BitVec.eq_of_toNat_eq e)

namespace Machine

/-! ### Reads of OB and NB after an overlap-add and a read-back (R505, R506) -/

section
variable {s : State} (memory : s.MemoryOk)
include memory

theorem State.MemoryOk.input_wf : s.mem.input.wf = true := ((Memory.wf_iff _).1 memory).1

theorem State.MemoryOk.ob_wf : s.mem.ob.wf = true := ((Memory.wf_iff _).1 memory).2.1

theorem State.MemoryOk.nb_wf : s.mem.nb.wf = true := ((Memory.wf_iff _).1 memory).2.2.1

theorem ringAccumulate_ob_read (t : Int) (v g : Num) (i : Nat) : (ringAccumulate t v g s).mem.ob.read i =
    if i = placeCell s t then Num.add s.par.arith (s.mem.ob.read (placeCell s t)) v else s.mem.ob.read i := by
  rw [ringAccumulate_mem_ob, Store.read_write memory.ob_wf]

theorem ringAccumulate_nb_read (t : Int) (v g : Num) (i : Nat) : (ringAccumulate t v g s).mem.nb.read i =
    if i = placeCell s t then Num.add s.par.arith (s.mem.nb.read (placeCell s t)) g else s.mem.nb.read i := by
  rw [ringAccumulate_mem_nb, Store.read_write memory.nb_wf]

theorem ringClear_ob_read (i : Nat) :
    (ringClear s).mem.ob.read i = if i = s.outRd then Num.zero else s.mem.ob.read i := by
  rw [ringClear_mem_ob, Store.read_write memory.ob_wf]

theorem ringClear_nb_read (i : Nat) :
    (ringClear s).mem.nb.read i = if i = s.outRd then Num.zero else s.mem.nb.read i := by
  rw [ringClear_mem_nb, Store.read_write memory.nb_wf]

end

/-- An overlap-add touches OB and NB alone (R505). -/
theorem ringAccumulate_frame (t : Int) (v g : Num) (s : State) : ringAccumulate t v g s =
    { s with mem := { s.mem with ob := (ringAccumulate t v g s).mem.ob, nb := (ringAccumulate t v g s).mem.nb } } := rfl

/-- A read-back touches OB, NB and r alone (R506). -/
theorem ringClear_frame (s : State) : ringClear s =
    { s with
      mem := { s.mem with ob := (ringClear s).mem.ob, nb := (ringClear s).mem.nb }
      outRd := (s.outRd + 1) % s.bufLen } := by
  rw [← ringClear_outRd]
  rfl

/-! ### The input ring (R501, R502, R508) -/

theorem snapshot_eq (s : State) (k : Nat) :
    snapshot s k = s.mem.input.read (fmod ((s.inWr : Int) - 1 - k) s.bufLen) := rfl

theorem State.InputHolds.congr {s t : State} {xs : List Num} (h : s.InputHolds xs) (input : t.mem.input = s.mem.input)
    (size : t.nsize = s.nsize) (inWr : t.inWr = s.inWr) : t.InputHolds xs := by
  unfold State.InputHolds snapshot State.bufLen
  rw [input, size, inWr]
  exact h

theorem initEngine_inputHolds (s : State) : (initEngine s).InputHolds [] := fun _ _ => rfl

/-- Of a PUSH, only the input write reaches the input ring (R1102). -/
@[simp] theorem acceptSample_mem_input (x : Num) (s : State) :
    (acceptSample x s).mem.input = s.mem.input.write s.inWr x := by simp [acceptSample]

/-- After a PUSH the sample of age k is that of the cell k places before the one just written. -/
theorem snapshot_acceptSample (x : Num) (s : State) (k : Nat) : snapshot (acceptSample x s) k =
    (s.mem.input.write s.inWr x).read (fmod ((s.inWr : Int) - k) s.bufLen) := by
  have cursor : (((s.inWr + 1) % s.bufLen : Nat) : Int) - 1 - k ≡ (s.inWr : Int) - k [ZMOD s.bufLen] := by
    have moved := ((Int.mod_modEq ((s.inWr : Int) + 1) s.bufLen).sub_right 1).sub_right k
    rwa [add_sub_cancel_right] at moved
  rw [snapshot_eq, acceptSample_mem_input, acceptSample_inWr]
  simp only [State.bufLen, acceptSample_nsize] at cursor ⊢
  rw [fmod_congr cursor]

/-- The ring is N cells long: the cell of an older sample than the newest is not the one just written. -/
theorem fmod_older_ne {w n j : Nat} (h : j + 1 < n) : fmod ((w : Int) - 1 - j) n ≠ w := by
  intro same
  have multiple := dvd_sub_fmod ((w : Int) - 1 - j) (Nat.zero_lt_of_lt h)
  rw [same, show (w : Int) - 1 - j - w = -((j + 1 : Nat) : Int) by push_cast; ring, Int.dvd_neg,
    Int.natCast_dvd_natCast] at multiple
  exact absurd (Nat.le_of_dvd j.succ_pos multiple) (by omega)

theorem snapshot_acceptSample_zero {x : Num} {s : State} (memory : s.MemoryOk) (inWr : s.inWr < s.bufLen) :
    snapshot (acceptSample x s) 0 = x := by
  rw [snapshot_acceptSample, Nat.cast_zero, sub_zero, fmod_natCast, Nat.mod_eq_of_lt inWr,
    Store.read_write_same memory.input_wf]

theorem snapshot_acceptSample_succ {x : Num} {s : State} (memory : s.MemoryOk) {j : Nat} (h : j + 1 < s.bufLen) :
    snapshot (acceptSample x s) (j + 1) = snapshot s j := by
  rw [snapshot_acceptSample, show (s.inWr : Int) - (j + 1 : Nat) = s.inWr - 1 - j by push_cast; ring,
    Store.read_write_other memory.input_wf x (fmod_older_ne h), snapshot_eq]

theorem acceptSample_inputHolds {x : Num} {s : State} {xs : List Num} (memory : s.MemoryOk) (inWr : s.inWr < s.bufLen)
    (h : s.InputHolds xs) : (acceptSample x s).InputHolds (x :: xs) := by
  intro j hj
  rw [State.bufLen, acceptSample_nsize] at hj
  cases j with
  | zero => exact snapshot_acceptSample_zero memory inWr
  | succ j =>
    rw [snapshot_acceptSample_succ memory hj, List.getD_cons_succ]
    exact h j (Nat.lt_of_succ_lt hj)

/-! ### The two transactions that write the input ring -/

theorem eq_after_of_exec {i : Instr} {s t : State} (e : exec i s = .next t) : t = after s i :=
  Host.Outcome.next.inj (e.symm.trans (exec_eq_after i s))

theorem after_init_of_rate {s : State} (rate : 1400 ≤ s.fs.toNat) : after s .init = initEngine s := if_neg rate.not_gt

theorem after_push_of_finite {s : State} {d : Word} (ready : s.ready = true) (finite : isFinite32 d = true) :
    after s (.push d) = acceptSample (.bits d) s := by
  rcases pushSample_cases d s with ⟨clear, -⟩ | ⟨-, bad, -⟩ | ⟨-, -, e⟩
  · exact absurd ready (ne_true_of_eq_false clear)
  · exact absurd finite (ne_true_of_eq_false bad)
  · exact e

end Machine

end Sys2Proof

open Sys2Proof Sys2Proof.Machine in
/-- Settles O29: the sample of a PUSH goes where the newest is read, and each older one is read one place further back. -/
theorem inputRingHoldsTheHistory : Obligations.InputRingHoldsTheHistory := by
  refine ⟨fun s t rate e => ?_, fun s t d xs ready exponent memory inWr holds e => ?_,
    fun i s t xs push init holds e => ?_⟩
  · rw [eq_after_of_exec e, after_init_of_rate rate]
    exact initEngine_inputHolds s
  · rw [eq_after_of_exec e, after_push_of_finite ready (isFinite32_of_exponent_ne exponent)]
    exact acceptSample_inputHolds memory inWr holds
  · rw [eq_after_of_exec e, after_engineKept init push]
    exact holds.congr rfl rfl rfl

open Sys2Proof Sys2Proof.Machine in
/-- Settles O31: the cell is the floor-mod of the offset. -/
theorem ringIndexIsTheFloorMod : Obligations.RingIndexIsTheFloorMod := fun _ n k pos =>
  ⟨fmod k n, fmod_lt k pos, dvd_sub_fmod k pos, rfl, fun _ => rfl⟩

open Sys2Proof Sys2Proof.Machine in
/-- Settles O32: the cell `p` is `placeCell`. -/
theorem overlapAddWritesOneCell : Obligations.OverlapAddWritesOneCell := fun s t v g memory =>
  ⟨ringAccumulate_ob_read memory t v g, ringAccumulate_nb_read memory t v g, ringAccumulate_frame t v g s⟩

open Sys2Proof Sys2Proof.Machine in
/-- Settles O33: the pair is read before its cells are cleared. -/
theorem readBackClearsAndAdvances : Obligations.ReadBackClearsAndAdvances := fun s memory =>
  ⟨rfl, ringClear_ob_read memory, ringClear_nb_read memory, ringClear_frame s⟩
end

section
/-! PROOFS. The windows of INIT (spec/41_windows.md R600 to R604): what each cell of HANN, CBW and ACWINV denotes under
exact, and that only INIT writes the three arrays. -/

namespace Sys2Proof.Machine

/-! ### The sizes of the windows -/

theorem bufLenFor_pos (fs : Word) : 0 < bufLenFor fs := by
  rcases bufLenFor_cases fs with e | e <;> omega

theorem four_dvd_bufLenFor (fs : Word) : 4 ∣ bufLenFor fs := by
  rcases bufLenFor_cases fs with e | e <;> omega

/-! ### The cells of the three arrays -/

variable {ar : Arith} {n i m : Nat}

theorem hannStore_read (h : i < n) : (hannStore ar n).read i = hannAt ar n i := Store.read_ofFn _ h

theorem cbwStore_read (h : i < n) : (cbwStore ar n).read i = cbwAt ar n i := Store.read_ofFn _ h

theorem acwinvStore_read (h : m < n) :
    (acwinvStore ar n).read m = acwinvAt ar (windowAutocorr ar (cbwList ar n)) m := Store.read_ofFn _ h

/-! ### HANN and CBW (R600, R601) -/

theorem val_hannOf (i : Int) (m : Nat) :
    (hannOf .exact i m).val = 0.5 - 0.5 * Real.cos (2 * Real.pi * i / m) := by
  simp only [hannOf, Num.val_sub, Num.val_mul, Num.val_div, Num.val_cos, Num.val_ofRat, Num.val_ofInt, Num.val_pi]
  norm_num

theorem val_hannOf_zero (m : Nat) : (hannOf .exact 0 m).val = 0 := by
  rw [val_hannOf, Int.cast_zero, mul_zero, zero_div, Real.cos_zero]
  norm_num

/-- N is a multiple of 4, so that the ends N/4 and 3N/4 of the middle half are cells. -/
theorem val_cbwAt (h : 4 ∣ n) (i : Nat) : (cbwAt .exact n i).val =
    if (n : ℝ) / 4 ≤ i ∧ (i : ℝ) < 3 * (n : ℝ) / 4 then
      0.5 - 0.5 * Real.cos (2 * Real.pi * (i - n / 4) / (n / 2))
    else 0 := by
  have lower : n / 4 ≤ i ↔ (n : ℝ) / 4 ≤ i := by
    rw [← Nat.cast_le (α := ℝ), Nat.cast_div h (by norm_num), Nat.cast_ofNat]
  have upper : i < 3 * n / 4 ↔ (i : ℝ) < 3 * (n : ℝ) / 4 := by
    rw [← Nat.cast_lt (α := ℝ), Nat.cast_div (h.mul_left 3) (by norm_num), Nat.cast_mul, Nat.cast_ofNat,
      Nat.cast_ofNat]
  have half : 2 ∣ n := Nat.dvd_trans (by norm_num) h
  simp only [cbwAt, lower, upper]
  split
  · rw [val_hannOf, Int.cast_sub, Int.cast_natCast, Int.cast_natCast, Nat.cast_div h (by norm_num),
      Nat.cast_div half (by norm_num), Nat.cast_ofNat, Nat.cast_ofNat]
  · exact Num.val_zero

/-- CBW vanishes outside the open middle half: its first cell there is the zero of the Hann window. -/
theorem val_cbwAt_outside (outside : i ≤ n / 4 ∨ 3 * n / 4 ≤ i) : (cbwAt .exact n i).val = 0 := by
  unfold cbwAt
  split
  · have first : (i : Int) - (n / 4 : Nat) = 0 := by omega
    rw [first, val_hannOf_zero]
  · exact Num.val_zero

/-! ### The window autocorrelation (R602) -/

/-- `AW[m]` as a real. -/
noncomputable def windowCorrelation (n m : Nat) : ℝ :=
  ∑ i ∈ Finset.range n, (cbwAt .exact n i).val * (cbwAt .exact n ((i + m) % n)).val

/-- Under exact the circular sum of the values of `f` is the sum of the reals. -/
theorem val_circularSum_map_range (f : Nat → Num) (h : m < n) : (circularSum .exact ((List.range n).map f) m).val =
    ∑ i ∈ Finset.range n, (f i).val * (f ((i + m) % n)).val := by
  have rotated : rotate ((List.range n).map f) m = ((List.range n).map f).rotate m :=
    (List.rotate_eq_drop_append_take (by simpa using h.le)).symm
  have products : List.zipWith (Num.mul .exact) ((List.range n).map f) (rotate ((List.range n).map f) m) =
      (List.range n).map fun i => Num.mul .exact (f i) (f ((i + m) % n)) := by
    rw [rotated]
    refine List.ext_getElem (by simp) fun i _ _ => ?_
    simp [List.getElem_rotate]
  have values : (Num.val ∘ fun i => Num.mul .exact (f i) (f ((i + m) % n))) =
      fun i => (f i).val * (f ((i + m) % n)).val := funext fun i => Num.val_mul ..
  rw [circularSum, products, val_total, List.map_map, values]
  rfl

theorem val_windowAutocorr (h : m < n) :
    ((windowAutocorr .exact (cbwList .exact n)).getD m Num.zero).val = windowCorrelation n m := by
  have cell : (windowAutocorr .exact (cbwList .exact n)).getD m Num.zero = circularSum .exact (cbwList .exact n) m := by
    simp [windowAutocorr, cbwList_length, h]
  rw [cell]
  exact val_circularSum_map_range _ h

/-- Around the lag N/2 the shifted windows meet only where CBW is 0. -/
theorem windowCorrelation_eq_zero (h : 4 ∣ n) (lower : n / 2 - 1 ≤ m) (upper : m ≤ n / 2 + 1) :
    windowCorrelation n m = 0 := by
  refine Finset.sum_eq_zero fun i mem => ?_
  have inside := Finset.mem_range.1 mem
  by_cases outside : i ≤ n / 4 ∨ 3 * n / 4 ≤ i
  · rw [val_cbwAt_outside outside, zero_mul]
  · have shifted : (i + m) % n ≤ n / 4 ∨ 3 * n / 4 ≤ (i + m) % n := by
      rcases Nat.lt_or_ge (i + m) n with below | past
      · rw [Nat.mod_eq_of_lt below]
        omega
      · rw [Nat.mod_eq_sub_mod past, Nat.mod_eq_of_lt (by omega)]
        omega
    rw [val_cbwAt_outside shifted, mul_zero]

/-! ### ACWINV (R603) -/

theorem acwinvAt_zero (ar : Arith) (aw : List Num) : acwinvAt ar aw 0 = Num.one := rfl

theorem val_acwinvAt {aw : List Num} (defined : ∀ x ∈ aw, x.Defined) (nonzero : (aw.getD 0 Num.zero).val ≠ 0)
    (pos : 0 < m) : (acwinvAt .exact aw m).val =
      if 1 / 10 ^ 6 ≤ (aw.getD m Num.zero).val / (aw.getD 0 Num.zero).val then
        1 / ((aw.getD m Num.zero).val / (aw.getD 0 Num.zero).val)
      else 0 := by
  have quotient : (Num.div .exact (aw.getD m Num.zero) (aw.getD 0 Num.zero)).Defined :=
    Num.defined_divExact (Num.fits_getD (ar := .exact) defined m) (Num.fits_getD (ar := .exact) defined 0) nonzero
  have guard := Num.not_ltExact_iff (Num.defined_ofRatExact (1 / 10 ^ 6)) quotient
  have small : (Num.ofRatExact (1 / 10 ^ 6)).val = 1 / 10 ^ 6 := by
    rw [Num.val_ofRatExact]
    norm_num
  rw [small, Num.val_div] at guard
  simp only [acwinvAt, pos.ne', if_false, Num.decideLe, Num.ofRat, guard]
  split
  · rw [Num.val_div, Num.val_div, Num.val_one]
  · exact Num.val_zero

/-- ACWINV as INIT computes it from CBW. -/
theorem val_acwinvStore_read (four : 4 ∣ n) (h : m < n) (pos : 0 < m) : ((acwinvStore .exact n).read m).val =
    if 1 / 10 ^ 6 ≤ windowCorrelation n m / windowCorrelation n 0 then
      1 / (windowCorrelation n m / windowCorrelation n 0)
    else 0 := by
  have n0 : 0 < n := pos.trans h
  have defined := fits_windowAutocorr (fits_cbwList (ar := .exact) (n := n) (by omega))
  have nonzero := (windowAutocorr_zero_pos (Nat.mod_eq_zero_of_dvd four) n0).ne'
  rw [acwinvStore_read h, val_acwinvAt defined nonzero pos, val_windowAutocorr h, val_windowAutocorr n0]

/-- The cells around N/2 fall below the guard. -/
theorem val_acwinvStore_read_band (four : 4 ∣ n) (n0 : 0 < n) (lower : n / 2 - 1 ≤ m) (upper : m ≤ n / 2 + 1) :
    ((acwinvStore .exact n).read m).val = 0 := by
  rw [val_acwinvStore_read four (by omega) (by omega), windowCorrelation_eq_zero four lower upper, zero_div]
  norm_num

/-! ### What INIT and the other transactions do to the windows (R604) -/

theorem initEngine_hann (s : State) : (initEngine s).mem.hann = hannStore s.par.arith (bufLenFor s.fs) := rfl

theorem initEngine_cbw (s : State) : (initEngine s).mem.cbw = cbwStore s.par.arith (bufLenFor s.fs) := rfl

theorem initEngine_acwinv (s : State) : (initEngine s).mem.acwinv = acwinvStore s.par.arith (bufLenFor s.fs) := rfl

/-- A PUSH reads the windows only. -/
theorem acceptSample_windows (x : Num) (s : State) : (acceptSample x s).mem.hann = s.mem.hann ∧
    (acceptSample x s).mem.cbw = s.mem.cbw ∧ (acceptSample x s).mem.acwinv = s.mem.acwinv := by
  simp [acceptSample]

theorem after_windows {s : State} {i : Instr} (h : i ≠ .init) : (after s i).mem.hann = s.mem.hann ∧
    (after s i).mem.cbw = s.mem.cbw ∧ (after s i).mem.acwinv = s.mem.acwinv := by
  rcases engine_cases s i with ⟨init, -⟩ | ⟨d, -, -, -, e⟩ | kept
  · exact absurd init h
  · rw [e]
    exact acceptSample_windows _ s
  · rw [kept]
    exact ⟨rfl, rfl, rfl⟩

theorem eq_initEngine_of_exec {s t : State} (rate : 1400 ≤ s.fs.toNat) (e : exec .init s = .next t) :
    t = initEngine s := (eq_after_of_exec e).trans (after_init_of_rate rate)

end Sys2Proof.Machine

open Sys2Proof Sys2Proof.Machine in
/-- Settles O14: the cells of HANN and CBW denote the formulas of the reals. -/
theorem initComputesTheWindows : Obligations.InitComputesTheWindows := by
  intro s t arith rate e i inside
  obtain rfl := eq_initEngine_of_exec rate e
  rw [initEngine_bufLen] at inside ⊢
  constructor
  · rw [initEngine_hann, arith, hannStore_read inside, hannAt, val_hannOf, Int.cast_natCast]
  · rw [initEngine_cbw, arith, cbwStore_read inside]
    exact val_cbwAt (four_dvd_bufLenFor s.fs) i

open Sys2Proof Sys2Proof.Machine in
/-- Settles O15: the sum over the cells of CBW is the one INIT takes, and it vanishes around N/2. -/
theorem initInvertsTheWindowAutocorrelation : Obligations.InitInvertsTheWindowAutocorrelation := by
  intro s t arith rate e aw
  obtain rfl := eq_initEngine_of_exec rate e
  have size := initEngine_bufLen s
  have n0 := bufLenFor_pos s.fs
  have four := four_dvd_bufLenFor s.fs
  have sum (m : Nat) : aw m = windowCorrelation (bufLenFor s.fs) m := by
    simp only [aw, size, initEngine_cbw, arith]
    refine Finset.sum_congr rfl fun i mem => ?_
    rw [cbwStore_read (Finset.mem_range.1 mem), cbwStore_read (Nat.mod_lt _ n0)]
  simp only [size, sum, initEngine_acwinv, arith]
  refine ⟨?_, fun m => val_acwinvStore_read four, fun m => val_acwinvStore_read_band four n0⟩
  rw [acwinvStore_read n0, acwinvAt_zero, Num.val_one]

open Sys2Proof Sys2Proof.Machine in
/-- Settles O16: only INIT writes the windows, and it computes them from ARITH and the size. -/
theorem windowsChangeOnlyByInit : Obligations.WindowsChangeOnlyByInit := by
  constructor
  · intro i s t init e
    rw [eq_after_of_exec e]
    exact after_windows init
  · intro s t s' t' rate rate' e e' arith size
    obtain rfl := eq_initEngine_of_exec rate e
    obtain rfl := eq_initEngine_of_exec rate' e'
    have length : bufLenFor s.fs = bufLenFor s'.fs := by
      rw [← initEngine_bufLen, State.bufLen, size, ← initEngine_bufLen, State.bufLen]
    simp [initEngine_hann, initEngine_cbw, initEngine_acwinv, arith, length]
end

section
/-! PROOFS. The estimator (spec/42_estimator.md R700 to R709): what Z and rho denote under exact, which lag the search
picks, and what the estimate of a lag or of none denotes. -/

namespace Sys2Proof

namespace Num

theorem ofRatExact_zero : ofRatExact 0 = zero := by decide +kernel

/-- Nothing of a value is left by the factor 0, its reals that do not exist included. -/
theorem scale_zero (a : Num) : scale 0 a = zero := by
  cases a with
  | bits w => rw [scale, zero_mul, ofRatExact_zero]
  | rat q => rw [scale, zero_mul, ofRatExact_zero]
  | sum s t => rw [scale, if_pos rfl]
  | _ => exact if_pos (zero_mul _)

theorem mul_zero_left (b : Num) : mul .exact zero b = zero := by
  have numeral : asRat zero = some 0 := congrArg some dec32_zero
  simp only [mul, mulExact, numeral]
  cases asRat b with
  | some q => exact (congrArg ofRatExact (zero_mul q)).trans ofRatExact_zero
  | none => exact scale_zero b

end Num

namespace Machine

/-! ### The autocorrelation (R700) -/

theorem val_autocorr {n m : Nat} (f : Nat → Num) (h : m < n) :
    ((autocorr .exact ((List.range n).map f)).getD m Num.zero).val =
      (∑ k ∈ Finset.range n, (f k).val * (f ((k + m) % n)).val) -
        (∑ k ∈ Finset.range n, (f k).val) * (∑ k ∈ Finset.range n, (f k).val) / n := by
  have total : (Num.total .exact ((List.range n).map f)).val = ∑ k ∈ Finset.range n, (f k).val := by
    rw [val_total, List.map_map]
    rfl
  simp only [autocorr, List.length_map, List.length_range, List.getD_eq_getElem?_getD, List.getElem?_map,
    List.getElem?_range h, Option.map_some, Option.getD_some]
  rw [Num.val_sub, val_circularSum_map_range f h, Num.val_div, Num.val_mul, total, Num.val_ofInt, Int.cast_natCast]

/-- The mean's divisor is the length of the sequence, so an empty sequence alone would divide by 0, and it has no Z. -/
theorem defined_autocorr {y : List Num} (h : ∀ x ∈ y, x.Defined) : ∀ z ∈ autocorr .exact y, z.Defined := by
  cases y with
  | nil => nofun
  | cons a l => exact fits_autocorr (ar := .exact) h fun _ => by simp

section
variable {s : State} (arith : s.par.arith = .exact)
include arith

theorem windowed_exact : windowed s =
    (List.range s.bufLen).map fun k => Num.mul .exact (snapshot s k) (s.mem.cbw.read k) := by
  rw [windowed, arith]

theorem defined_windowed (input : ∀ i, (s.mem.input.read i).Defined) (cbw : ∀ i, (s.mem.cbw.read i).Defined) :
    ∀ x ∈ windowed s, x.Defined := by
  rw [windowed_exact arith]
  exact List.forall_mem_map.2 fun k _ => Num.defined_mulExact (input _) (cbw k)

theorem val_autocorr_windowed {y : Nat → ℝ} (hy : ∀ k, (snapshot s k).val * (s.mem.cbw.read k).val = y k) {m : Nat}
    (h : m < s.bufLen) : ((autocorr .exact (windowed s)).getD m Num.zero).val =
      (∑ k ∈ Finset.range s.bufLen, y k * y ((k + m) % s.bufLen)) -
        (∑ k ∈ Finset.range s.bufLen, y k) * (∑ k ∈ Finset.range s.bufLen, y k) / s.bufLen := by
  rw [windowed_exact arith, val_autocorr _ h]
  simp only [Num.val_mul, hy]

end

/-! ### The zero-energy guard (R702) -/

/-- A real is finite, and one that is 0 is not above 0, so the comparison alone decides. -/
theorem zeroEnergy_exact (epoch : Nat) (z0 : Num) : zeroEnergy .exact epoch z0 = !Num.ltExact Num.zero z0 := by
  simp only [zeroEnergy, Num.decideLe, Num.le, Num.isFinite]
  cases Num.ltExact Num.zero z0 <;> rfl

theorem zeroEnergy_iff {epoch : Nat} {z0 : Num} (h : z0.Defined) : zeroEnergy .exact epoch z0 = true ↔ z0.val ≤ 0 := by
  rw [zeroEnergy_exact, Num.not_ltExact_iff h Num.defined_zero, Num.val_zero]

section
variable {s : State} (arith : s.par.arith = .exact)
include arith

theorem estimate_of_no_energy (h : ((autocorr .exact (windowed s)).getD 0 Num.zero).Defined)
    (energy : ((autocorr .exact (windowed s)).getD 0 Num.zero).val ≤ 0) :
    estimate s = estimateOf s (rhoAt .exact (autocorr .exact (windowed s))) s.mem.acwinv.read none := by
  simp only [estimate, arith, (zeroEnergy_iff h).2 energy, if_true]

theorem estimate_of_energy (h : ((autocorr .exact (windowed s)).getD 0 Num.zero).Defined)
    (energy : 0 < ((autocorr .exact (windowed s)).getD 0 Num.zero).val) :
    estimate s = estimateOf s (rhoAt .exact (autocorr .exact (windowed s))) s.mem.acwinv.read
      (searchLag s.par s.epoch (rhoAt .exact (autocorr .exact (windowed s))) s.mem.acwinv.read s.bufLen s.nmin.toNat
        s.nmax.toNat) := by
  have guard : ¬ zeroEnergy .exact s.epoch ((autocorr .exact (windowed s)).getD 0 Num.zero) = true :=
    mt (zeroEnergy_iff h).1 energy.not_ge
  simp only [estimate, arith, if_neg guard]

end

/-! ### The normalised autocorrelation (R703) -/

theorem val_rhoAt (z : List Num) {m : Nat} (pos : 0 < m) :
    (rhoAt .exact z m).val = (z.getD m Num.zero).val / (z.getD 0 Num.zero).val := by
  rw [rhoAt, if_neg pos.ne', Num.val_div]

/-! ### The search (R704 to R706) -/

theorem mem_candidates {nmin nmax m : Nat} : m ∈ candidates nmin nmax ↔ nmin ≤ m ∧ m ≤ nmax := by
  rw [candidates, List.mem_range'_1]
  omega

theorem searchLag_mem {p : Params} {epoch n nmin nmax lag : Nat} {rho acwinv : Nat → Num}
    (h : searchLag p epoch rho acwinv n nmin nmax = some lag) : nmin ≤ lag ∧ lag ≤ nmax :=
  (scan_mem h).elim nofun mem_candidates.1

theorem isPeak_iff {epoch n lag : Nat} {v : Nat → Num} (h : ∀ m, (v m).Defined) :
    isPeak .exact epoch v n lag = true ↔
      (v (lag - 1)).val < (v lag).val ∧ (v (min (lag + 1) (n - 1))).val ≤ (v lag).val := by
  rw [isPeak, Bool.and_eq_true, Nat.max_zero]
  exact and_congr (Num.ltExact_iff (h _) (h _)) (Num.not_ltExact_iff (h _) (h _))

/-- Of the lags shown, `lag` has the greatest key, above 0, and is the first to have it (R706). -/
def FirstBest (key : Nat → ℝ) (shown : Nat → Prop) (lag : Nat) : Prop :=
  shown lag ∧ 0 < key lag ∧ ∀ m, shown m → key m ≤ key lag ∧ (m < lag → key m < key lag)

theorem FirstBest.unique {key : Nat → ℝ} {shown : Nat → Prop} {a b : Nat} (ha : FirstBest key shown a)
    (hb : FirstBest key shown b) : a = b := by
  obtain ⟨shownA, -, bestA⟩ := ha
  obtain ⟨shownB, -, bestB⟩ := hb
  rcases Nat.lt_trichotomy a b with lt | e | gt
  · exact absurd ((bestB a shownA).2 lt) (bestA b shownB).1.not_gt
  · exact e
  · exact absurd ((bestA b shownB).2 gt) (bestB a shownA).1.not_gt

/-- What the scan holds after the lags shown: the first best of them, or, where no key is above 0, none. -/
inductive ScanHolds (key : Nat → Num) (shown : Nat → Prop) : Num × Option Nat → Prop where
  | empty (low : ∀ m, shown m → (key m).val ≤ 0) : ScanHolds key shown (Num.zero, none)
  | holding {lag : Nat} (best : FirstBest (fun m => (key m).val) shown lag) : ScanHolds key shown (key lag, some lag)

namespace ScanHolds

variable {key : Nat → Num} {shown : Nat → Prop} {acc : Num × Option Nat}

/-- The value the scan holds is a real that no key shown exceeds. -/
theorem bounds (h : ScanHolds key shown acc) (defined : ∀ m, (key m).Defined) :
    acc.1.Defined ∧ 0 ≤ acc.1.val ∧ ∀ m, shown m → (key m).val ≤ acc.1.val := by
  cases h with
  | empty low => exact ⟨Num.defined_zero, Num.val_zero.ge, Num.val_zero.symm ▸ low⟩
  | holding best =>
    obtain ⟨-, pos, greatest⟩ := best
    exact ⟨defined _, pos.le, fun m hm => (greatest m hm).1⟩

/-- The scan is shown one lag more, but not as a new best. -/
theorem keep (h : ScanHolds key shown acc) {k : Nat} {added : Prop} (later : ∀ m, shown m → m < k)
    (low : added → (key k).val ≤ acc.1.val) : ScanHolds key (fun m => shown m ∨ m = k ∧ added) acc := by
  cases h with
  | empty before =>
    rw [Num.val_zero] at low
    refine .empty ?_
    rintro m (hm | ⟨rfl, hk⟩)
    · exact before m hm
    · exact low hk
  | @holding lag best =>
    obtain ⟨mem, pos, greatest⟩ := best
    refine .holding ⟨.inl mem, pos, ?_⟩
    rintro m (hm | ⟨rfl, hk⟩)
    · exact greatest m hm
    · exact ⟨low hk, fun lt => absurd lt (later lag mem).not_gt⟩

/-- A later lag with a greater key is the new best. -/
theorem replace (h : ScanHolds key shown acc) (defined : ∀ m, (key m).Defined) {k : Nat} {added : Prop} (hk : added)
    (above : acc.1.val < (key k).val) : ScanHolds key (fun m => shown m ∨ m = k ∧ added) (key k, some k) := by
  obtain ⟨-, nonneg, bound⟩ := h.bounds defined
  refine .holding ⟨.inr ⟨rfl, hk⟩, nonneg.trans_lt above, ?_⟩
  rintro m (hm | ⟨rfl, -⟩)
  · have lt := (bound m hm).trans_lt above
    exact ⟨lt.le, fun _ => lt⟩
  · exact ⟨le_rfl, fun lt => absurd lt (lt_irrefl m)⟩

theorem step (h : ScanHolds key shown acc) (defined : ∀ m, (key m).Defined) (epoch : Nat) (peak : Nat → Bool) {k : Nat}
    (later : ∀ m, shown m → m < k) :
    ScanHolds key (fun m => shown m ∨ m = k ∧ peak k = true) (scanStep .exact epoch key peak acc k) := by
  have test := Num.ltExact_iff (h.bounds defined).1 (defined k)
  unfold scanStep
  split
  · rename_i taken
    obtain ⟨hk, above⟩ := Bool.and_eq_true_iff.1 taken
    exact h.replace defined hk (test.1 above)
  · rename_i passed
    refine h.keep later fun hk => not_lt.1 fun above => passed ?_
    exact Bool.and_eq_true_iff.2 ⟨hk, test.2 above⟩

/-- The scan of `len` lags from `start` on. -/
theorem scan (defined : ∀ m, (key m).Defined) (epoch : Nat) (peak : Nat → Bool) (start len : Nat) :
    ScanHolds key (fun m => m ∈ List.range' start len ∧ peak m = true)
      ((List.range' start len).foldl (scanStep .exact epoch key peak) (Num.zero, none)) := by
  induction len with
  | zero => exact .empty fun m hm => absurd hm.1 List.not_mem_nil
  | succ len ih =>
    have next := ih.step defined epoch peak (k := start + len) fun m hm => (List.mem_range'_1.1 hm.1).2
    rw [List.range'_1_concat, List.foldl_append, List.foldl_cons, List.foldl_nil]
    convert next using 2 with m
    simp only [List.mem_append, List.mem_singleton, or_and_right]
    exact or_congr_right (and_congr_right fun e => by rw [e])

/-- What the scan answers is the first best of the lags shown. -/
theorem answer_iff (h : ScanHolds key shown acc) (lag : Nat) :
    acc.2 = some lag ↔ FirstBest (fun m => (key m).val) shown lag := by
  cases h with
  | empty low => exact iff_of_false nofun fun best => absurd best.2.1 (low lag best.1).not_gt
  | holding best => exact ⟨fun e => Option.some.inj e ▸ best, fun other => congrArg some (best.unique other)⟩

end ScanHolds

section
variable {p : Params} (arith : p.arith = .exact) {rho acwinv : Nat → Num}
include arith

theorem defined_compensated (hr : ∀ m, (rho m).Defined) (ha : ∀ m, (acwinv m).Defined) (m : Nat) :
    (compensated p.arith rho acwinv m).Defined := by
  rw [arith]
  exact Num.defined_mulExact (hr m) (ha m)

theorem val_compensated (m : Nat) : (compensated p.arith rho acwinv m).val = (rho m).val * (acwinv m).val := by
  rw [arith]
  exact Num.val_mul ..

theorem defined_rankKey (hr : ∀ m, (rho m).Defined) (ha : ∀ m, (acwinv m).Defined) (m : Nat) :
    (rankKey p rho acwinv m).Defined := by
  unfold rankKey
  cases p.peakRank with
  | raw => exact hr m
  | compensated => exact defined_compensated arith hr ha m
  | compensatedPeak => exact defined_compensated arith hr ha m

theorem defined_peakValues (hr : ∀ m, (rho m).Defined) (ha : ∀ m, (acwinv m).Defined) (m : Nat) :
    (peakValues p rho acwinv m).Defined := by
  unfold peakValues
  cases p.peakRank with
  | raw => exact hr m
  | compensated => exact hr m
  | compensatedPeak => exact defined_compensated arith hr ha m

/-- The search answers the first best of the peaks of its range. -/
theorem searchLag_iff (hr : ∀ m, (rho m).Defined) (ha : ∀ m, (acwinv m).Defined) (epoch n nmin nmax lag : Nat) :
    searchLag p epoch rho acwinv n nmin nmax = some lag ↔
      FirstBest (fun m => (rankKey p rho acwinv m).val)
        (fun m => m ∈ candidates nmin nmax ∧ isPeak .exact epoch (peakValues p rho acwinv) n m = true) lag := by
  rw [searchLag, arith]
  exact (ScanHolds.scan (defined_rankKey arith hr ha) epoch _ nmin _).answer_iff lag

end

/-! ### The estimate of a lag or of none (R707 to R709) -/

theorem val_pitchOf (tune period : Num) : (pitchOf .exact tune period).val =
    -12 * Real.logb 2 (440 * (2 : ℝ) ^ (tune.val / 12) * period.val) := by
  simp only [pitchOf, Num.val_mul, Num.val_log2, Num.val_exp2, Num.val_div, Num.val_ofInt]
  norm_num

section
variable {s : State} (arith : s.par.arith = .exact) (rho acwinv : Nat → Num)
include arith

theorem val_estimateOf_pitch (winner : Option Nat) : (estimateOf s rho acwinv winner).pitch.val =
    -12 * Real.logb 2 (440 * (2 : ℝ) ^ (s.tune.val / 12) * (estimateOf s rho acwinv winner).period.val) := by
  cases winner <;> simp only [estimateOf, arith, val_pitchOf]

theorem val_estimateOf_some_period (lag : Nat) :
    (estimateOf s rho acwinv (some lag)).period.val = lag / s.fsAct.toNat := by
  simp only [estimateOf, arith, Num.val_div, Num.val_ofInt, Int.cast_natCast]

theorem val_estimateOf_some_conf (lag : Nat) :
    (estimateOf s rho acwinv (some lag)).conf.val = (rho lag).val * (acwinv lag).val := val_compensated arith lag

theorem val_estimateOf_none_period : (estimateOf s rho acwinv none).period.val = 1 / 700 := by
  simp only [estimateOf, arith, Num.val_div, Num.val_one, Num.val_ofInt]
  norm_num

end

/-! ### Silence (R702) -/

/-- No window makes anything of a ring of zeros. -/
theorem windowed_of_silence {s : State} (arith : s.par.arith = .exact) (silent : ∀ i, s.mem.input.read i = Num.zero) :
    windowed s = (List.range s.bufLen).map fun _ => Num.zero := by
  rw [windowed_exact arith]
  refine List.map_congr_left fun k _ => ?_
  rw [snapshot_eq, silent, Num.mul_zero_left]

theorem val_autocorr_of_zeros (n : Nat) :
    ((autocorr .exact ((List.range n).map fun _ => Num.zero)).getD 0 Num.zero).val = 0 := by
  rcases n.eq_zero_or_pos with rfl | pos
  · exact Num.val_zero
  · rw [val_autocorr _ pos]
    simp

end Machine

end Sys2Proof

open Sys2Proof Sys2Proof.Machine in
/-- Settles O39: every windowed sample is 0, so Z[0] is 0 and the guard holds. -/
theorem silenceHasNoCandidate : Obligations.SilenceHasNoCandidate := by
  intro s arith silent
  have zeros := windowed_of_silence arith silent
  have defined : ∀ y ∈ windowed s, y.Defined := by
    rw [zeros]
    exact List.forall_mem_map.2 fun _ _ => Num.defined_zero
  have energy := (val_autocorr_of_zeros s.bufLen).le
  rw [← zeros] at energy
  rw [estimate_of_no_energy arith (Num.fits_getD (ar := .exact) (defined_autocorr defined) 0) energy]
  exact ⟨rfl, val_estimateOf_none_period arith .., Num.val_zero⟩

open Sys2Proof Sys2Proof.Machine in
/-- Settles O40: the scan holds the first best of the peaks it was shown, and there is only one such lag. -/
theorem searchPicksTheFirstBestPeak : Obligations.SearchPicksTheFirstBestPeak := by
  intro p epoch rho acwinv n nmin nmax lag arith hr ha key v peak
  have key_eq (m : Nat) : (rankKey p rho acwinv m).val = key m := by
    simp only [key, rankKey]
    cases p.peakRank with
    | raw => rfl
    | compensated => exact val_compensated arith m
    | compensatedPeak => exact val_compensated arith m
  have v_eq (m : Nat) : (peakValues p rho acwinv m).val = v m := by
    simp only [v, peakValues]
    cases p.peakRank with
    | raw => rfl
    | compensated => rfl
    | compensatedPeak => exact val_compensated arith m
  have peak_iff (m : Nat) :
      (m ∈ candidates nmin nmax ∧ isPeak .exact epoch (peakValues p rho acwinv) n m = true) ↔ peak m := by
    rw [isPeak_iff (defined_peakValues arith hr ha), mem_candidates, v_eq, v_eq, v_eq, and_assoc]
  rw [searchLag_iff arith hr ha]
  simp only [key_eq, peak_iff]
  rfl

open Sys2Proof Sys2Proof.Machine in
/-- Settles O41: Z and rho denote the formulas of the reals, the guard is the sign of Z[0], and the estimate of a lag or of
none is read off. -/
theorem estimateOfTheWinningLag : Obligations.EstimateOfTheWinningLag := by
  intro s arith input cbw size cell y total z zNum rho winner none' pitch
  have defined : ∀ x ∈ zNum, x.Defined := defined_autocorr (defined_windowed arith input cbw)
  have definedAt (m : Nat) : (zNum.getD m Sys2Proof.Num.zero).Defined := Num.fits_getD (ar := .exact) defined m
  have val_z (m : Nat) (h : m < s.bufLen) : (zNum.getD m Sys2Proof.Num.zero).val = z m :=
    val_autocorr_windowed arith (y := y) (fun _ => rfl) h
  have val_z0 := val_z 0 size
  refine ⟨fun m h => ⟨val_z m h, definedAt m⟩, Num.val_one, ?_, ?_, ?_, fun _ => searchLag_mem, ?_, rfl, ?_, Num.val_zero, ?_⟩
  · intro m h pos
    rw [val_rhoAt zNum pos, val_z m h, val_z0]
  · intro energy
    exact estimate_of_no_energy arith (definedAt 0) (val_z0.trans_le energy)
  · intro energy
    have above := energy.trans_eq val_z0.symm
    exact ⟨estimate_of_energy arith (definedAt 0) above, fits_rhoAt (ar := .exact) defined fun _ => above.ne'⟩
  · intro lag won
    exact ⟨rfl, val_estimateOf_some_period arith .., val_estimateOf_some_conf arith .., val_estimateOf_pitch arith ..⟩
  · exact val_estimateOf_none_period arith ..
  · rw [val_estimateOf_pitch arith, val_estimateOf_none_period arith]
end

section
/-! PROOFS. The scale mask, the distance functions and the target quantizer (spec/43_quantizer.md R800 to R807,
spec/00_scope.md R8). -/

namespace Sys2Proof

namespace Num

theorem val_decideFloor (site : Site) {a : Num} (h : a.Defined) : (decideFloor .exact site a).val = ⌊a.val⌋ := by
  rw [decideFloor, val_ofRatExact, floorExact_eq h, Rat.cast_intCast]

theorem val_abs {a : Num} (h : a.Defined) : (abs .exact a).val = |a.val| := by
  have below := ltExact_iff h defined_zero
  rw [val_zero] at below
  unfold abs
  dsimp only
  split
  · rename_i neg
    rw [val_scale, abs_of_neg (below.1 neg), Rat.cast_neg, Rat.cast_one, neg_one_mul]
  · rename_i nonneg
    rw [abs_of_nonneg (not_lt.1 (mt below.2 nonneg))]

theorem defined_abs {a : Num} (h : a.Defined) : (abs .exact a).Defined := by
  unfold abs
  dsimp only
  split
  · exact defined_scale _ h
  · exact h

end Num

/-! ### wrapTo (R8) -/

theorem val_wrapTo (site : Site) {x p : Num} (hx : x.Defined) (hp : p.Defined) (h : p.val ≠ 0) :
    (wrapTo .exact site x p).val = x.val - p.val * ⌊x.val / p.val⌋ := by
  have quotient : (Num.div .exact x p).Defined := Num.defined_divExact hx hp h
  rw [wrapTo, Num.val_sub, Num.val_mul, Num.val_decideFloor site quotient, Num.val_div]

/-- What `wrapTo` leaves of x is p times the fractional part of x / p. -/
theorem sub_mul_floor_div_eq (x : ℝ) {p : ℝ} (h : p ≠ 0) : x - p * ⌊x / p⌋ = p * Int.fract (x / p) := by
  rw [← Int.self_sub_floor, mul_sub, mul_div_cancel₀ x h]

namespace Machine

/-! ### MASK (R803) -/

theorem getElem_rotatedMask (row : BitVec 12) (root : BitVec 4) {c : Nat} (h : c < 12) :
    (rotatedMask row root)[c] = row.getLsbD (fmod ((c : Int) - root.toNat) 12) := BitVec.getElem_ofFnLE _ c h

/-- A class below the root takes its row bit from the top of the row. -/
theorem fmod_class_sub_root {c root : Nat} (hc : c < 12) (hr : root ≤ 11) :
    fmod ((c : Int) - root) 12 = if c < root then 12 - root + c else c - root := by
  split <;> exact fmod_unique (by omega) (by omega)

/-! ### The turns of a distance -/

/-- The nearest number of turns of 12, which both distance functions take off. -/
def nearestTurns (site : Site) (d : Num) : Num :=
  Num.decideFloor .exact site (Num.add .exact (Num.div .exact d (Num.ofInt .exact 12)) (Num.ofRat .exact (1 / 2)))

theorem wrappedSigned_exact (site : Site) (d : Num) : wrappedSigned .exact site d =
    Num.sub .exact d (Num.mul .exact (Num.ofInt .exact 12) (nearestTurns site d)) := rfl

theorem defined_nearestTurns (site : Site) (d : Num) : (nearestTurns site d).Defined :=
  Num.fits_decideFloor .exact site _

theorem val_nearestTurns (site : Site) {d : Num} (h : d.Defined) :
    (nearestTurns site d).val = ⌊d.val / 12 + 1 / 2⌋ := by
  have quotient : Num.Fits .exact (Num.div .exact d (Num.ofInt .exact 12)) :=
    Num.fits_div_ofInt (ar := .exact) h (by decide)
  have shifted := Num.fits_add quotient (Num.fits_ofRat .exact (1 / 2))
  rw [nearestTurns, Num.val_decideFloor site shifted, Num.val_add, Num.val_div, Num.val_ofInt, Num.val_ofRat]
  norm_num

/-! ### The wrapped signed distance (R801) -/

theorem val_wrappedSigned (site : Site) {d : Num} (h : d.Defined) :
    (wrappedSigned .exact site d).val = d.val - 12 * ⌊d.val / 12 + 1 / 2⌋ := by
  rw [wrappedSigned_exact, Num.val_sub, Num.val_mul, Num.val_ofInt, val_nearestTurns site h, Int.cast_ofNat]

theorem shortest_path_mem (d : ℝ) : -6 ≤ d - 12 * ⌊d / 12 + 1 / 2⌋ ∧ d - 12 * ⌊d / 12 + 1 / 2⌋ < 6 := by
  have lower := Int.floor_le (d / 12 + 1 / 2)
  have upper := Int.lt_floor_add_one (d / 12 + 1 / 2)
  constructor <;> linarith

/-! ### The wrapped distance (R800) -/

/-- The triangular function of R800, of the difference of a pitch and a class. -/
noncomputable def triangle (d : ℝ) : ℝ := |d / 6 - 2 * ⌊d / 12 + 1 / 2⌋|

/-- It is twice the distance to the nearest integer, on the scale of one turn. -/
theorem triangle_eq (d : ℝ) : triangle d = 2 * |d / 12 - round (d / 12)| := by
  rw [triangle, ← round_eq, ← abs_two, ← abs_mul, abs_two]
  congr 1
  ring

theorem triangle_nonneg (d : ℝ) : 0 ≤ triangle d := abs_nonneg _

theorem triangle_le_one (d : ℝ) : triangle d ≤ 1 := by
  rw [triangle_eq]
  linarith [abs_sub_round (d / 12)]

theorem triangle_add_turns (d : ℝ) (k : Int) : triangle (d + 12 * k) = triangle d := by
  have turns : (d + 12 * k) / 12 = d / 12 + k := by ring
  rw [triangle_eq, triangle_eq, turns, round_add_intCast, Int.cast_add, add_sub_add_right_eq_sub]

theorem triangle_eq_zero_iff (d : ℝ) : triangle d = 0 ↔ ∃ k : Int, d = 12 * k := by
  constructor
  · intro h
    rw [triangle_eq, mul_eq_zero_iff_left two_ne_zero, abs_eq_zero, sub_eq_zero] at h
    exact ⟨round (d / 12), by rw [← h]; ring⟩
  · rintro ⟨k, rfl⟩
    rw [← zero_add (12 * (k : ℝ)), triangle_add_turns]
    norm_num [triangle]

/-- The triangular function as the model computes it. -/
def foldedDistance (site : Site) (d : Num) : Num :=
  Num.abs .exact (Num.sub .exact (Num.div .exact d (Num.ofInt .exact 6))
    (Num.mul .exact (Num.ofInt .exact 2) (nearestTurns site d)))

theorem wrappedDistance_exact (site : Site) (x : Num) (c : Nat) : wrappedDistance .exact site x c =
    foldedDistance site (Num.sub .exact x (Num.ofInt .exact c)) := rfl

theorem foldedDistance_spec (site : Site) {d : Num} (h : d.Defined) :
    (foldedDistance site d).Defined ∧ (foldedDistance site d).val = triangle d.val := by
  have sixths : Num.Fits .exact (Num.div .exact d (Num.ofInt .exact 6)) :=
    Num.fits_div_ofInt (ar := .exact) h (by decide)
  have signed := Num.fits_sub sixths (Num.fits_mul (Num.fits_ofInt .exact 2) (defined_nearestTurns site d))
  refine ⟨Num.defined_abs signed, (Num.val_abs signed).trans ?_⟩
  rw [Num.val_sub, Num.val_div, Num.val_mul, Num.val_ofInt, Num.val_ofInt, val_nearestTurns site h, triangle,
    Int.cast_ofNat, Int.cast_ofNat]

theorem wrappedDistance_spec (site : Site) {x : Num} (h : x.Defined) (c : Nat) :
    (wrappedDistance .exact site x c).Defined ∧ (wrappedDistance .exact site x c).val = triangle (x.val - c) := by
  have folded := foldedDistance_spec site (Num.fits_sub (ar := .exact) h (Num.fits_ofInt .exact c))
  rwa [← wrappedDistance_exact, Num.val_sub, Num.val_ofInt, Int.cast_natCast] at folded

/-! ### The scores (R805) -/

theorem defined_classScore (epoch : Nat) {x : Num} (h : x.Defined) (mask : BitVec 12) (c : Nat) :
    (classScore .exact epoch x mask c).Defined := by
  refine Num.fits_sub (ar := .exact) ?_ (wrappedDistance_spec _ h c).1
  split
  · exact Num.defined_one
  · exact Num.defined_zero

theorem val_classScore (epoch : Nat) {x : Num} (h : x.Defined) (mask : BitVec 12) (c : Nat) :
    (classScore .exact epoch x mask c).val = (if mask.getLsbD c then 1 else 0) - triangle (x.val - c) := by
  rw [classScore, Num.val_sub, (wrappedDistance_spec _ h c).2, apply_ite Num.val, Num.val_one, Num.val_zero]

/-! ### The argmax (R806) -/

/-- Of the classes below `n`, `q` has the greatest score and is the last to have it. -/
def LastBest (score : Nat → ℝ) (n q : Nat) : Prop :=
  q < n ∧ ∀ c < n, score c ≤ score q ∧ (q < c → score c < score q)

namespace LastBest

variable {score : Nat → ℝ} {n q : Nat}

theorem first (score : Nat → ℝ) : LastBest score 1 0 := by
  refine ⟨one_pos, fun c hc => ?_⟩
  obtain rfl := Nat.lt_one_iff.1 hc
  exact ⟨le_rfl, fun lt => absurd lt (lt_irrefl 0)⟩

/-- A further class with a smaller score leaves the best. -/
theorem keep (h : LastBest score n q) (below : score n < score q) : LastBest score (n + 1) q := by
  obtain ⟨hq, best⟩ := h
  refine ⟨Nat.lt_succ_of_lt hq, fun c hc => ?_⟩
  rcases Nat.lt_succ_iff_lt_or_eq.1 hc with lt | rfl
  · exact best c lt
  · exact ⟨below.le, fun _ => below⟩

/-- A further class with at least the best score is the new best. -/
theorem replace (h : LastBest score n q) (reach : score q ≤ score n) : LastBest score (n + 1) n := by
  refine ⟨Nat.lt_succ_self n, fun c hc => ⟨?_, fun lt => absurd lt (Nat.lt_succ_iff.1 hc).not_gt⟩⟩
  rcases Nat.lt_succ_iff_lt_or_eq.1 hc with lt | rfl
  · exact (h.2 c lt).1.trans reach
  · exact le_rfl

/-- The scan shows the classes in order, and holds the last best of those shown with its score. -/
theorem scan (epoch : Nat) {score : Nat → Num} (defined : ∀ c, (score c).Defined) (n : Nat) :
    ∃ q, (List.range' 1 n).foldl (argmaxStep .exact epoch score) (score 0, 0) = (score q, q) ∧
      LastBest (fun c => (score c).val) (n + 1) q := by
  induction n with
  | zero => exact ⟨0, rfl, first _⟩
  | succ n ih =>
    obtain ⟨q, held, best⟩ := ih
    rw [List.range'_1_concat, List.foldl_append, held, add_comm 1 n, List.foldl_cons, List.foldl_nil, argmaxStep]
    have test := Num.not_ltExact_iff (defined q) (defined (n + 1))
    split
    · rename_i reach
      exact ⟨n + 1, rfl, best.replace (test.1 reach)⟩
    · rename_i below
      exact ⟨q, rfl, best.keep (not_le.1 (mt test.2 below))⟩

end LastBest

theorem quantize_lastBest (epoch : Nat) {x : Num} (h : x.Defined) (mask : BitVec 12) :
    LastBest (fun c => (classScore .exact epoch x mask c).val) 12 (quantize .exact epoch x mask) := by
  obtain ⟨q, held, best⟩ := LastBest.scan epoch (defined_classScore epoch h mask) 11
  rw [quantize, held]
  exact best

end Machine

end Sys2Proof

open Sys2Proof Sys2Proof.Machine in
/-- Settles O23: bit by bit, by whether the class lies below the root. -/
theorem maskIsTheRowRotatedLeft : Obligations.MaskIsTheRowRotatedLeft := by
  intro row root legal
  ext c hc
  rw [getElem_rotatedMask row root hc, fmod_class_sub_root hc legal, BitVec.getElem_or, BitVec.getElem_shiftLeft,
    BitVec.getElem_ushiftRight]
  by_cases below : c < root.toNat
  · simp [below]
  · have beyond : row.getLsbD (12 - root.toNat + c) = false := BitVec.getLsbD_of_ge _ _ (by omega)
    rw [beyond]
    simp [below, BitVec.getLsbD_eq_getElem (show c - root.toNat < 12 by omega)]

open Sys2Proof Sys2Proof.Machine in
/-- Settles O42: the wrapped distance is the triangular function of the pitch less the class. -/
theorem wrappedDistanceIsTriangular : Obligations.WrappedDistanceIsTriangular := by
  intro site x c hx wd
  have formula : wd = triangle (x.val - c) := (wrappedDistance_spec site hx c).2
  rw [formula]
  refine ⟨rfl, triangle_nonneg _, triangle_le_one _, triangle_eq_zero_iff _, fun other y k hy turned => ?_⟩
  rw [(wrappedDistance_spec other hy c).2, turned, add_sub_right_comm, triangle_add_turns]

open Sys2Proof Sys2Proof.Machine in
/-- Settles O43: the floor of d / 12 + 1/2 takes off the nearest turns, that of x / p leaves a fractional part. -/
theorem wrappedSignedIsTheShortestPath : Obligations.WrappedSignedIsTheShortestPath := by
  constructor
  · intro site d hd ws
    have formula : ws = d.val - 12 * ⌊d.val / 12 + 1 / 2⌋ := val_wrappedSigned site hd
    rw [formula]
    exact ⟨rfl, shortest_path_mem d.val⟩
  · intro site x p hx hp w
    have formula : p.val ≠ 0 → w = x.val - p.val * ⌊x.val / p.val⌋ := val_wrapTo site hx hp
    refine ⟨formula, fun pos => ?_⟩
    rw [formula pos.ne', sub_mul_floor_div_eq x.val pos.ne']
    exact ⟨mul_nonneg pos.le (Int.fract_nonneg _), mul_lt_of_lt_one_right pos (Int.fract_lt_one _)⟩

open Sys2Proof Sys2Proof.Machine in
/-- Settles O44: the scan holds the last best of the classes it was shown, and each score denotes its formula. -/
theorem quantizePicksTheLastBestClass : Obligations.QuantizePicksTheLastBestClass := by
  intro epoch x mask hx score q
  have formula (c : Nat) : (classScore .exact epoch x mask c).val = score c := val_classScore epoch hx mask c
  have best := quantize_lastBest epoch hx mask
  simp only [formula] at best
  exact ⟨fun c _ => formula c, best⟩
end

section
/-! PROOFS. The smoother (spec/44_smoother.md R900 to R910): what the decay and glide factors, the correction and RATIO
denote under exact, and the voicing threshold under f32. -/

namespace Sys2Proof

/-- A multiple of 12 taken off a value of one octave, `wrapTo` gives back. -/
theorem wrap_sub_turns {q : ℝ} (nonneg : 0 ≤ q) (below : q < 12) (turns : Int) :
    q - 12 * turns - 12 * ⌊(q - 12 * turns) / 12⌋ = q := by
  have quotient : (q - 12 * turns) / 12 = q / 12 - turns := by ring
  have octave : Int.fract (q / 12) = q / 12 := Int.fract_eq_self.2 ⟨by positivity, by linarith⟩
  rw [sub_mul_floor_div_eq _ (by norm_num), quotient, Int.fract_sub_intCast, octave]
  ring

/-! ### The neighbours of a binary32 value (R11) -/

/-- No pattern's value lies strictly between those of two neighbouring magnitude patterns. -/
theorem next_le_of_lt_dec32 {p : Nat} {w : Word} (above : (magnitudeUnits p : ℚ) / 2 ^ 150 < dec32 w) :
    (magnitudeUnits (p + 1) : ℚ) / 2 ^ 150 ≤ dec32 w := by
  have positive : 0 < dec32 w := lt_of_le_of_lt (by positivity) above
  have units : dec32 w = magnitudeUnits (w.toNat % 2 ^ 31) / 2 ^ 150 := by
    rw [← abs_of_pos positive, abs_dec32, unitsOf_eq]
  rw [units, div_lt_div_iff_of_pos_right (by positivity), Nat.cast_lt, magnitudeUnits_strictMono.lt_iff_lt] at above
  rw [units]
  gcongr
  exact magnitudeUnits_strictMono.monotone above

theorem le32_of_finite {a b : Word} (ha : isFinite32 a = true) (hb : isFinite32 b = true) :
    le32 a b = true ↔ dec32 a ≤ dec32 b := by
  simp [le32, isNaN32_of_finite ha, isNaN32_of_finite hb]

/-! ### The voicing threshold (R900) -/

theorem encRat_four_fifths : encRat (4 / 5) = 0x3F4CCCCD := by decide +kernel

theorem dec32_four_fifths : dec32 0x3F4CCCCD = magnitudeUnits 0x3F4CCCCD / 2 ^ 150 := by decide +kernel

/-- 4/5 lies between the pattern nearest to it and the one below. -/
theorem four_fifths_between : (magnitudeUnits 0x3F4CCCCC : ℚ) / 2 ^ 150 < 4 / 5 ∧ 4 / 5 ≤ dec32 0x3F4CCCCD := by
  rw [dec32_four_fifths]
  norm_num [magnitudeUnits]

theorem dec32_four_fifths_le_iff (w : Word) : dec32 0x3F4CCCCD ≤ dec32 w ↔ 4 / 5 ≤ dec32 w := by
  obtain ⟨below, above⟩ := four_fifths_between
  refine ⟨above.trans, fun reach => ?_⟩
  rw [dec32_four_fifths]
  exact next_le_of_lt_dec32 (p := 0x3F4CCCCC) (below.trans_le reach)

namespace Machine

section
variable {s : State} (arith : s.par.arith = .exact)
include arith

/-! ### The decay powers (R6, R903, R904) -/

theorem val_hopDuration : (hopDuration s).val = (s.hopLen : ℝ) / s.fsAct.toNat := by
  rw [hopDuration, arith, Num.val_ofRat, Rat.mkRat_eq_div]
  push_cast
  rfl

theorem val_decayPower (base : Rat) (time : Num) :
    (decayPower s base time).val = (base : ℝ) ^ (((s.hopLen : ℝ) / s.fsAct.toNat) / time.val) := by
  rw [decayPower, arith, Num.val_pow, Num.val_ofRat, Num.val_div, val_hopDuration arith]

/-- The test of a time that both factors begin with. -/
theorem zero_lt_time_iff {time : Num} (h : time.Defined) : Num.lt s.par.arith Num.zero time = true ↔ 0 < time.val := by
  rw [arith]
  have test := Num.ltExact_iff Num.defined_zero h
  rwa [Num.val_zero] at test

/-! ### The persist decay (R904) -/

theorem val_decayFactor_of_pos (h : s.persist.Defined) (pos : 0 < s.persist.val) :
    (decayFactor s).val = (1 / 2 : ℝ) ^ (((s.hopLen : ℝ) / s.fsAct.toNat) / s.persist.val) := by
  rw [decayFactor, if_pos ((zero_lt_time_iff arith h).2 pos), val_decayPower arith]
  norm_num

theorem val_decayFactor_of_nonpos (h : s.persist.Defined) (nonpos : s.persist.val ≤ 0) : (decayFactor s).val = 0 := by
  rw [decayFactor, if_neg (mt (zero_lt_time_iff arith h).1 nonpos.not_gt), Num.val_zero]

/-- A decay leaves the factor of the next one as it was, so that the factors gather to a power. -/
theorem val_persistDecay_iterate (k : Nat) :
    (persistDecay^[k] s).persistAmt.val = s.persistAmt.val * (decayFactor s).val ^ k := by
  induction k generalizing s with
  | zero => simp
  | succ k ih =>
    have once : (persistDecay s).persistAmt.val = s.persistAmt.val * (decayFactor s).val := by
      rw [persistDecay, arith, Num.val_mul]
    have factor : decayFactor (persistDecay s) = decayFactor s := rfl
    rw [Function.iterate_succ_apply, ih (s := persistDecay s) arith, once, factor, pow_succ', mul_assoc]

/-! ### The glide (R903, R905) -/

theorem glideFactor_of_nonpos (h : s.glide.Defined) (nonpos : s.glide.val ≤ 0) : glideFactor s = Num.one := by
  rw [glideFactor, if_neg (mt (zero_lt_time_iff arith h).1 nonpos.not_gt)]

/-- With no glide time SMOOTH makes the whole way, and misses the target by whole octaves only. -/
theorem glideStep_snaps (glide : s.glide.Defined) (nonpos : s.glide.val ≤ 0) (smooth : s.smooth.Defined) :
    (glideStep s).smooth.Defined ∧ ∃ turns : Int, (glideStep s).smooth.val = s.qtarget.toNat - 12 * turns := by
  have distance : (Num.sub .exact (targetNum s) s.smooth).Defined := by
    rw [targetNum, arith]
    exact Num.fits_sub (ar := .exact) (Num.fits_ofInt ..) smooth
  simp only [glideStep, arith, glideFactor_of_nonpos arith glide nonpos]
  constructor
  · exact Num.fits_add (ar := .exact) smooth (Num.fits_mul (Num.fits_wrappedSigned _ distance) (Num.fits_one _))
  · refine ⟨⌊(Num.sub .exact (targetNum s) s.smooth).val / 12 + 1 / 2⌋, ?_⟩
    rw [Num.val_add, Num.val_mul, Num.val_one, val_wrappedSigned _ distance, Num.val_sub]
    simp only [targetNum, arith, Num.val_ofInt, Int.cast_natCast]
    ring

theorem val_recordVoicing_smooth (voiced : Bool) (h : s.smooth.Defined) :
    (recordVoicing voiced s).smooth.val = s.smooth.val - 12 * ⌊s.smooth.val / 12⌋ := by
  have twelve : (Num.ofInt .exact 12).val = 12 := by simp
  simp only [recordVoicing, arith]
  rw [val_wrapTo _ h (Num.fits_ofInt .exact 12) (by rw [twelve]; norm_num), twelve]

/-! ### The correction and RATIO (R907, R908) -/

theorem val_correctionOf_voiced (smooth : s.smooth.Defined) (pitch : s.estPitch.Defined) :
    (correctionOf true s).val = (s.smooth.val - s.estPitch.val) -
      12 * ⌊(s.smooth.val - s.estPitch.val) / 12 + 1 / 2⌋ := by
  rw [correctionOf, if_pos rfl, arith, val_wrappedSigned _ (Num.fits_sub (ar := .exact) smooth pitch), Num.val_sub]

theorem val_ratioOf (correction : Num) :
    (ratioOf s correction).val = (2 : ℝ) ^ ((s.shift.val + s.amount.val * correction.val) / 12) := by
  simp [ratioOf, arith]

end

theorem val_correctionOf_unvoiced (s : State) : (correctionOf false s).val = 0 := Num.val_zero

theorem voicingBranch_of_voiced {s : State} (h : s.wasVoiced = true) : voicingBranch true s = glideStep s := by
  simp only [voicingBranch, h]

end Machine

end Sys2Proof

open Sys2Proof Sys2Proof.Machine in
/-- Settles O45: each decay multiplies by one factor, which is the power of 1/2, or 0. -/
theorem persistDecayCompounds : Obligations.PersistDecayCompounds := by
  intro s k arith defined
  rw [val_persistDecay_iterate arith, val_persistDecay_iterate arith]
  constructor
  · intro pos
    rw [val_decayFactor_of_pos arith defined pos]
  · intro nonpos
    rw [val_decayFactor_of_nonpos arith defined nonpos, pow_succ, mul_zero, mul_zero]

open Sys2Proof Sys2Proof.Machine in
/-- Settles O46: the whole glide ends whole octaves from the target, which the wrap takes off. -/
theorem glideSnapsWithoutGlideTime : Obligations.GlideSnapsWithoutGlideTime := by
  intro s arith glide nonpos smooth legal wasVoiced
  obtain ⟨defined, turns, snapped⟩ := glideStep_snaps arith glide nonpos smooth
  rw [voicingBranch_of_voiced wasVoiced, val_recordVoicing_smooth (s := glideStep s) arith true defined, snapped]
  exact wrap_sub_turns (Nat.cast_nonneg _) (by exact_mod_cast legal) turns

open Sys2Proof Sys2Proof.Machine in
/-- Settles O47: the correction is the shortest path of R801, and RATIO a power of two. -/
theorem ratioIsThePowerOfTwo : Obligations.RatioIsThePowerOfTwo := by
  intro s voiced arith correction d
  have ratio : (setRatio voiced s).ratio.val = (2 : ℝ) ^ ((s.shift.val + s.amount.val * correction) / 12) :=
    val_ratioOf arith _
  refine ⟨?_, ?_, ratio, ratio ▸ Real.rpow_pos_of_pos two_pos _⟩
  · rintro rfl smooth pitch
    have path : correction = d - 12 * ⌊d / 12 + 1 / 2⌋ := val_correctionOf_voiced arith smooth pitch
    exact ⟨path, path ▸ shortest_path_mem d⟩
  · rintro rfl
    exact val_correctionOf_unvoiced s

open Sys2Proof in
/-- Settles O53: 4/5 lies between its nearest binary32 value and the neighbour below, and no confidence strictly between
them. -/
theorem f32VoicingThresholdIsFourFifths : Obligations.F32VoicingThresholdIsFourFifths := by
  intro w finite
  show le32 (encRat (4 / 5)) w = true ↔ 4 / 5 ≤ dec32 w
  rw [encRat_four_fifths, le32_of_finite (by decide) finite, dec32_four_fifths_le_iff]
end

section
/-! PROOFS. The shifter (spec/45_shifter.md R1000 to R1012): the grain an input wrap captures, the length, the indices and
the placement of a grain, and the mix of the outputs. -/

namespace Sys2Proof.Machine

/-! ### The input wrap (R1002, R1003) -/

theorem inputWrap_of_wrap {s : State} (h : Num.le s.par.arith Num.one s.phaseIn = true) :
    inputWrap s = extractGrain { s with phaseIn := Num.sub s.par.arith s.phaseIn Num.one } := if_pos h

theorem inputWrap_of_no_wrap {s : State} (h : Num.le s.par.arith Num.one s.phaseIn = false) : inputWrap s = s :=
  if_neg (ne_true_of_eq_false h)

theorem extractGrain_frag_read (s : State) {j : Nat} (h : j < s.bufLen) :
    (extractGrain s).mem.frag.read j = grainRead s j := Store.read_ofFn (grainRead s) h

/-- No cell past the N of FRAG is listed (R20). -/
theorem extractGrain_frag_read_past (s : State) {j : Nat} (h : s.bufLen ≤ j) :
    (extractGrain s).mem.frag.read j = Num.zero := Store.read_ofFn_past (grainRead s) h

/-! ### The grain (R1005 to R1007) -/

/-- The floor of the quotient of two integers, the first of them computed (R1006). -/
theorem floorExact_div_ofInt {x : Num} {k n : Int} (defined : x.Defined) (value : x.val = k) (pos : 0 < n) :
    Num.floorExact (Num.div .exact x (Num.ofInt .exact n)) = ⌊(k : ℚ) / n⌋ := by
  have divisor : (Num.ofInt .exact n).val ≠ 0 := by
    rw [Num.val_ofInt]
    exact_mod_cast pos.ne'
  have quotient : (Num.div .exact x (Num.ofInt .exact n)).val = ((k / n : ℚ) : ℝ) := by
    rw [Num.val_div, Num.val_ofInt, value]
    norm_cast
  rw [Num.floorExact_eq (Num.fits_div (ar := .exact) defined (Num.fits_ofInt .exact n) fun _ => divisor), quotient,
    Rat.floor_cast]

/-- A position between -h and h - 1, with h = S div 2, has its taper in the window (R1006). -/
theorem taper_index_mem {n : Nat} {samples t : Int} (even : n % 2 = 0) (size : 0 < n)
    (pos : 0 < samples) (lo : -(samples / 2) ≤ t) (hi : t < samples / 2) :
    0 ≤ (n / 2 : Nat) + ⌊((t * n : Int) : ℚ) / samples⌋ ∧ (n / 2 : Nat) + ⌊((t * n : Int) : ℚ) / samples⌋ < (n : Int) := by
  obtain ⟨m, rfl⟩ : ∃ m, n = 2 * m := ⟨n / 2, by omega⟩
  have divisor : (0 : ℚ) < samples := by exact_mod_cast pos
  have start : -(m : Int) ≤ ⌊((t * (2 * m : Nat) : Int) : ℚ) / samples⌋ := by
    rw [Int.le_floor, le_div_iff₀ divisor]
    have : -(m : Int) * samples ≤ t * (2 * m : Nat) := by
      push_cast
      nlinarith [show -samples ≤ 2 * t by omega]
    exact_mod_cast this
  have stop : ⌊((t * (2 * m : Nat) : Int) : ℚ) / samples⌋ < (m : Int) := by
    rw [Int.floor_lt, div_lt_iff₀ divisor]
    have : t * (2 * m : Nat) < (m : Int) * samples := by
      push_cast
      nlinarith [show 2 * t < samples by omega]
    exact_mod_cast this
  omega

section
variable {s : State} (arith : s.par.arith = .exact)
include arith

theorem grainSamples_exact (ratio : s.ratio.Defined) (pos : 0 < s.ratio.val) :
    grainSamples s = ⌊(grainDuration s : ℝ) / s.ratio.val⌋ := by
  have defined : (Num.div .exact (Num.ofInt .exact (grainDuration s)) s.ratio).Defined :=
    Num.fits_div (ar := .exact) (Num.fits_ofInt .exact _) ratio fun _ => pos.ne'
  rw [grainSamples, arith, Num.decideFloorInt, Num.floorExact_eq defined, Num.val_div, Num.val_ofInt, Int.cast_natCast]

theorem taperAt_exact {samples : Int} (t : Int) (pos : 0 < samples) : taperAt s samples t =
    ringRead s.mem.hann s.bufLen ((s.bufLen / 2 : Nat) + ⌊((t * s.bufLen : Int) : ℚ) / samples⌋) := by
  have defined : (Num.mul .exact (Num.ofInt .exact t) (Num.ofInt .exact s.bufLen)).Defined :=
    Num.fits_mul (ar := .exact) (Num.fits_ofInt .exact _) (Num.fits_ofInt .exact _)
  have value : (Num.mul .exact (Num.ofInt .exact t) (Num.ofInt .exact s.bufLen)).val = ((t * s.bufLen : Int) : ℝ) := by
    rw [Num.val_mul, Num.val_ofInt, Num.val_ofInt, Int.cast_mul]
  simp only [taperAt, arith, Num.decideFloorInt, floorExact_div_ofInt defined value pos]

theorem fragmentAt_exact (t : Int) (ratio : s.ratio.Defined) :
    fragmentAt s t = ringRead s.mem.frag s.bufLen ⌊s.ratio.val * t⌋ := by
  have defined : (Num.mul .exact s.ratio (Num.ofInt .exact t)).Defined :=
    Num.fits_mul (ar := .exact) ratio (Num.fits_ofInt .exact _)
  simp only [fragmentAt, arith, Num.decideFloorInt, Num.floorExact_eq defined, Num.val_mul, Num.val_ofInt]

end

/-- A grain of no samples has no position, and only FRAG_SIZE is reset (R1005). -/
theorem placeGrain_of_no_samples {s : State} (h : grainSamples s = 0) : placeGrain s = { s with fragSize := 0 } := by
  rw [placeGrain, h]
  rfl

/-! ### The placement of every position (R1005) -/

/-- A cell of an array to which a value is added at cell `p` gains that value or nothing. -/
theorem val_added_at (b : Store) (p i : Nat) (v : Num) :
    (if i = p then Num.add .exact (b.read p) v else b.read i).val = (b.read i).val + if p = i then v.val else 0 := by
  by_cases e : p = i
  · rw [if_pos e.symm, if_pos e, e, Num.val_add]
  · rw [if_neg (Ne.symm e), if_neg e, add_zero]

/-- `u` is `s` with some positions of a grain placed: OB and NB alone differ, and the memory is canonical. -/
structure State.PlacedFrom (s u : State) : Prop where
  memory : u.MemoryOk
  frame : u = { s with mem := { s.mem with ob := u.mem.ob, nb := u.mem.nb } }

namespace State.PlacedFrom

variable {s u : State}

theorem refl (memory : s.MemoryOk) : s.PlacedFrom s := ⟨memory, rfl⟩

theorem placeSample (h : s.PlacedFrom u) (samples t : Int) : s.PlacedFrom (placeSample samples u t) := by
  refine ⟨placeSample_wf samples t h.memory, ?_⟩
  rw [Machine.placeSample, ringAccumulate_frame, h.frame]

/-- The cell, the taper and the grain value of a position are the same all along a placement. -/
theorem same_contribution (h : s.PlacedFrom u) (samples t : Int) :
    u.par = s.par ∧ placeCell u t = placeCell s t ∧ taperAt u samples t = taperAt s samples t ∧
      fragmentAt u t = fragmentAt s t := by
  rw [h.frame]
  exact ⟨rfl, rfl, rfl, rfl⟩

theorem foldl (samples : Int) (l : List Int) (h : s.PlacedFrom u) :
    s.PlacedFrom (l.foldl (Machine.placeSample samples) u) := by
  induction l generalizing u with
  | nil => exact h
  | cons t l ih => exact ih (h.placeSample samples t)

/-- What grows at every position by a gain of that position grows over a list of positions by the sum of their gains. -/
theorem foldl_gain {samples : Int} {measure : State → ℝ} {gain : Int → ℝ}
    (step : ∀ u t, s.PlacedFrom u → measure (Machine.placeSample samples u t) = measure u + gain t) (l : List Int)
    (h : s.PlacedFrom u) : measure (l.foldl (Machine.placeSample samples) u) = measure u + (l.map gain).sum := by
  induction l generalizing u with
  | nil => simp
  | cons t l ih => rw [List.foldl_cons, ih (h.placeSample samples t), step u t h, List.map_cons, List.sum_cons, add_assoc]

section
variable (arith : s.par.arith = .exact) (h : s.PlacedFrom u)
include arith h

theorem val_ob_placeSample (samples t : Int) (i : Nat) : ((Machine.placeSample samples u t).mem.ob.read i).val =
    (u.mem.ob.read i).val +
      if placeCell s t = i then (fragmentAt s t).val * (taperAt s samples t).val else 0 := by
  obtain ⟨par, cell, taper, fragment⟩ := h.same_contribution samples t
  rw [Machine.placeSample, ringAccumulate_ob_read h.memory, par, arith, cell, taper, fragment, val_added_at,
    Num.val_mul]

theorem val_nb_placeSample (samples t : Int) (i : Nat) : ((Machine.placeSample samples u t).mem.nb.read i).val =
    (u.mem.nb.read i).val + if placeCell s t = i then (taperAt s samples t).val else 0 := by
  obtain ⟨par, cell, taper, -⟩ := h.same_contribution samples t
  rw [Machine.placeSample, ringAccumulate_nb_read h.memory, par, arith, cell, taper, val_added_at]

end

end State.PlacedFrom

/-- The positions of a placement are the integers from -h to h - 1. -/
theorem sum_grainPositions (samples : Int) (f : Int → ℝ) :
    ((grainPositions samples).map f).sum = ∑ t ∈ Finset.Ico (-(samples / 2)) (samples / 2), f t := by
  rw [Int.Ico_eq_finset_map, Finset.sum_map, sub_neg_eq_add, ← two_mul, grainPositions, List.map_map,
    ← List.toFinset_range, List.sum_toFinset _ List.nodup_range]
  congr 2
  funext j
  exact congrArg f (neg_add_eq_sub _ _).symm

/-- What grows at every position that addresses a cell by a gain grows over the placement by the sum of those gains. -/
theorem placeGrain_gain {s : State} (memory : s.MemoryOk) {measure : State → ℝ} {gain : Int → ℝ} {i : Nat}
    (whole : ∀ u : State, measure { u with fragSize := 0 } = measure u)
    (step : ∀ u t, s.PlacedFrom u → measure (placeSample (grainSamples s) u t) =
      measure u + if placeCell s t = i then gain t else 0) :
    measure (placeGrain s) = measure s +
      ∑ t ∈ (Finset.Ico (-(grainSamples s / 2)) (grainSamples s / 2)).filter (fun t => placeCell s t = i), gain t := by
  rw [placeGrain, whole, (State.PlacedFrom.refl memory).foldl_gain step, sum_grainPositions, Finset.sum_filter]

theorem placeGrain_frame {s : State} (memory : s.MemoryOk) : placeGrain s = { s with
    fragSize := 0, mem := { s.mem with ob := (placeGrain s).mem.ob, nb := (placeGrain s).mem.nb } } := by
  have placed := (State.PlacedFrom.refl memory).foldl (grainSamples s) (grainPositions (grainSamples s))
  exact congrArg (fun u : State => { u with fragSize := 0 }) placed.frame

/-! ### The read-back and the mix (R1009 to R1012) -/

/-- The dry sample is the cell at w, which the read-back leaves (R504, R1010). -/
theorem readBackAndMix_outL (s : State) : (readBackAndMix s).outL =
    mixSample s (wetSample s (s.mem.ob.read s.outRd) (s.mem.nb.read s.outRd)) (s.mem.input.read s.inWr) := rfl

section
variable {s : State} (arith : s.par.arith = .exact)
include arith

theorem val_mixSample (wet dry : Num) :
    (mixSample s wet dry).val = s.mix.val * wet.val + (1 - s.mix.val) * dry.val := by
  rw [mixSample, arith, Num.val_add, Num.val_mul, Num.val_mul, Num.val_sub, Num.val_one]

/-- The test of R1009, on the reals. -/
theorem half_lt_iff {nrm : Num} (h : nrm.Defined) :
    Num.decideLt s.par.arith (s.site .normalise) (Num.ofRat s.par.arith (1 / 2)) nrm = true ↔ 1 / 2 < nrm.val := by
  rw [arith, Num.decideLt, Num.ltExact_iff (Num.fits_ofRat .exact (1 / 2)) h, Num.val_ofRat]
  norm_num

theorem val_wetSample_of_normalised (acc : Num) {nrm : Num} (h : nrm.Defined) (enabled : s.normEn = true)
    (above : 1 / 2 < nrm.val) : (wetSample s acc nrm).val = acc.val / nrm.val := by
  rw [wetSample, if_pos (Bool.and_eq_true_iff.2 ⟨enabled, (half_lt_iff arith h).2 above⟩), arith, Num.val_div]

theorem wetSample_of_plain (acc : Num) {nrm : Num} (h : nrm.Defined) (plain : s.normEn = false ∨ nrm.val ≤ 1 / 2) :
    wetSample s acc nrm = acc := by
  refine if_neg fun test => ?_
  obtain ⟨enabled, above⟩ := Bool.and_eq_true_iff.1 test
  rcases plain with disabled | low
  · exact absurd enabled (ne_true_of_eq_false disabled)
  · exact low.not_gt ((half_lt_iff arith h).1 above)

/-- With MIX = 0 nothing of the wet sample is heard (R1012). -/
theorem val_readBackAndMix_outL_of_mix_zero (mix : s.mix.val = 0) :
    (readBackAndMix s).outL.val = (s.mem.input.read s.inWr).val := by
  rw [readBackAndMix_outL, val_mixSample arith, mix]
  ring

end

@[simp] theorem acceptSample_mix (x : Num) (s : State) : (acceptSample x s).mix = s.mix := by simp [acceptSample]

theorem acceptSample_outputs (x : Num) (s : State) : (acceptSample x s).outL = (acceptSample x s).outR :=
  readBackAndMix_outputs _

/-- With MIX = 0 the output of a PUSH is the cell at the cursor it leaves (R1012). -/
theorem val_acceptSample_outL_of_mix_zero {x : Num} {s : State} (arith : s.par.arith = .exact) (mix : s.mix.val = 0) :
    (acceptSample x s).outL.val = (dryTap (acceptSample x s)).val := by
  have same := val_readBackAndMix_outL_of_mix_zero
    (s := outputWrap (inputWrap (advancePhases (hopIfDue (takeSample x s))))) (by simpa using arith) (by simpa using mix)
  rw [dryTap, acceptSample, readBackAndMix_mem_input, readBackAndMix_inWr]
  exact same

/-- The cell at the cursor is the oldest of the ring, of age N - 1 (R502, R504). -/
theorem dryTap_eq_snapshot {s : State} (inWr : s.inWr < s.bufLen) : dryTap s = snapshot s (s.bufLen - 1) := by
  have oldest : fmod ((s.inWr : Int) - 1 - (s.bufLen - 1 : Nat)) s.bufLen = s.inWr :=
    fmod_unique inWr ⟨-1, by omega⟩
  rw [snapshot_eq, oldest, dryTap]

end Sys2Proof.Machine

open Sys2Proof Sys2Proof.Machine in
/-- Settles O34: FRAG is filled anew from the input ring, which the wrap does not touch. -/
theorem inputWrapCapturesTheGrain : Obligations.InputWrapCapturesTheGrain := by
  refine fun s _ => ⟨fun wrap => ?_, inputWrap_of_no_wrap⟩
  rw [inputWrap_of_wrap wrap]
  exact ⟨rfl, fun j => extractGrain_frag_read _, fun j => extractGrain_frag_read_past _, rfl⟩

open Sys2Proof Sys2Proof.Machine in
/-- Settles O36: a quotient of a smaller by a larger real has the floor 0, so the grain has no position. -/
theorem grainLengthIsTheFloor : Obligations.GrainLengthIsTheFloor := by
  intro s arith defined pos
  refine ⟨grainSamples_exact arith defined pos, fun exceeds => placeGrain_of_no_samples ?_⟩
  rw [grainSamples_exact arith defined pos, Int.floor_eq_zero_iff]
  exact ⟨by positivity, (div_lt_one pos).2 exceeds⟩

open Sys2Proof Sys2Proof.Machine in
/-- Settles O37: inside the window the ring index of the taper is the index itself. -/
theorem taperAndGrainIndices : Obligations.TaperAndGrainIndices := by
  intro s samples t arith size even ratio pos lo hi
  obtain ⟨start, stop⟩ := taper_index_mem even size pos lo hi
  refine ⟨start, stop, ?_, fragmentAt_exact arith t ratio⟩
  rw [taperAt_exact arith t pos, ringRead, fmod, Int.emod_eq_of_lt start stop]

open Sys2Proof Sys2Proof.Machine in
/-- Settles O35: a position adds to one cell, and reads nothing that an earlier one wrote. -/
theorem placementAddsEveryPosition : Obligations.PlacementAddsEveryPosition := by
  intro s arith memory
  refine ⟨fun i => ?_, fun i => ?_, placeGrain_frame memory⟩
  · exact placeGrain_gain memory (measure := fun u => (u.mem.ob.read i).val) (fun _ => rfl)
      fun u t placed => placed.val_ob_placeSample arith (grainSamples s) t i
  · exact placeGrain_gain memory (measure := fun u => (u.mem.nb.read i).val) (fun _ => rfl)
      fun u t placed => placed.val_nb_placeSample arith (grainSamples s) t i

open Sys2Proof Sys2Proof.Machine in
/-- Settles O38: the two cases are those of the normalisation test. -/
theorem outputIsTheMixOfWetAndDry : Obligations.OutputIsTheMixOfWetAndDry := by
  intro s arith defined
  refine ⟨fun enabled above => ?_, fun plain => ?_, (readBackAndMix_outputs s).symm⟩
  · rw [readBackAndMix_outL, val_mixSample arith, val_wetSample_of_normalised arith _ defined enabled above]
  · rw [readBackAndMix_outL, val_mixSample arith, wetSample_of_plain arith _ defined plain]

open Sys2Proof Sys2Proof.Machine in
/-- Settles O30: the output is the oldest sample of the ring, which holds d in front of the history (O29). -/
theorem mixZeroGivesTheDelayedInput : Obligations.MixZeroGivesTheDelayedInput := by
  intro s t d xs arith mix ready exponent memory inWr holds e
  rw [eq_after_of_exec e, after_push_of_finite ready (isFinite32_of_exponent_ne exponent)]
  refine ⟨?_, (acceptSample_outputs _ s).symm⟩
  have size : (acceptSample (.bits d) s).bufLen = s.bufLen := by simp [State.bufLen]
  have pos : 0 < s.bufLen := Nat.zero_lt_of_lt inWr
  have cursor : (acceptSample (.bits d) s).inWr < (acceptSample (.bits d) s).bufLen := by
    rw [acceptSample_inWr, size]
    exact Nat.mod_lt _ pos
  have oldest := acceptSample_inputHolds (x := .bits d) memory inWr holds (s.bufLen - 1) (by omega)
  rw [val_acceptSample_outL_of_mix_zero arith mix, dryTap_eq_snapshot cursor, size, oldest]
end

section
/-! PROOFS. The sample step (spec/46_sample_step.md R1100 to R1104): what an accepted PUSH does around its hop, and the hop
it runs. -/

namespace Sys2Proof

/-- An integer is rounded as the rational it is (R9, log 9). -/
theorem Num.ofInt_natCast (ar : Arith) (n : Nat) : Num.ofInt ar n = Num.ofRat ar n := by
  rw [Num.ofInt, Int.cast_natCast]

theorem Num.ofInt_ofNat (ar : Arith) (n : Nat) [n.AtLeastTwo] : Num.ofInt ar ofNat(n) = Num.ofRat ar ofNat(n) := by
  rw [Num.ofInt, Int.cast_ofNat]

namespace Machine

/-! ### The output wrap and the read-back (R1004, R1009 to R1011) -/

theorem outputWrap_of_wrap {s : State} (h : Num.le s.par.arith Num.one s.phaseOut = true) :
    outputWrap s = placeGrain { s with phaseOut := Num.sub s.par.arith s.phaseOut Num.one } := if_pos h

theorem outputWrap_of_no_wrap {s : State} (h : Num.le s.par.arith Num.one s.phaseOut = false) : outputWrap s = s :=
  if_neg (ne_true_of_eq_false h)

/-- A read-back writes OB, NB, r and the outputs alone. -/
theorem readBackAndMix_eq (s : State) : readBackAndMix s =
    { s with
      mem := { s.mem with ob := s.mem.ob.write s.outRd Num.zero, nb := s.mem.nb.write s.outRd Num.zero }
      outRd := (s.outRd + 1) % s.bufLen
      outL := (readBackAndMix s).outL
      outR := (readBackAndMix s).outL } := by
  rw [← readBackAndMix_outRd]
  rfl

/-! ### The advance (R1000, R1001) -/

@[simp] theorem advancePhases_fragSize (s : State) : (advancePhases s).fragSize = s.fragSize + 1 := rfl

@[simp] theorem advancePhases_phaseIn (s : State) :
    (advancePhases s).phaseIn = Num.add s.par.arith s.phaseIn s.phaseInc := rfl

@[simp] theorem advancePhases_phaseOut (s : State) : (advancePhases s).phaseOut =
    Num.add s.par.arith s.phaseOut (Num.mul s.par.arith s.phaseInc s.ratio) := rfl

/-! ### What the wraps write (R1002 to R1005) -/

theorem inputWrap_phaseIn (s : State) : (inputWrap s).phaseIn =
    if Num.le s.par.arith Num.one s.phaseIn then Num.sub s.par.arith s.phaseIn Num.one else s.phaseIn :=
  apply_ite State.phaseIn _ _ _

theorem inputWrap_frag_read (s : State) {j : Nat} (size : j < s.bufLen) : (inputWrap s).mem.frag.read j =
    if Num.le s.par.arith Num.one s.phaseIn then grainRead s j else s.mem.frag.read j := by
  cases h : Num.le s.par.arith Num.one s.phaseIn
  · rw [inputWrap_of_no_wrap h]
    rfl
  · rw [inputWrap_of_wrap h]
    exact extractGrain_frag_read _ size

theorem outputWrap_phaseOut (s : State) : (outputWrap s).phaseOut =
    if Num.le s.par.arith Num.one s.phaseOut then Num.sub s.par.arith s.phaseOut Num.one else s.phaseOut := by
  rw [outputWrap, apply_ite State.phaseOut, placeGrain_phaseOut]

theorem outputWrap_fragSize (s : State) : (outputWrap s).fragSize =
    if Num.le s.par.arith Num.one s.phaseOut then 0 else s.fragSize := by
  rw [outputWrap, apply_ite State.fragSize, placeGrain_fragSize]

/-! ### When the hop runs (R1102, R1103) -/

theorem takeSample_eq_withSample (x : Num) (s : State) : takeSample x s = s.withSample x := by
  have cursor := takeSample_inWr x s
  rw [takeSample, ringPush] at cursor ⊢
  rw [State.withSample, ← cursor]

theorem hopIfDue_of_hopDue (x : Num) {s : State} (h : s.HopDue) : hopIfDue (takeSample x s) =
    { onHop (s.withSample x) with hopCount := s.hopCount + 1 } := by
  rw [takeSample_eq_withSample, hopIfDue, if_pos (by rw [fmod_natCast]; exact h)]
  simp [State.withSample]

theorem hopIfDue_of_not_hopDue (x : Num) {s : State} (h : ¬ s.HopDue) : hopIfDue (takeSample x s) = s.withSample x := by
  rw [takeSample_eq_withSample, hopIfDue, if_neg (by rw [fmod_natCast]; exact h)]

/-- `s` with the registers of `t` that a PUSH writes after its hop. -/
def State.withShifterOf (s t : State) : State :=
  { s with
    phaseIn := t.phaseIn
    phaseOut := t.phaseOut
    fragSize := t.fragSize
    outRd := t.outRd
    outL := t.outL
    outR := t.outR
    mem := t.mem }

/-- After its hop a PUSH writes the registers of the shifter and the outputs alone (R1102). -/
theorem acceptSample_eq_withShifterOf (x : Num) (s : State) :
    acceptSample x s = (hopIfDue (takeSample x s)).withShifterOf (acceptSample x s) := by
  apply State.ext <;> simp [State.withShifterOf, acceptSample]

/-! ### What the hop leaves (R1104) -/

section
variable (s : State)

/-- The decision of the hop of this state (R900). -/
def State.hopVoiced : Bool := isVoiced s.par.arith s.epoch (estimate s)

/-- The state in which the hop decides its branch: the estimate and the target of this one (R1104). -/
def State.targeted : State := quantizeStep (writeEstimate (estimate s) s)

theorem onHop_eq : onHop s = refreshPeriod s.hopVoiced (setRatio s.hopVoiced (recordVoicing s.hopVoiced
    (voicingBranch s.hopVoiced s.targeted))) := rfl

theorem onHop_estimate : (onHop s).estLag = BitVec.ofNat 32 (estimate s).lag ∧
    (onHop s).estPeriod = (estimate s).period ∧ (onHop s).estPitch = (estimate s).pitch ∧
    (onHop s).estConf = (estimate s).conf := by
  simp [onHop_eq, State.targeted, writeEstimate]

theorem onHop_qtarget :
    (onHop s).qtarget = BitVec.ofNat 4 (quantize s.par.arith s.epoch (estimate s).pitch s.mask) := by
  simp [onHop_eq, State.targeted, quantizeStep, writeEstimate]

theorem onHop_wasVoiced : (onHop s).wasVoiced = s.hopVoiced := by
  simp [onHop_eq, recordVoicing]

theorem targetNum_targeted : targetNum s.targeted = Num.ofRat s.par.arith (onHop s).qtarget.toNat := by
  rw [onHop_qtarget]
  exact Num.ofInt_natCast _ _

/-- SMOOTH is what the branch leaves, wrapped by 12 (R905). -/
theorem onHop_smooth : (onHop s).smooth = wrapTo s.par.arith (s.site .smoothWrap)
    (voicingBranch s.hopVoiced s.targeted).smooth (Num.ofRat s.par.arith 12) := by
  simp [onHop_eq, recordVoicing, State.targeted, ← Num.ofInt_ofNat]

theorem onHop_persistAmt : (onHop s).persistAmt = (voicingBranch s.hopVoiced s.targeted).persistAmt := by
  simp [onHop_eq]

theorem onHop_correction : (onHop s).correction =
    if s.hopVoiced then
      wrappedSigned s.par.arith (s.site .correction) (Num.sub s.par.arith (onHop s).smooth (estimate s).pitch)
    else Num.zero := by
  simp [onHop_eq, setRatio, correctionOf, State.targeted, writeEstimate]

theorem onHop_ratio : (onHop s).ratio = Num.exp2 s.par.arith (Num.div s.par.arith
    (Num.add s.par.arith s.shift (Num.mul s.par.arith s.amount (onHop s).correction)) (Num.ofRat s.par.arith 12)) := by
  simp [onHop_eq, setRatio, ratioOf, State.targeted, ← Num.ofInt_ofNat]

/-- Only a voiced hop refreshes the period (R909). -/
theorem onHop_period_of_voiced (h : s.hopVoiced = true) : (onHop s).periodNom = (estimate s).period ∧
    (onHop s).phaseInc = Num.div s.par.arith Num.one
      (Num.mul s.par.arith (Num.ofRat s.par.arith s.fsAct.toNat) (estimate s).period) := by
  simp [onHop_eq, h, refreshPeriod, ← Num.ofInt_natCast, State.targeted, writeEstimate]

theorem onHop_period_of_unvoiced (h : s.hopVoiced = false) :
    (onHop s).periodNom = s.periodNom ∧ (onHop s).phaseInc = s.phaseInc := by
  simp [onHop_eq, h, refreshPeriod, State.targeted]

end

/-! ### The branches of R901 -/

theorem voicingBranch_of_onset {s : State} (h : s.wasVoiced = false) : voicingBranch true s = blend s := by
  simp only [voicingBranch, h]

theorem voicingBranch_of_unvoiced (s : State) : voicingBranch false s = persistDecay s := by
  cases h : s.wasVoiced <;> simp only [voicingBranch, h]

section
variable {s : State}

/-- Unvoiced to voiced: the blend (R902). -/
theorem onHop_of_onset (before : s.wasVoiced = false) (now : s.hopVoiced = true) :
    (onHop s).smooth = wrapTo s.par.arith (s.site .smoothWrap)
      (Num.add s.par.arith
        (Num.mul s.par.arith (Num.sub s.par.arith Num.one s.persistAmt) (Num.ofRat s.par.arith (onHop s).qtarget.toNat))
        (Num.mul s.par.arith s.persistAmt s.smooth)) (Num.ofRat s.par.arith 12) ∧
    (onHop s).persistAmt = Num.one := by
  rw [onHop_smooth, onHop_persistAmt, ← targetNum_targeted, now, voicingBranch_of_onset (s := s.targeted) before]
  exact ⟨rfl, rfl⟩

/-- Voiced to voiced: the glide (R903). -/
theorem onHop_of_sustained (before : s.wasVoiced = true) (now : s.hopVoiced = true) :
    (onHop s).smooth = wrapTo s.par.arith (s.site .smoothWrap)
      (Num.add s.par.arith s.smooth (Num.mul s.par.arith
        (wrappedSigned s.par.arith (s.site .glide)
          (Num.sub s.par.arith (Num.ofRat s.par.arith (onHop s).qtarget.toNat) s.smooth)) (glideFactor s)))
      (Num.ofRat s.par.arith 12) ∧
    (onHop s).persistAmt = s.persistAmt := by
  rw [onHop_smooth, onHop_persistAmt, ← targetNum_targeted, now, voicingBranch_of_voiced (s := s.targeted) before]
  exact ⟨rfl, rfl⟩

/-- An unvoiced hop: the persist decay (R904). -/
theorem onHop_of_unvoiced (now : s.hopVoiced = false) :
    (onHop s).smooth = wrapTo s.par.arith (s.site .smoothWrap) s.smooth (Num.ofRat s.par.arith 12) ∧
    (onHop s).persistAmt = Num.mul s.par.arith s.persistAmt (decayFactor s) := by
  rw [onHop_smooth, onHop_persistAmt, now, voicingBranch_of_unvoiced]
  exact ⟨rfl, rfl⟩

end

/-! ### What an accepted PUSH leaves (R1102) -/

section
variable (x : Num) (s : State)

/-- The state of an accepted PUSH before its output wrap (R1102). -/
def State.beforePlacement : State := inputWrap (advancePhases (hopIfDue (takeSample x s)))

theorem acceptSample_eq : acceptSample x s = readBackAndMix (outputWrap (s.beforePlacement x)) := rfl

theorem beforePlacement_par : (s.beforePlacement x).par = s.par := by simp [State.beforePlacement]

theorem beforePlacement_outRd : (s.beforePlacement x).outRd = s.outRd := by simp [State.beforePlacement]

theorem beforePlacement_fragSize : (s.beforePlacement x).fragSize = s.fragSize + 1 := by
  simp [State.beforePlacement]

theorem beforePlacement_phaseOut : (s.beforePlacement x).phaseOut = Num.add s.par.arith s.phaseOut
    (Num.mul s.par.arith (acceptSample x s).phaseInc (acceptSample x s).ratio) := by
  simp [State.beforePlacement, acceptSample]

theorem acceptSample_phaseIn : (acceptSample x s).phaseIn =
    if Num.le s.par.arith Num.one (Num.add s.par.arith s.phaseIn (acceptSample x s).phaseInc) then
      Num.sub s.par.arith (Num.add s.par.arith s.phaseIn (acceptSample x s).phaseInc) Num.one
    else Num.add s.par.arith s.phaseIn (acceptSample x s).phaseInc := by
  simp [acceptSample, inputWrap_phaseIn]

end

/-- The state `s` after an accepted PUSH, as its output wrap found it: the grain count, r, the outputs, OB and NB are those
before the placement and the read-back, PHASE_OUT is the one the wrap leaves. -/
def State.rewoundFrom (s t : State) : State :=
  { t with
    fragSize := s.fragSize + 1
    outRd := s.outRd
    outL := s.outL
    outR := s.outR
    mem := { t.mem with ob := s.mem.ob, nb := s.mem.nb } }

section
variable (x : Num) (s : State)

/-- The placement and the read-back write nothing but what is rewound, and PHASE_OUT. -/
theorem rewoundFrom_acceptSample : s.rewoundFrom (acceptSample x s) =
    { s.beforePlacement x with phaseOut := (acceptSample x s).phaseOut } := by
  apply State.ext
  case mem => apply Memory.ext <;> simp [State.rewoundFrom, acceptSample, State.beforePlacement]
  all_goals simp [State.rewoundFrom, acceptSample, State.beforePlacement]

/-- The placement of an output wrap, from the state a PUSH leaves. -/
theorem outputWrap_beforePlacement : outputWrap (s.beforePlacement x) =
    if Num.le s.par.arith Num.one (s.beforePlacement x).phaseOut then placeGrain (s.rewoundFrom (acceptSample x s))
    else s.rewoundFrom (acceptSample x s) := by
  rw [← beforePlacement_par x, rewoundFrom_acceptSample, acceptSample_eq, readBackAndMix_phaseOut, outputWrap_phaseOut]
  cases h : Num.le (s.beforePlacement x).par.arith Num.one (s.beforePlacement x).phaseOut
  · exact outputWrap_of_no_wrap h
  · exact outputWrap_of_wrap h

theorem acceptSample_phaseOut : (acceptSample x s).phaseOut =
    if Num.le s.par.arith Num.one (s.beforePlacement x).phaseOut then
      Num.sub s.par.arith (s.beforePlacement x).phaseOut Num.one
    else (s.beforePlacement x).phaseOut := by
  rw [← beforePlacement_par x, acceptSample_eq, readBackAndMix_phaseOut, outputWrap_phaseOut]

theorem acceptSample_fragSize : (acceptSample x s).fragSize =
    if Num.le s.par.arith Num.one (s.beforePlacement x).phaseOut then 0 else s.fragSize + 1 := by
  rw [← beforePlacement_par x, ← beforePlacement_fragSize x, acceptSample_eq, readBackAndMix_fragSize,
    outputWrap_fragSize]

/-- The outputs mix the cell at the old r, which the placement has reached and the read-back has not, with the cell at the
new w (R1009 to R1011). -/
theorem acceptSample_outL : (acceptSample x s).outL = mixSample s
    (wetSample (s.withSample x) ((outputWrap (s.beforePlacement x)).mem.ob.read s.outRd)
      ((outputWrap (s.beforePlacement x)).mem.nb.read s.outRd))
    ((acceptSample x s).mem.input.read (acceptSample x s).inWr) := by
  rw [acceptSample_eq, readBackAndMix_outL]
  simp [mixSample, wetSample, State.beforePlacement, State.withSample]

end

section
variable {x : Num} {s : State}

theorem acceptSample_frag_read {j : Nat} (size : j < s.bufLen) : (acceptSample x s).mem.frag.read j =
    if Num.le s.par.arith Num.one (Num.add s.par.arith s.phaseIn (acceptSample x s).phaseInc) then
      ringRead (acceptSample x s).mem.input s.bufLen (((acceptSample x s).inWr : Int) - (s.bufLen / 2 : Nat) + j)
    else s.mem.frag.read j := by
  have captured := inputWrap_frag_read (advancePhases (hopIfDue (takeSample x s))) (j := j)
    (by simpa [State.bufLen] using size)
  simpa [acceptSample, grainRead, State.bufLen] using captured

theorem acceptSample_frag_of_no_wrap
    (h : Num.le s.par.arith Num.one (Num.add s.par.arith s.phaseIn (acceptSample x s).phaseInc) = false) :
    (acceptSample x s).mem.frag = s.mem.frag := by
  have kept := inputWrap_of_no_wrap (s := advancePhases (hopIfDue (takeSample x s))) (by simpa [acceptSample] using h)
  simp [acceptSample, kept]

section
variable (memory : s.MemoryOk)
include memory

theorem placed_memoryOk : (outputWrap (s.beforePlacement x)).MemoryOk := by
  apply outputWrap_wf
  apply inputWrap_wf
  rw [advancePhases_mem, hopIfDue_mem]
  exact takeSample_wf x memory

theorem acceptSample_input_read (i : Nat) :
    (acceptSample x s).mem.input.read i = if i = s.inWr then x else s.mem.input.read i := by
  rw [acceptSample_mem_input, Store.read_write memory.input_wf]

theorem acceptSample_ob_read (i : Nat) : (acceptSample x s).mem.ob.read i =
    if i = s.outRd then Num.zero else (outputWrap (s.beforePlacement x)).mem.ob.read i := by
  rw [acceptSample_eq, readBackAndMix_mem, ringClear_ob_read (placed_memoryOk memory), outputWrap_outRd,
    beforePlacement_outRd]

theorem acceptSample_nb_read (i : Nat) : (acceptSample x s).mem.nb.read i =
    if i = s.outRd then Num.zero else (outputWrap (s.beforePlacement x)).mem.nb.read i := by
  rw [acceptSample_eq, readBackAndMix_mem, ringClear_nb_read (placed_memoryOk memory), outputWrap_outRd,
    beforePlacement_outRd]

end

end

end Machine

end Sys2Proof

open Sys2Proof Sys2Proof.Machine in
/-- Settles O26: every phase test is on the registers the hop leaves, and the output wrap is that of the state rewound to
it. -/
theorem acceptedPushAdvancesTheStream : Obligations.AcceptedPushAdvancesTheStream := by
  intro s d ready exponent memory
  refine ⟨acceptSample (.bits d) s, ?_, ?_⟩
  · rw [exec_eq_after, after_push_of_finite ready (isFinite32_of_exponent_ne exponent)]
  have placed := outputWrap_beforePlacement (.bits d) s
  have phaseOut := acceptSample_phaseOut (.bits d) s
  have fragSize := acceptSample_fragSize (.bits d) s
  have ob := acceptSample_ob_read (x := .bits d) memory
  have nb := acceptSample_nb_read (x := .bits d) memory
  have outL := acceptSample_outL (.bits d) s
  rw [beforePlacement_phaseOut] at placed phaseOut fragSize
  rw [placed] at ob nb outL
  refine ⟨acceptSample_input_read memory, acceptSample_inWr _ s, acceptSample_outRd _ s, ?_, ?_, acceptSample_phaseIn _ s,
    phaseOut, fragSize, fun _ => acceptSample_frag_read, acceptSample_frag_of_no_wrap, ob, nb, outL,
    (acceptSample_outputs _ s).symm, ?_⟩
  all_goals simp [acceptSample]

open Sys2Proof Sys2Proof.Machine in
/-- Settles O27: of the operations of R1102 only the input write, the advance and the read-back act. -/
theorem pushWithoutHopOrWrapIsReadBack : Obligations.PushWithoutHopOrWrapIsReadBack := by
  intro s d add sub mul one half w phaseIn phaseOut acc nrm wet dry y ready exponent notDue noInput noOutput
  have noExtraction : inputWrap (advancePhases (s.withSample (.bits d))) = advancePhases (s.withSample (.bits d)) :=
    inputWrap_of_no_wrap noInput
  have noPlacement : outputWrap (advancePhases (s.withSample (.bits d))) = advancePhases (s.withSample (.bits d)) :=
    outputWrap_of_no_wrap noOutput
  rw [exec_eq_after, after_push_of_finite ready (isFinite32_of_exponent_ne exponent), acceptSample,
    hopIfDue_of_not_hopDue _ notDue, noExtraction, noPlacement, readBackAndMix_eq, readBackAndMix_outL]
  rfl

open Sys2Proof Sys2Proof.Machine in
/-- Settles O28: what a PUSH writes after its hop is none of the hop's registers, and each of these has its formula. -/
theorem hopRunsExactlyWhenDue : Obligations.HopRunsExactlyWhenDue := by
  intro s t d ready exponent e
  obtain ⟨r, rfl⟩ : ∃ r, t = (hopIfDue (takeSample (.bits d) s)).withShifterOf r := by
    rw [eq_after_of_exec e, after_push_of_finite ready (isFinite32_of_exponent_ne exponent)]
    exact ⟨_, acceptSample_eq_withShifterOf _ s⟩
  refine ⟨fun due => ?_, fun notDue => ?_⟩
  · rw [hopIfDue_of_hopDue _ due]
    have onset := onHop_of_onset (s := s.withSample (.bits d))
    have sustained := onHop_of_sustained (s := s.withSample (.bits d))
    have unvoiced := onHop_of_unvoiced (s := s.withSample (.bits d))
    obtain ⟨lag, period, pitch, conf⟩ := onHop_estimate (s.withSample (.bits d))
    exact ⟨rfl, lag, period, pitch, conf, onHop_qtarget _, onHop_wasVoiced _, onset, sustained, unvoiced,
      onHop_correction _, onHop_ratio _, onHop_period_of_voiced _, onHop_period_of_unvoiced _⟩
  · rw [hopIfDue_of_not_hopDue _ notDue]
    exact ⟨rfl, rfl, rfl, rfl, rfl, rfl, rfl, rfl, rfl, rfl, rfl, rfl, rfl⟩
end

section
/-! PROOFS. The errors (spec/60_exceptions.md R1301 to R1307): the flag that a transaction raises, what a refused
transaction leaves, and that a flag falls by WR_ERR alone. -/

namespace Sys2Proof.Machine

/-! ### Words that a write refuses (R401, R1302) -/

/-- A pattern whose exponent field is all ones is not finite (R11). -/
theorem isFinite32_eq_false_of_exponent {d : Word} (h : d.extractLsb' 23 8 = 0xFF) : isFinite32 d = false :=
  Bool.eq_false_iff.2 fun finite => exponent_ne_of_isFinite32 finite h

theorem writeF32_of_finite {d : Word} (h : isFinite32 d = true) (store : Num → State → State) (s : State) :
    writeF32 d store s = store (.bits d) s := by
  rcases writeF32_cases d store s with ⟨-, e⟩ | ⟨bad, -⟩
  · exact e
  · exact absurd h (ne_true_of_eq_false bad)

theorem writeF32_of_not_finite {d : Word} (h : isFinite32 d = false) (store : Num → State → State) (s : State) :
    writeF32 d store s = raiseError .val s := by
  rcases writeF32_cases d store s with ⟨finite, -⟩ | ⟨-, e⟩
  · exact absurd finite (ne_true_of_eq_false h)
  · exact e

theorem writeEnum_of_le {top : Nat} {d : Word} (h : d.toNat ≤ top) (store : BitVec 4 → State → State) (s : State) :
    writeEnum top d store s = store (d.extractLsb' 0 4) s := by
  rcases writeEnum_cases top d store s with ⟨-, e⟩ | ⟨above, -⟩
  · exact e
  · exact absurd above h.not_gt

theorem writeEnum_of_lt {top : Nat} {d : Word} (h : top < d.toNat) (store : BitVec 4 → State → State) (s : State) :
    writeEnum top d store s = raiseError .val s := by
  rcases writeEnum_cases top d store s with ⟨legal, -⟩ | ⟨-, e⟩
  · exact absurd h legal.not_gt
  · exact e

/-! ### The flag that a transaction raises (R1302) -/

/-- The error condition of each transaction: the flag it raises, if it raises one. -/
def raisedFlag (s : State) : Instr → Option ErrBit
  | .init => if s.fs.toNat < 1400 then some .cfg else none
  | .wrCtrl _ | .wrErr _ | .wrFs _ => none
  | .wrMix d | .wrShift d | .wrTune d | .wrAmount d | .wrGlide d | .wrPersist d =>
    if isFinite32 d then none else some .val
  | .cmdRsvd _ => some .val
  | .wrRoot d => if 11 < d.toNat then some .val else none
  | .wrScale d => if 12 < d.toNat then some .val else none
  | .push d => if s.ready then (if isFinite32 d then none else some .val) else some .nrdy
  | .wrBad _ _ => some .addr
  | .rd a _ => if regAt a = none then some .addr else none

variable {s : State} {i : Instr} {b : ErrBit}

theorem after_rd_of_regAt {a : Addr} {r : Reg} (h : regAt a = some r) (d : Word) :
    after s (.rd a d) = respond (regWord s r) s := by
  simp only [after, h]

theorem after_rd_of_unmapped {a : Addr} (h : regAt a = none) (d : Word) :
    after s (.rd a d) = respond 0 (raiseError .addr s) := by
  simp only [after, h]

theorem exec_rd_of_regAt {a : Addr} {r : Reg} (h : regAt a = some r) (d : Word) :
    exec (.rd a d) s = .next { s with readData := some (regWord s r) } := by
  rw [exec_eq_after, after_rd_of_regAt h]
  rfl

theorem exec_rd_of_unmapped {a : Addr} (h : regAt a = none) (d : Word) :
    exec (.rd a d) s = .next { s with err := s.err ||| 0b1000, readData := some 0 } := by
  rw [exec_eq_after, after_rd_of_unmapped h]
  rfl

/-- A refused write does nothing but raise its flag (R1301, R1303). -/
theorem after_of_raised (raised : raisedFlag s i = some b) (write : ∀ a d, i ≠ .rd a d) :
    after s i = raiseError b s := by
  cases i with
  | init =>
    obtain ⟨low, rfl⟩ : s.fs.toNat < 1400 ∧ ErrBit.cfg = b := by simpa [raisedFlag] using raised
    exact if_pos low
  | cmdRsvd | wrBad => exact Option.some.inj raised ▸ rfl
  | wrCtrl | wrErr | wrFs => exact nomatch raised
  | wrMix d | wrShift d | wrTune d | wrAmount d | wrGlide d | wrPersist d =>
    obtain ⟨bad, rfl⟩ : isFinite32 d = false ∧ ErrBit.val = b := by simpa [raisedFlag] using raised
    rw [after, writeF32_of_not_finite bad]
  | wrRoot d | wrScale d =>
    obtain ⟨above, e⟩ := Option.ite_none_right_eq_some.1 raised
    rw [after, writeEnum_of_lt above, Option.some.inj e]
  | push d =>
    rcases pushSample_cases d s with ⟨clear, e⟩ | ⟨ready, bad, e⟩ | ⟨ready, finite, -⟩
    · obtain rfl : ErrBit.nrdy = b := by simpa [raisedFlag, clear] using raised
      exact e
    · obtain rfl : ErrBit.val = b := by simpa [raisedFlag, ready, bad] using raised
      exact e
    · simp [raisedFlag, ready, finite] at raised
  | rd a d => exact absurd rfl (write a d)

theorem exec_of_raised (raised : raisedFlag s i = some b) (write : ∀ a d, i ≠ .rd a d) :
    exec i s = .next (raiseError b s) := by
  rw [exec_eq_after, after_of_raised raised write]

/-- No step of a PUSH raises an error (R1302). -/
@[simp] theorem acceptSample_err (x : Num) (s : State) : (acceptSample x s).err = s.err := by simp [acceptSample]

/-- Without its error condition a transaction keeps ERR, unless it is the WR_ERR that clears flags. -/
theorem after_err_of_not_raised (quiet : raisedFlag s i = none) (other : ∀ d, i ≠ .wrErr d) :
    (after s i).err = s.err := by
  cases i with
  | init =>
    have rate : ¬ s.fs.toNat < 1400 := by simpa [raisedFlag] using quiet
    rw [after, if_neg rate]
    rfl
  | cmdRsvd | wrBad => exact nomatch quiet
  | wrCtrl | wrFs => rfl
  | wrErr d => exact absurd rfl (other d)
  | wrMix d | wrShift d | wrTune d | wrAmount d | wrGlide d | wrPersist d =>
    have finite : isFinite32 d = true := by simpa [raisedFlag] using quiet
    rw [after, writeF32_of_finite finite]
  | wrRoot d | wrScale d =>
    rw [after, writeEnum_of_le (by simpa [raisedFlag] using quiet), recomputeMask_err]
  | push d =>
    obtain ⟨ready, finite⟩ : s.ready = true ∧ isFinite32 d = true := by
      cases ready : s.ready <;> simp_all [raisedFlag]
    rw [after_push_of_finite ready finite, acceptSample_err]
  | rd a d =>
    obtain ⟨r, mapped⟩ : ∃ r, regAt a = some r := by
      simpa [raisedFlag, Option.ne_none_iff_exists'] using quiet
    rw [after_rd_of_regAt mapped, respond_err]

/-- A refused transaction, a read too, raises its flag in ERR. -/
theorem after_err_of_raised (raised : raisedFlag s i = some b) : (after s i).err = s.err ||| errMask b := by
  by_cases read : ∃ a d, i = .rd a d
  · obtain ⟨a, d, rfl⟩ := read
    obtain ⟨unmapped, rfl⟩ : regAt a = none ∧ ErrBit.addr = b := by simpa [raisedFlag] using raised
    rw [after_rd_of_unmapped unmapped, respond_err, raiseError_err]
  · push Not at read
    rw [after_of_raised raised read, raiseError_err]

/-- A transaction other than WR_ERR clears no flag (R1307). -/
theorem getLsbD_after_err (other : ∀ d, i ≠ .wrErr d) {k : Nat} (set : s.err.getLsbD k = true) :
    (after s i).err.getLsbD k = true := by
  cases flag : raisedFlag s i with
  | none => rw [after_err_of_not_raised flag other, set]
  | some b => rw [after_err_of_raised flag, BitVec.getLsbD_or, set, Bool.true_or]

/-- WR_ERR clears the flags that its data field marks and no other (R1203). -/
theorem getLsbD_after_wrErr (d : Word) (k : Nat) :
    (after s (.wrErr d)).err.getLsbD k = (s.err.getLsbD k && !(decide (k < 4) && d.getLsbD k)) := by
  rw [after, clearErr, operandClear, BitVec.getLsbD_and, BitVec.getLsbD_not, BitVec.getLsbD_extractLsb', Nat.zero_add]
  by_cases inside : k < 4
  · simp [inside]
  · simp [inside, BitVec.getLsbD_of_ge _ _ (not_lt.1 inside)]

/-! ### The register map's two readings (R18) -/

/-- An address has an access type exactly where it has a register. -/
theorem accessAt_eq_none_iff (a : Addr) : accessAt a = none ↔ regAt a = none := by simp [accessAt, regAt]

end Sys2Proof.Machine

open Sys2Proof Sys2Proof.Machine in
/-- Settles O10: each condition is the one under which the transaction raises its flag. -/
theorem refusedTransactionsOnlySetTheirFlag : Obligations.RefusedTransactionsOnlySetTheirFlag := by
  intro s a d
  refine ⟨fun low => ?_, fun clear => ?_, fun ready exponent => ?_, ?_, fun above => ?_, fun above => ?_,
    fun exponent i write => ?_, ?_, fun unmapped => ?_⟩
  · exact exec_of_raised (b := .cfg) (if_pos low) nofun
  · exact exec_of_raised (b := .nrdy) (by simp [raisedFlag, clear]) nofun
  · exact exec_of_raised (b := .val) (by simp [raisedFlag, ready, isFinite32_eq_false_of_exponent exponent]) nofun
  · exact exec_of_raised (b := .val) rfl nofun
  · exact exec_of_raised (b := .val) (if_pos above) nofun
  · exact exec_of_raised (b := .val) (if_pos above) nofun
  · have raised : raisedFlag s i = some .val ∧ ∀ a d, i ≠ .rd a d := by
      simp only [List.mem_cons, List.not_mem_nil, or_false] at write
      rcases write with rfl | rfl | rfl | rfl | rfl | rfl <;>
        exact ⟨by simp [raisedFlag, isFinite32_eq_false_of_exponent exponent], nofun⟩
    exact exec_of_raised raised.1 raised.2
  · exact exec_of_raised (b := .addr) rfl nofun
  · exact exec_rd_of_unmapped ((accessAt_eq_none_iff a).1 unmapped) d

open Sys2Proof Sys2Proof.Machine in
/-- Settles O11: where the condition of R1302 does not hold, no flag is raised. -/
theorem errIsKeptOutsideTheErrorConditions : Obligations.ErrIsKeptOutsideTheErrorConditions := by
  intro i s t e permitted
  rw [eq_after_of_exec e]
  cases i with
  | cmdRsvd | wrBad | wrErr => exact permitted.elim
  | init => exact after_err_of_not_raised (if_neg permitted.not_gt) nofun
  | wrCtrl | wrFs => exact after_err_of_not_raised rfl nofun
  | wrMix d | wrShift d | wrTune d | wrAmount d | wrGlide d | wrPersist d =>
    exact after_err_of_not_raised (if_pos (isFinite32_of_exponent_ne permitted)) nofun
  | wrRoot d | wrScale d => exact after_err_of_not_raised (if_neg permitted.not_gt) nofun
  | push d =>
    obtain ⟨ready, exponent⟩ := permitted
    rw [after_push_of_finite ready (isFinite32_of_exponent_ne exponent), acceptSample_err]
  | rd a d =>
    have mapped := mt (accessAt_eq_none_iff a).2 permitted
    exact after_err_of_not_raised (if_neg mapped) nofun

open Sys2Proof Sys2Proof.Machine in
/-- Settles O12: a raised flag is added to ERR, and WR_ERR clears only the flags it marks. -/
theorem errBitsFallOnlyByWrErr : Obligations.ErrBitsFallOnlyByWrErr := by
  refine ⟨fun i s t k e set fallen => ?_, rfl, fun s t rate e => ?_⟩
  · rw [eq_after_of_exec e] at fallen
    by_cases clears : ∃ d, i = .wrErr d
    · obtain ⟨d, rfl⟩ := clears
      rw [getLsbD_after_wrErr, set] at fallen
      exact ⟨d, rfl, by simp_all⟩
    · push Not at clears
      exact absurd (getLsbD_after_err clears set) (ne_true_of_eq_false fallen)
  · rw [eq_initEngine_of_exec rate e]
    rfl
end

section
/-! PROOFS. The register writes (spec/47_host_commands.md R1201 to R1213): each word decodes to its write, which stores
its operand or is refused. -/

namespace Sys2Proof

/-- A write to a read-only or unmapped address is none of rows 1 to 14 (R403, R1213). -/
theorem not_mem_writableAddrs_of_access {a : Addr} (h : Machine.accessAt a = some .ro ∨ Machine.accessAt a = none) :
    a ∉ writableAddrs := by
  have writable : ∀ a ∈ writableAddrs, ¬ (Machine.accessAt a = some .ro ∨ Machine.accessAt a = none) := by decide
  exact fun mem => writable a mem h

namespace Machine

/-- Bit c of MASK is the row's bit for the class c above the root (R803). -/
theorem getLsbD_rotatedMask (row : BitVec 12) (root : BitVec 4) {c : Nat} (h : c < 12) :
    (rotatedMask row root).getLsbD c = row.getLsbD (((c : Int) - root.toNat) % 12).toNat := by
  rw [BitVec.getLsbD_eq_getElem h, getElem_rotatedMask row root h]
  rfl

/-- SCALE selects a row of the table (R803, R804). -/
theorem scaleRow_eq (p : Params) {scale : BitVec 4} (h : scale.toNat < 13) :
    scaleRow p scale = p.scaleRom[scale.toNat] := by
  simp [scaleRow, h]

/-- The four bits stored of a legal enumerated operand hold its value (R401). -/
theorem toNat_lowBits {d : Word} (h : d.toNat < 16) : (d.extractLsb' 0 4).toNat = d.toNat := by
  rw [BitVec.extractLsb'_toNat, Nat.shiftRight_zero]
  exact Nat.mod_eq_of_lt h

theorem exec_wrRoot_of_le {d : Word} (h : d.toNat ≤ 11) (s : State) : exec (.wrRoot d) s = .next { s with
    root := d.extractLsb' 0 4
    mask := rotatedMask (scaleRow s.par s.scale) (d.extractLsb' 0 4) } := by
  rw [exec_eq_after, after, writeEnum_of_le h]
  rfl

theorem exec_wrScale_of_le {d : Word} (h : d.toNat ≤ 12) (s : State) : exec (.wrScale d) s = .next { s with
    scale := d.extractLsb' 0 4
    mask := rotatedMask (scaleRow s.par (d.extractLsb' 0 4)) s.root } := by
  rw [exec_eq_after, after, writeEnum_of_le h]
  rfl

end Machine

end Sys2Proof

open Sys2Proof Sys2Proof.Machine in
/-- Settles O21: a legal root of four bits is the operand itself. -/
theorem wrRootStoresAndRotates : Obligations.WrRootStoresAndRotates := by
  intro s d
  refine ⟨decode_encode (i := .wrRoot d) rfl, fun above => ?_, fun legal row => ⟨_, exec_wrRoot_of_le legal s, ?_⟩⟩
  · exact exec_of_raised (b := .val) (if_pos above) nofun
  · intro c inside
    rw [getLsbD_rotatedMask _ _ inside, scaleRow_eq _ row, toNat_lowBits (by omega)]

open Sys2Proof Sys2Proof.Machine in
/-- Settles O22: a legal scale of four bits is the operand itself, and selects its row. -/
theorem wrScaleStoresAndRotates : Obligations.WrScaleStoresAndRotates := by
  intro s d
  refine ⟨decode_encode (i := .wrScale d) rfl, fun above => ?_,
    fun legal => ⟨_, exec_wrScale_of_le (Nat.le_of_lt_succ legal) s, ?_⟩⟩
  · exact exec_of_raised (b := .val) (if_pos above) nofun
  · intro c inside
    have operand := toNat_lowBits (d := d) (by omega)
    rw [getLsbD_rotatedMask _ _ inside, scaleRow_eq _ (operand ▸ legal)]
    simp only [operand]

open Sys2Proof Sys2Proof.Machine in
/-- Settles O17: the operand of WR_CTRL is its bit 0. -/
theorem wrCtrlStoresBitZero : Obligations.WrCtrlStoresBitZero := fun s d =>
  ⟨decode_encode (i := .wrCtrl d) rfl, exec_eq_after (.wrCtrl d) s⟩

open Sys2Proof Sys2Proof.Machine in
/-- Settles O18: the operand of WR_ERR is its four low bits. -/
theorem wrErrClearsTheMarkedFlags : Obligations.WrErrClearsTheMarkedFlags := fun s d =>
  ⟨decode_encode (i := .wrErr d) rfl, exec_eq_after (.wrErr d) s⟩

open Sys2Proof Sys2Proof.Machine in
/-- Settles O19: WR_FS leaves even the rate in use as it was, until the next INIT. -/
theorem wrFsStoresTheRate : Obligations.WrFsStoresTheRate := fun s d =>
  ⟨decode_encode (i := .wrFs d) rfl, exec_eq_after (.wrFs d) s⟩

open Sys2Proof Sys2Proof.Machine in
/-- Settles O20: the operand of a finite word is its own pattern, under either ARITH. -/
theorem floatWritesStoreTheOperand : Obligations.FloatWritesStoreTheOperand := by
  intro s d exponent
  have stored := writeF32_of_finite (isFinite32_of_exponent_ne exponent)
  refine ⟨rfl, ?_, ?_, ?_, ?_, ?_, ?_⟩ <;> rw [exec_eq_after, after, stored]

open Sys2Proof Sys2Proof.Machine in
/-- Settles O24: no writable address is read-only or unmapped. -/
theorem reservedWritesRaiseTheirFlag : Obligations.ReservedWritesRaiseTheirFlag := by
  intro s a d
  refine ⟨fun other => decode_encode (i := .cmdRsvd d) (bne_iff_ne.2 other), ?_, fun access => ?_, ?_⟩
  · exact exec_of_raised (b := .val) rfl nofun
  · exact decode_encode ((Instr.wrBad_wf_iff a d).2 (not_mem_writableAddrs_of_access access))
  · exact exec_of_raised (b := .addr) rfl nofun
end

section
/-! PROOFS. The register reads (spec/47_host_commands.md R1214, spec/10_state.md R18): the register map as the list of
the addresses with the word that each reads as; and what power-on reset reads as (spec/70_reset_and_hazards.md R1400). -/

namespace Sys2Proof.Machine

/-! ### The register map (R18) -/

/-- The register at an address is that of its line: no address has two. -/
theorem regAt_eq_some_iff (a : Addr) (r : Reg) : regAt a = some r ↔ ∃ e ∈ regMap, e.addr = a ∧ e.reg = r := by
  constructor
  · intro h
    obtain ⟨e, found, reg⟩ := Option.map_eq_some_iff.1 h
    exact ⟨e, List.mem_of_find?_eq_some found, by simpa using List.find?_some found, reg⟩
  · rintro ⟨e, mem, rfl, rfl⟩
    have own : ∀ e ∈ regMap, regAt e.addr = some e.reg := by decide
    exact own e mem

/-- MASK is read at its own address alone. -/
theorem ne_mask_of_regAt {a : Addr} {r : Reg} (h : regAt a = some r) (other : a ≠ 0x18) : r ≠ .mask := by
  rintro rfl
  obtain ⟨e, mem, rfl, reg⟩ := (regAt_eq_some_iff a .mask).1 h
  have own : ∀ e ∈ regMap, e.reg = .mask → e.addr = 0x18 := by decide
  exact other (own e mem reg)

/-- Each mapped address with the word it reads as. -/
def State.readings (s : State) : List (Addr × Word) := regMap.map fun e => (e.addr, regWord s e.reg)

theorem State.mem_readings_iff (s : State) (a : Addr) (w : Word) :
    (a, w) ∈ s.readings ↔ ∃ r, regAt a = some r ∧ w = regWord s r := by
  simp only [State.readings, List.mem_map, Prod.mk.injEq, regAt_eq_some_iff]
  constructor
  · rintro ⟨e, mem, addr, word⟩
    exact ⟨e.reg, ⟨e, mem, addr, rfl⟩, word.symm⟩
  · rintro ⟨_, ⟨e, mem, addr, rfl⟩, word⟩
    exact ⟨e, mem, addr, word.symm⟩

/-! ### The words of the registers (R12, R17, R19) -/

theorem ctrlWord_eq (s : State) : ctrlWord s = if s.normEn then 1 else 0 := by
  unfold ctrlWord
  cases s.normEn <;> rfl

theorem statusWord_eq (s : State) : statusWord s = (if s.wasVoiced then 2 else 0) + (if s.ready then 1 else 0) := by
  unfold statusWord
  cases s.wasVoiced <;> cases s.ready <;> rfl

theorem enc32Exact_of_asRat {x : Num} {q : Rat} (h : x.asRat = some q) : Num.enc32Exact x = encRat q := by
  simp only [Num.enc32Exact, h]

/-! ### A read (R1214) -/

variable {s : State} {a : Addr}

theorem exec_rd_of_reading {w : Word} (h : (a, w) ∈ s.readings) (d : Word) :
    exec (.rd a d) s = .next { s with readData := some w } := by
  obtain ⟨r, mapped, rfl⟩ := (s.mem_readings_iff a w).1 h
  exact exec_rd_of_regAt mapped d

theorem exec_rd_of_no_reading (h : ∀ w, (a, w) ∉ s.readings) (d : Word) :
    exec (.rd a d) s = .next { s with err := s.err ||| 0b1000, readData := some 0 } := by
  refine exec_rd_of_unmapped (Option.eq_none_iff_forall_ne_some.2 fun r mapped => ?_) d
  exact h _ ((s.mem_readings_iff a _).2 ⟨r, mapped, rfl⟩)

/-! ### After power-on reset (R1400) -/

/-- The pattern of +0.0 is 0 under the reset's ARITH too. -/
theorem numWord_reset_zero : numWord State.reset (.bits 0) = 0 := by
  have numeral : (Num.bits 0).asRat = some 0 := congrArg some dec32_zero
  have pattern : encRat 0 = 0 := by decide +kernel
  exact (enc32Exact_of_asRat numeral).trans pattern

theorem regWord_reset {r : Reg} (h : r ≠ .mask) : regWord State.reset r = 0 := by
  cases r
  case mask => exact absurd rfl h
  case mix | shift | tune | amount | glide | persist | outL | outR | estPeriod | estPitch | estConf | smooth |
      persistAmt | correction | ratio | periodNom | phaseInc | phaseIn | phaseOut =>
    exact numWord_reset_zero
  all_goals rfl

end Sys2Proof.Machine

open Sys2Proof Sys2Proof.Machine in
/-- Settles O25: the forty addresses with their words are the lines of the register map. -/
theorem readReturnsTheRegister : Obligations.ReadReturnsTheRegister := by
  intro s num registers
  have lines : registers = s.readings := by
    simp only [State.readings, regMap, List.map_cons, List.map_nil, regWord, ctrlWord_eq, statusWord_eq]
    rfl
  refine ⟨fun w arith => ?_, fun x arith defined => ?_, fun x q arith numeral => ?_, fun a d => ?_⟩
  · simp only [num, arith]
    rfl
  · simp only [num, arith]
    exact Num.enc32Exact_eq defined
  · simp only [num, arith]
    exact enc32Exact_of_asRat numeral
  · rw [lines]
    exact ⟨fun w mapped => exec_rd_of_reading mapped d, fun unmapped => exec_rd_of_no_reading unmapped d⟩

open Sys2Proof Sys2Proof.Machine in
/-- Settles O9: MASK apart, every register is 0 or holds +0.0. -/
theorem resetReadsZeroButMask : Obligations.ResetReadsZeroButMask := by
  refine ⟨rfl, rfl, fun a d mapped other => ?_, fun d => exec_rd_of_regAt (r := .mask) rfl d⟩
  obtain ⟨r, reg⟩ : ∃ r, regAt a = some r :=
    Option.ne_none_iff_exists'.1 fun unmapped => by simp [(accessAt_eq_none_iff a).2 unmapped] at mapped
  rw [exec_rd_of_regAt reg, regWord_reset (ne_mask_of_regAt reg other)]
end

section
/-! PROOFS. INIT (spec/47_host_commands.md R1200): the registers and the memory of the engine it starts. -/

namespace Sys2Proof.Machine

/-- PERIOD_NOM and PHASE_INC are 1/700 and 700/FS as reals (R55, R1200). -/
theorem val_initEngine_periods {s : State} (arith : s.par.arith = .exact) :
    (initEngine s).periodNom.val = 1 / 700 ∧ (initEngine s).phaseInc.val = 700 / (s.fs.toNat : ℝ) := by
  simp [initEngine, arith]

/-- PERIOD_NOM and PHASE_INC are one binary32 division each (R9, R1200, log 9). -/
theorem initEngine_periods_f32 {s : State} (arith : s.par.arith = .f32) :
    (initEngine s).periodNom = .bits (div32 0x3F800000 0x442F0000) ∧
    (initEngine s).phaseInc = .bits (div32 0x442F0000 (encRat s.fs.toNat)) := by
  have constant : Num.ofInt .f32 700 = .bits 0x442F0000 := congrArg Num.bits (by decide +kernel)
  have rate : Num.ofInt .f32 s.fs.toNat = .bits (encRat s.fs.toNat) := Num.ofInt_natCast .f32 s.fs.toNat
  simp only [initEngine, arith, constant, rate]
  exact ⟨rfl, rfl⟩

end Sys2Proof.Machine

open Sys2Proof Sys2Proof.Machine in
/-- Settles O13: the sizes and lag bounds are those of the geometry that INIT sets up, and each ARITH has its own two
quotients. -/
theorem initSetsTheEngine : Obligations.InitSetsTheEngine := by
  intro s rate
  obtain ⟨-, size, hop, nmin, nmax, -⟩ := (initEngine_geometryOk rate).2.2 rfl
  have nmax' : (initEngine s).nmax.toNat = min (s.fs.toNat / 70) ((initEngine s).nsize.toNat / 2 + 1) := by
    rw [nmax, nmaxFor, ← size]
    rfl
  refine ⟨initEngine s, ?_, rfl, rfl, rfl, size, hop, nmin, nmax', fun i => ⟨rfl, rfl, rfl, rfl⟩, rfl, rfl, rfl, rfl,
    rfl, rfl, rfl, rfl, rfl, rfl, rfl, val_initEngine_periods, initEngine_periods_f32, rfl, rfl, rfl, rfl, rfl, rfl, rfl,
    rfl, rfl, rfl, rfl, rfl, rfl, rfl, rfl, rfl, rfl, rfl, rfl, rfl, rfl, rfl, rfl⟩
  rw [exec_eq_after, after_init_of_rate rate]
end

section
/-! PROOFS. The step and the reset: an idle step (spec/60_exceptions.md R1314), completion (R1304), the invariants at
power-on reset (spec/70_reset_and_hazards.md R1400), and the written-out words of spec/95_test_vectors.md. -/

namespace Sys2Proof.Machine

/-- Nothing is taken from an empty port (R1314). -/
theorem takeTransaction_of_idle {s : State} (port : s.port = []) : takeTransaction s = none := by
  simp only [takeTransaction, port]

/-- Rotation by the root 0 is the row itself (R803). -/
theorem rotatedMask_zero (row : BitVec 12) : rotatedMask row 0 = row := by
  rw [maskIsTheRowRotatedLeft row 0 (by decide)]
  simp [BitVec.ushiftRight_eq_zero]

/-! ### The invariants at reset (R18, R1400) -/

theorem reset_arrays : State.reset.arrays = List.replicate 7 [] := rfl

theorem reset_numRegisters : State.reset.numRegisters = List.replicate 19 Num.zero := rfl

theorem reset_geometryOk : State.reset.GeometryOk := ⟨rfl, fun _ => ⟨rfl, rfl, rfl, rfl, rfl⟩, nofun⟩

theorem reset_cellsOk : State.reset.CellsOk := by
  intro m mem
  rw [reset_arrays] at mem
  exact List.eq_of_mem_replicate mem ▸ Store.within_nil _

/-- MASK is row 0, which the root 0 leaves as it is. -/
theorem reset_scaleOk : State.reset.ScaleOk := by
  have row : scaleRow State.reset.par State.reset.scale = State.reset.mask := scaleRow_eq _ (by decide)
  exact ⟨by decide, by decide, by rw [row]; exact (rotatedMask_zero _).symm⟩

theorem reset_operandsOk : State.reset.OperandsOk := by
  have zero : Num.IsOperand Num.zero := ⟨0, isFinite32_zero, rfl⟩
  exact ⟨zero, zero, zero, zero, zero, zero⟩

theorem reset_formatOk : State.reset.FormatOk := by
  rw [State.formatOk_iff, State.fits_iff, reset_numRegisters, reset_arrays]
  refine ⟨⟨fun x mem => ?_, fun m mem => ?_⟩, nofun⟩
  · exact List.eq_of_mem_replicate mem ▸ Num.fits_zero _
  · exact List.eq_of_mem_replicate mem ▸ Store.fits_nil _

end Sys2Proof.Machine

open Sys2Proof Sys2Proof.Machine in
/-- Settles O7: nothing is taken from the port. -/
theorem idleStepKeepsTheState : Obligations.IdleStepKeepsTheState := by
  intro s port
  rw [step, takeTransaction_of_idle port]

open Sys2Proof Sys2Proof.Machine in
/-- Settles O8: `after` names the state each transaction leaves, and a step idles or runs one. -/
theorem everyTransactionCompletes : Obligations.EveryTransactionCompletes := by
  refine ⟨fun i s => ⟨_, exec_eq_after i s⟩, fun s => ?_⟩
  rcases step_cases s with ⟨-, idle⟩ | ⟨_, _, -, -, idle⟩ | ⟨_, _, i, -, -, run⟩
  · exact ⟨s, idle⟩
  · exact ⟨s, idle⟩
  · exact ⟨_, run.trans (exec_eq_after i _)⟩

open Sys2Proof Sys2Proof.Machine in
/-- Settles O58: every register is 0 or +0.0, no cell is listed, and MASK is its row. -/
theorem resetMeetsTheInvariants : Obligations.ResetMeetsTheInvariants :=
  ⟨reset_memory_wf, reset_geometryOk, reset_cellsOk, reset_scaleOk, reset_operandsOk, rfl, reset_formatOk⟩

open Sys2Proof in
/-- Settles O5: each word is the encoding of the transaction that is named for it. -/
theorem writtenOutWordsDecode : Obligations.WrittenOutWordsDecode :=
  ⟨decode_encode (i := .init) rfl, decode_encode (i := .cmdRsvd 2) rfl, decode_encode (i := .wrCtrl 0xFFFFFFFF) rfl,
    decode_encode (i := .wrErr 0xFFFFFFF4) rfl, decode_encode (i := .wrFs 48000) rfl,
    decode_encode (i := .wrShift 0xC1400000) rfl, decode_encode (i := .wrRoot 2) rfl,
    decode_encode (i := .push 0x3F800000) rfl, decode_encode (i := .wrBad 0x45 1) rfl,
    decode_encode (i := .rd 0x03 0xFFFFFFFF) rfl⟩
end
